-- ==== Sys2Proof/Word.lean ====
section
/-! DEFINITION. The word types of the machine: bytes, the 16-bit and 32-bit quantities (R13). -/

namespace Sys2Proof

/-- A byte: 8 bits, unsigned, bit 0 the least significant (R13). -/
abbrev Byte := BitVec 8

/-- A 16-bit quantity: a register address of the CHIP, the sense-response, BUDGET. -/
abbrev Half := BitVec 16

/-- A 32-bit quantity: the card ID, RES32. -/
abbrev Word := BitVec 32

end Sys2Proof
end

