-- ==== Sys2Proof/Machine/Bits.lean ====
section
/-! DEFINITION. The arithmetic helpers of R14 and the byte order of R68: most significant byte first. -/

namespace Sys2Proof

/-- `be16(a, b)` = 256·a + b (R14). -/
def be16 (a b : Byte) : Half := BitVec.ofNat 16 (256 * a.toNat + b.toNat)

/-- `be32(a, b, c, d)` = 2^24·a + 2^16·b + 2^8·c + d (R14). -/
def be32 (a b c d : Byte) : Word :=
  BitVec.ofNat 32 (16777216 * a.toNat + 65536 * b.toNat + 256 * c.toNat + d.toNat)

/-- `shl8_32(w, b)` = (w·256 + b) mod 2^32 (R14). -/
def shl8_32 (w : Word) (b : Byte) : Word := BitVec.ofNat 32 (w.toNat * 256 + b.toNat)

/-- The two bytes of a 16-bit operand, most significant first (R68, R101). -/
def halfBytes (h : Half) : List Byte := [h.extractLsb' 8 8, h.extractLsb' 0 8]

/-- The four bytes of a 32-bit operand, most significant first (R68, R101). -/
def wordBytes (w : Word) : List Byte :=
  [w.extractLsb' 24 8, w.extractLsb' 16 8, w.extractLsb' 8 8, w.extractLsb' 0 8]

/-- `sum8(s)`: the sum of a byte sequence modulo 256 (R14). -/
def sum8 : List Byte → Byte
  | [] => 0
  | b :: bs => b + sum8 bs

/-- `neg8(x)`: the 8-bit two's complement (R14). -/
def neg8 (x : Byte) : Byte := -x

/-- `not8(x)`: the 8-bit one's complement (R14). -/
def not8 (x : Byte) : Byte := ~~~x

/-- `v[i] <- b`: one bit of a byte written, the others kept (R13, R131). -/
def setBit (v : Byte) (i : Nat) (b : Bool) : Byte :=
  if b then v ||| (1#8 <<< i) else v &&& ~~~(1#8 <<< i)

/-- Element `i` of a byte sequence, `s[i]` (R13); used only where `i` is within it. -/
def byteAt (s : List Byte) (i : Nat) : Byte := s.getD i 0

/-- The `n` elements of a sequence from index `a` on, `s[a .. a+n−1]` (R13). -/
def slice (s : List Byte) (a n : Nat) : List Byte := (s.drop a).take n

end Sys2Proof
end

