-- ==== Sys2Proof/Config.lean ====
section
/-! DEFINITION. The parameters of R12 as one record, their defaults, the constraints the spec puts on them, and the free
values: constants with no body, so that nothing can be proved of what they are. -/

namespace Sys2Proof

/-- The implementation parameters of R12. "A model takes every GK and dec value as a configuration field, never as a fact
about the hardware": State carries one Config, no step writes it, and a claim holds for every Config unless it names one. -/
structure Config where
  /-- PRE, each of the two preamble bytes. -/
  pre : Byte
  /-- START, the start-code byte. -/
  start : Byte
  /-- POST, the postamble byte. -/
  post : Byte
  /-- DIR_H2C, direction byte host to chip. -/
  dirH2C : Byte
  /-- DIR_C2H, direction byte chip to host; no rule tests it (R175). -/
  dirC2H : Byte
  /-- ACK[0..5], the Acknowledgement Frame. -/
  ack : Vector Byte 6
  /-- SPI_DW, the data-write sub-command byte. -/
  spiDW : Byte
  /-- SPI_SR, the status-read request byte. -/
  spiSR : Byte
  /-- SPI_DR, the data-read sub-command byte. -/
  spiDR : Byte
  /-- READY, the ready sentinel of the status byte. -/
  ready : Byte
  /-- SEL_LEVEL, the electrical level of an asserted select; no rule uses it (R22). -/
  selLevel : Bool
  /-- TU, the time-unit in microseconds; no rule uses it (R282). -/
  tuMicros : Nat
  /-- BUDGET_DEFAULT, the Session Timeout at reset, in time-units. -/
  budgetDefault : Half
  /-- POLL_INTERVAL, the wait between status polls, in time-units. -/
  pollInterval : Nat
  /-- SETTLE, the delay after asserting select, in time-units. -/
  settle : Nat
  /-- BUFSZ, bytes in the scratch buffer. -/
  bufsz : Nat
  /-- CMDMAX, the largest command length. -/
  cmdmax : Nat
  /-- OPC_GETFW and the other chip opcodes. -/
  opcGetfw : Byte
  opcRdreg : Byte
  opcWrreg : Byte
  opcSamcfg : Byte
  opcDataex : Byte
  opcListpt : Byte
  opcJumpdep : Byte
  opcTgget : Byte
  opcTgset : Byte
  /-- ECHO_GETFW, opcode-echo of the firmware-version response; no rule tests it alone. -/
  echoGetfw : Byte
  /-- ECHO_DATAEX, the fixed exchange-opcode-echo. -/
  echoDataex : Byte
  /-- SAM_OK, the fixed success code of SAM configuration. -/
  samOk : Byte
  /-- FWSIG[0..5], the signature of the firmware-version response. -/
  fwsig : Vector Byte 6
  samMode : Byte
  samTimeout : Byte
  samIrq : Byte
  /-- LIST_MAXTG, "max-targets=1". -/
  listMaxtg : Byte
  /-- KEYSEL_A, KEYSEL_B: the usual key-type selectors; the selector is an operand and no rule tests it (R197). -/
  keyselA : Byte
  keyselB : Byte
  mfRead : Byte
  mfWrite : Byte
  p2pActive : Byte
  /-- P2PINI_TAIL, the fixed polling-payload bytes; the command length changes with it (R200). -/
  p2piniTail : List Byte
  /-- P2P_TG, "target index=1" of the initiator exchange. -/
  p2pTg : Byte
  /-- TGT_TEMPLATE[0..37]; its byte 0 is OPC_TGINIT (R210). -/
  tgtTemplate : Vector Byte 38
  /-- The fixed read lengths RLEN_*. -/
  rlenGetfw : Nat
  rlenSamcfg : Nat
  rlenListpt : Nat
  rlenAuth : Nat
  rlenRdblk : Nat
  rlenWrblk : Nat
  rlenP2pini : Nat
  rlenP2piex : Nat
  rlenP2ptgt : Nat
  rlenTgget : Nat
  rlenTgset : Nat
  rlenRdreg : Nat
  /-- RD_SAMPLE_AFTER_FALL (D7, U28): the sample of a read cell is taken after its falling edge; R131 takes it before. -/
  rdSampleAfterFall : Bool
  /-- QUIRK_RESET (D14): what QUIRK holds after reset. -/
  quirkReset : Bool
  /-- RDREG_OFF (D24, U22): the index of BUF that RDREG takes the register value from. -/
  rdregOff : Nat
  deriving DecidableEq, Repr

/-- The default configuration of R12 and R210. PRESUMED (safe as a premise, log entry 1): the spec marks most of these bytes
as general knowledge, so a claim that needs one of them names this configuration. -/
def Config.default : Config where
  pre := 0x00
  start := 0xFF
  post := 0x00
  dirH2C := 0xD4
  dirC2H := 0xD5
  ack := #v[0x00, 0x00, 0xFF, 0x00, 0xFF, 0x00]
  spiDW := 0x01
  spiSR := 0x02
  spiDR := 0x03
  ready := 0x01
  selLevel := false
  tuMicros := 1000
  budgetDefault := 1000
  pollInterval := 10
  settle := 2
  bufsz := 64
  cmdmax := 38
  opcGetfw := 0x02
  opcRdreg := 0x06
  opcWrreg := 0x08
  opcSamcfg := 0x14
  opcDataex := 0x40
  opcListpt := 0x4A
  opcJumpdep := 0x56
  opcTgget := 0x86
  opcTgset := 0x8E
  echoGetfw := 0x03
  echoDataex := 0x41
  samOk := 0x15
  fwsig := #v[0x00, 0xFF, 0x06, 0xFA, 0xD5, 0x03]
  samMode := 0x01
  samTimeout := 0x14
  samIrq := 0x01
  listMaxtg := 0x01
  keyselA := 0x60
  keyselB := 0x61
  mfRead := 0x30
  mfWrite := 0xA0
  p2pActive := 0x01
  p2piniTail := [0x01, 0x00, 0xFF, 0xFF, 0x00, 0x00]
  p2pTg := 0x01
  tgtTemplate :=
    #v[0x8C, 0x00, 0x08, 0x00, 0x12, 0x34, 0x56, 0x40,
       0x01, 0xFE, 0xA2, 0xA3, 0xA4, 0xA5, 0xA6, 0xA7, 0xC0, 0xC1, 0xC2, 0xC3, 0xC4, 0xC5, 0xC6, 0xC7, 0xFF, 0xFF,
       0xAA, 0x99, 0x88, 0x77, 0x66, 0x55, 0x44, 0x33, 0x22, 0x11, 0x00, 0x00]
  rlenGetfw := 12
  rlenSamcfg := 8
  rlenListpt := 20
  rlenAuth := 8
  rlenRdblk := 24
  rlenWrblk := 8
  rlenP2pini := 25
  rlenP2piex := 24
  rlenP2ptgt := 24
  rlenTgget := 24
  rlenTgset := 8
  rlenRdreg := 10
  rdSampleAfterFall := false
  quirkReset := true
  rdregOff := 0

/-- The largest command the catalog stages fits CMDMAX, and CMDMAX fits BUF and the length byte (R12, R60, R103, R107). -/
abbrev Config.SizesOk (c : Config) : Prop :=
  38 ≤ c.cmdmax ∧ c.cmdmax ≤ c.bufsz ∧ c.cmdmax ≤ 254 ∧ 3 + c.p2piniTail.length ≤ c.cmdmax

/-- Every fixed read length fits BUF and covers what its decode step reads (R12, R60). -/
abbrev Config.ReadsOk (c : Config) : Prop :=
  (10 ≤ c.rlenGetfw ∧ c.rlenGetfw ≤ c.bufsz) ∧ (6 ≤ c.rlenSamcfg ∧ c.rlenSamcfg ≤ c.bufsz) ∧
  (13 ≤ c.rlenListpt ∧ c.rlenListpt ≤ c.bufsz) ∧ (8 ≤ c.rlenAuth ∧ c.rlenAuth ≤ c.bufsz) ∧
  (24 ≤ c.rlenRdblk ∧ c.rlenRdblk ≤ c.bufsz) ∧ (8 ≤ c.rlenWrblk ∧ c.rlenWrblk ≤ c.bufsz) ∧
  (8 ≤ c.rlenP2pini ∧ c.rlenP2pini ≤ c.bufsz) ∧ (24 ≤ c.rlenP2piex ∧ c.rlenP2piex ≤ c.bufsz) ∧
  (24 ≤ c.rlenP2ptgt ∧ c.rlenP2ptgt ≤ c.bufsz) ∧ (24 ≤ c.rlenTgget ∧ c.rlenTgget ≤ c.bufsz) ∧
  (8 ≤ c.rlenTgset ∧ c.rlenTgset ≤ c.bufsz) ∧ (c.rdregOff + 1 ≤ c.rlenRdreg ∧ c.rlenRdreg ≤ c.bufsz)

/-- The constraints the spec puts on the parameters (R12, R60): sizes, read lengths, a poll interval that is not zero, and a
start-code that differs from the preamble (R142: "with PRE ≠ START they cannot both hold"). -/
abbrev Config.Ok (c : Config) : Prop :=
  c.SizesOk ∧ c.ReadsOk ∧ 0 < c.pollInterval ∧ c.pre ≠ c.start

/-- FREE VALUE: the bit the CHIP presents at the k-th sample past the chip script (R50, R75). Log entry 2. -/
opaque Config.chipBit : Nat → Bool

/-- FREE VALUE: what byte `i` of BUF holds after RESET number `epoch`, while nothing has written it (R62). Log entry 4. -/
opaque Config.bufFree : Nat → Nat → Byte

/-- FREE VALUE: what a register of width `w` whose reset value is unspecified holds after RESET number `epoch`; the second
argument tells the registers apart (R52). Log entry 3. -/
opaque Config.regFree (w : Nat) : Nat → Nat → BitVec w

/-- FREE VALUE: what ARGS holds after RESET number `epoch` (R30, R52). Log entry 3. -/
opaque Config.argsFree : Nat → List Byte

end Sys2Proof
end

