-- ==== Sys2Proof/Machine/Names.lean ====
section
/-! DEFINITION. The names of the 30 operations, their selectors OPSEL and which of them the HOST may start (R90, R91). -/

namespace Sys2Proof

/-- The 30 operations of R90; register OP holds one of these or NONE (R28). -/
inductive OpName where
  | wrbyte | rdbyte
  | encode | declen | validate | decode | ackcmp
  | select | deselect | wrframe | status | waitrdy | rdack | rdfix | rdvar | sendcmd | xchgf | xchgv
  | getfw | samcfg | listpt | auth | rdblk | wrblk | p2pini | p2piex | p2ptgt | p2ptrs | rdreg | wrreg
  deriving DecidableEq, Repr

/-- OPSEL, all 8 bits significant; the high nibble is the component (R91). -/
def OpName.opsel : OpName → Byte
  | .wrbyte => 0x00 | .rdbyte => 0x01
  | .encode => 0x10 | .declen => 0x11 | .validate => 0x12 | .decode => 0x13 | .ackcmp => 0x14
  | .select => 0x20 | .deselect => 0x21 | .wrframe => 0x22 | .status => 0x23 | .waitrdy => 0x24 | .rdack => 0x25
  | .rdfix => 0x26 | .rdvar => 0x27 | .sendcmd => 0x28 | .xchgf => 0x29 | .xchgv => 0x2A
  | .getfw => 0x30 | .samcfg => 0x31 | .listpt => 0x32 | .auth => 0x33 | .rdblk => 0x34 | .wrblk => 0x35
  | .p2pini => 0x36 | .p2piex => 0x37 | .p2ptgt => 0x38 | .p2ptrs => 0x39 | .rdreg => 0x3A | .wrreg => 0x3B

/-- The 30 operations in the order of R90. -/
def OpName.all : List OpName :=
  [.wrbyte, .rdbyte, .encode, .declen, .validate, .decode, .ackcmp, .select, .deselect, .wrframe, .status, .waitrdy,
   .rdack, .rdfix, .rdvar, .sendcmd, .xchgf, .xchgv, .getfw, .samcfg, .listpt, .auth, .rdblk, .wrblk, .p2pini, .p2piex,
   .p2ptgt, .p2ptrs, .rdreg, .wrreg]

/-- The operation an OPSEL value names; none for a reserved value (R105). -/
def OpName.ofOpsel (b : Byte) : Option OpName := OpName.all.find? fun n => n.opsel == b

/-- Column "startable" of R90: seven operations are internal. -/
def OpName.startable : OpName → Bool
  | .encode | .declen | .validate | .decode | .ackcmp | .select | .deselect => false
  | .wrbyte | .rdbyte | .wrframe | .status | .waitrdy | .rdack | .rdfix | .rdvar | .sendcmd | .xchgf | .xchgv
  | .getfw | .samcfg | .listpt | .auth | .rdblk | .wrblk | .p2pini | .p2piex | .p2ptgt | .p2ptrs | .rdreg | .wrreg => true

end Sys2Proof
end

