-- ==== Sys2Proof/Machine/State.lean ====
section
/-! DEFINITION. The state of the machine as plain data (R20), its value after reset (R52), and the reasons a step can stop. -/

namespace Sys2Proof.Machine

/-- One event of the line-event history HIST (R15, R16). -/
inductive Event where
  | clk (b : Bool)
  | dout (b : Bool)
  | sel (b : Bool)
  | sample (b : Bool)
  | wait (n : Nat)
  deriving DecidableEq, Repr

/-- TSTATE, the Transport Session state machine (R29), codes 0 to 8 in this order. -/
inductive TState where
  | idle | selecting | awaitingReady1 | ackRead | awaitingReady2 | responseRead | success | timedOut | failed
  deriving DecidableEq, Repr

/-- ERR, the error codes 0 to 5 (R32, R231). -/
inductive ErrCode where
  | none | timeout | ackMismatch | responseMismatch | operationRejected | refused
  deriving DecidableEq, Repr

/-- The value an internal codec operation returns to its caller (R15 "returns its result"): ENCODE a frame, VALIDATE and
ACKCMP a bit, DECODE its three fields. The model's own latch (DESIGN CHOICE, safe, log entry 11). -/
inductive Ret where
  | none
  | frame (f : List Byte)
  | bit (b : Bool)
  | decoded (dir opcode : Byte) (params : List Byte)
  deriving DecidableEq, Repr

/-- The registers the HOST may read (R28, R29, R31 to R34, R38, R39, R43 to R48, R61, and SHR by R23 and C12). -/
inductive HostReg where
  | busy | op | tstate | ok | err | errinfo | short | stat | shr | budget | mode
  | res32 | outblk | sens | selr | idlen | regval | rcount
  | buf (i : Nat)
  deriving DecidableEq, Repr

/-- What a READ gives the HOST: a number, a block of bytes, or for OP the value NONE, which has no number (R28). -/
inductive HostValue where
  | number (v : Nat)
  | block (b : List Byte)
  | noOperation
  deriving DecidableEq, Repr

/-- One action of the HOST (R108, R266). -/
inductive HostAction where
  /-- Present OPSEL and an operand record and pulse START (R28). -/
  | start (opsel : Byte) (operands : List Byte)
  /-- SET BUDGET (R38). -/
  | setBudget (v : Half)
  /-- SET MODE (R39). -/
  | setMode (v : Byte)
  /-- Write one byte of BUF (R61). -/
  | writeBuf (i : Nat) (v : Byte)
  /-- READ a register (R108). -/
  | read (r : HostReg)
  /-- Apply RESET (R260). -/
  | reset
  deriving DecidableEq, Repr

/-- The scratch buffer: (index, byte) pairs, indexes strictly rising. A byte that nothing has written since reset is not
listed and holds no known value: an index is listed exactly when it has been written (log entry 5). -/
abbrev Memory := List Host.Cell

/-- The state of the SSPE (R20), with the model's own fields at the end. -/
@[ext]
structure State where
  /-- The parameters (R12); no step writes them. -/
  cfg : Config
  /-- CLK, the clock line (R21). -/
  clk : Bool
  /-- DOUT, the data-out line (R21). -/
  dout : Bool
  /-- SEL, the select line, logical (R21, R22). -/
  sel : Bool
  /-- SHR, the byte being shifted (R23). -/
  shr : Byte
  /-- BCNT, bit cells done, 0 to 8 (R23). -/
  bcnt : Nat
  /-- CKS, the running checksum (R23, R141). -/
  cks : Byte
  /-- IDX, index of the next byte to send or fill (R23). -/
  idx : Nat
  /-- TLEN, total frame length, at most 262 (R23). -/
  tlen : Nat
  /-- ACKR[0..5] (R23). -/
  ackr : Vector Byte 6
  /-- ELAPSED, charged poll-wait time of the current wait; a natural number (R25). -/
  elapsed : Nat
  /-- OP, the operation latched at START, or NONE (R28). -/
  op : Option OpName
  /-- BUSY (R28). -/
  busy : Bool
  /-- TSTATE (R29). -/
  tstate : TState
  /-- ARGS, the operand record latched at START (R30). -/
  args : List Byte
  /-- OK (R31). -/
  ok : Bool
  /-- ERR (R32). -/
  err : ErrCode
  /-- ERRINFO (R32). -/
  errinfo : Byte
  /-- SHORT (R33). -/
  short : Bool
  /-- STAT (R34). -/
  stat : Byte
  /-- BUDGET (R38). -/
  budget : Half
  /-- MODE: bit 0 QUIRK, bit 1 STRICT, bits 7:2 reserved (R39). -/
  mode : Byte
  /-- BUF (R60). -/
  buf : Memory
  /-- RES32 (R44). -/
  res32 : Word
  /-- OUTBLK[0..15] (R45). -/
  outblk : Vector Byte 16
  /-- SENS (R46). -/
  sens : Half
  /-- SELR (R46). -/
  selr : Byte
  /-- IDLEN (R46). -/
  idlen : Byte
  /-- REGVAL (R47). -/
  regval : Byte
  /-- RCOUNT (R48). -/
  rcount : Nat
  /-- HIST, kept newest event first; `State.hist` gives it in its own order (R16). -/
  trace : List Event
  /-- Whether an RDFIX or RDVAR has completed since the top-level operation started, which R240 asks (log entry 12). -/
  readDone : Bool
  /-- What the last internal operation run on its own returned (log entry 11). -/
  ret : Ret
  /-- How many RESETs were applied: each gives fresh draws (log entries 3 and 4). -/
  epoch : Nat
  /-- The bits the CHIP presents at the next samples, first one first (R75, log entry 2). -/
  din : List Bool
  /-- How many free bits of the CHIP have been used (R50, log entry 2). -/
  draws : Nat
  /-- The HOST's pending actions, first one first (R108, log entry 7). -/
  host : List HostAction
  /-- What the HOST's last READ gave (log entry 23). -/
  hostData : Option HostValue
  deriving DecidableEq, Repr

/-- Why the machine stops with a fault. Raised by the host port only, for moves the spec gives the HOST no right to; no
operation ever faults. -/
inductive Fault where
  /-- Raised by SET BUDGET, SET MODE, a write of BUF or a READ (but of BUSY, OP, TSTATE) while BUSY = 1: "the model gives such
  a HOST no move" (R80, D29). Safe (log entry 14). -/
  | hostAccessWhileBusy
  /-- Raised by a READ of SHR when the operation last started is not an RDBYTE: the HOST may read SHR only as the result of an
  RDBYTE it started (R23, R24). Safe (log entry 14). -/
  | shrNotReadable
  deriving DecidableEq, Repr

/-- Why a step has no meaning. -/
inductive Refusal where
  /-- An instruction the model gives no meaning. Raised by no arm of exec: every operation is modelled. Safe. -/
  | notModelled (mnemonic : String)
  /-- Raised by the host port for a START whose bytes after OPSEL are no operand record of the operation named (R28 has the HOST
  present the operation's operands). Safe (log entry 9). -/
  | malformedOperands
  deriving DecidableEq, Repr

/-- The state right after RESET number `epoch` of a machine with parameters `cfg`: the table of R52. "unspecified means the model
must treat the value as a draw": those registers hold free values (log entry 3), and BUF lists nothing (log entry 4). -/
def State.resetOf (cfg : Config) (epoch : Nat) : State where
  cfg := cfg
  clk := true
  dout := false
  sel := false
  shr := Config.regFree 8 epoch 0
  bcnt := 0
  cks := Config.regFree 8 epoch 1
  idx := 0
  tlen := 0
  ackr := #v[Config.regFree 8 epoch 8, Config.regFree 8 epoch 9, Config.regFree 8 epoch 10, Config.regFree 8 epoch 11,
    Config.regFree 8 epoch 12, Config.regFree 8 epoch 13]
  elapsed := 0
  op := none
  busy := false
  tstate := .idle
  args := Config.argsFree epoch
  ok := false
  err := .none
  errinfo := 0
  short := false
  stat := Config.regFree 8 epoch 2
  budget := cfg.budgetDefault
  mode := if cfg.quirkReset then 0x01 else 0x00
  buf := []
  res32 := Config.regFree 32 epoch 3
  outblk := #v[Config.regFree 8 epoch 16, Config.regFree 8 epoch 17, Config.regFree 8 epoch 18, Config.regFree 8 epoch 19,
    Config.regFree 8 epoch 20, Config.regFree 8 epoch 21, Config.regFree 8 epoch 22, Config.regFree 8 epoch 23,
    Config.regFree 8 epoch 24, Config.regFree 8 epoch 25, Config.regFree 8 epoch 26, Config.regFree 8 epoch 27,
    Config.regFree 8 epoch 28, Config.regFree 8 epoch 29, Config.regFree 8 epoch 30, Config.regFree 8 epoch 31]
  sens := Config.regFree 16 epoch 4
  selr := Config.regFree 8 epoch 5
  idlen := Config.regFree 8 epoch 6
  regval := Config.regFree 8 epoch 7
  rcount := 0
  trace := []
  readDone := false
  ret := .none
  epoch := epoch
  din := []
  draws := 0
  host := []
  hostData := none

/-- The machine right after reset, with the default configuration (R52, R260). -/
def State.reset : State := State.resetOf Config.default 0

end Sys2Proof.Machine
end

