-- ==== Sys2Proof/Machine/Operands.lean ====
section
/-! DEFINITION. Operand assembly: the command bytes each catalog operation stages in BUF from index 0 (R101, R102), and the
target ID's accumulation (R195). -/

namespace Sys2Proof.Machine

/-- GETFW: "opcode only". -/
def cmdGetfw (c : Config) : List Byte := [c.opcGetfw]

/-- SAMCFG: "mode=normal, timeout=20×50ms units, IRQ-pin flag". -/
def cmdSamcfg (c : Config) : List Byte := [c.opcSamcfg, c.samMode, c.samTimeout, c.samIrq]

/-- LISTPT: "max-targets=1, baud-rate selector". -/
def cmdListpt (c : Config) (baud : Byte) : List Byte := [c.opcListpt, c.listMaxtg, baud]

/-- AUTH: "target index, key-type selector, block address, 6-byte key, 4-byte card ID big-endian". -/
def cmdAuth (c : Config) (tg keysel blk : Byte) (key : List Byte) (cid : Word) : List Byte :=
  [c.opcDataex, tg, keysel, blk] ++ key ++ wordBytes cid

/-- RDBLK: "target index, read-opcode, block address". -/
def cmdRdblk (c : Config) (tg blk : Byte) : List Byte := [c.opcDataex, tg, c.mfRead, blk]

/-- WRBLK: "target index, write-opcode, block address, 16-byte payload". -/
def cmdWrblk (c : Config) (tg blk : Byte) (data : List Byte) : List Byte := [c.opcDataex, tg, c.mfWrite, blk] ++ data

/-- P2PINI: "active-mode flag, baud-rate selector, fixed polling-payload bytes"; the length follows P2PINI_TAIL (R200). -/
def cmdP2pini (c : Config) (baud : Byte) : List Byte := [c.opcJumpdep, c.p2pActive, baud] ++ c.p2piniTail

/-- P2PIEX: "target index=1, 16-byte outgoing payload". -/
def cmdP2piex (c : Config) (data : List Byte) : List Byte := [c.opcDataex, c.p2pTg] ++ data

/-- P2PTGT: "fixed 38-byte target-configuration template" (R210). -/
def cmdP2ptgt (c : Config) : List Byte := c.tgtTemplate.toList

/-- P2PTRS, receive leg: "none for receive leg". -/
def cmdTgget (c : Config) : List Byte := [c.opcTgget]

/-- P2PTRS, send leg: "16-byte outgoing payload for send leg". -/
def cmdTgset (c : Config) (data : List Byte) : List Byte := [c.opcTgset] ++ data

/-- RDREG: "16-bit address, big-endian". -/
def cmdRdreg (c : Config) (addr : Half) : List Byte := [c.opcRdreg] ++ halfBytes addr

/-- WRREG: "16-bit address big-endian, 1-byte value". -/
def cmdWrreg (c : Config) (addr : Half) (v : Byte) : List Byte := [c.opcWrreg] ++ halfBytes addr ++ [v]

/-- The target ID: each byte shifted in from the right, the bits past bit 31 dropped (R194, R195). -/
def idOf (bytes : List Byte) : Word := bytes.foldl shl8_32 0

end Sys2Proof.Machine
end

