-- ==== Sys2Proof/Syntax.lean ====
section
/-! DEFINITION. The instructions of the machine: the 30 operations of R90 with their operands. -/

namespace Sys2Proof

/-- An operation with its operands, in the order and widths of R90. A byte sequence of fixed length is a list whose length
`Instr.wf` checks. -/
inductive Instr where
  /-- WRBYTE v (R130). -/
  | wrbyte (v : Byte)
  /-- RDBYTE (R131). -/
  | rdbyte
  /-- ENCODE cmd, internal (R140). -/
  | encode (cmd : List Byte)
  /-- DECLEN h, five bytes, internal (R142). -/
  | declen (h : List Byte)
  /-- VALIDATE f, short, internal (R143). -/
  | validate (f : List Byte) (short : Bool)
  /-- DECODE f, internal (R144). -/
  | decode (f : List Byte)
  /-- ACKCMP a, six bytes, internal (R145). -/
  | ackcmp (a : List Byte)
  /-- SELECT, internal (R160). -/
  | select
  /-- DESELECT, internal (R161). -/
  | deselect
  /-- WRFRAME n (R162). -/
  | wrframe (n : Byte)
  /-- STATUS (R163). -/
  | status
  /-- WAITRDY (R164). -/
  | waitrdy
  /-- RDACK (R165). -/
  | rdack
  /-- RDFIX r (R166). -/
  | rdfix (r : Byte)
  /-- RDVAR (R167). -/
  | rdvar
  /-- SENDCMD n (R168). -/
  | sendcmd (n : Byte)
  /-- XCHGF n, r (R169). -/
  | xchgf (n r : Byte)
  /-- XCHGV n (R171). -/
  | xchgv (n : Byte)
  /-- GETFW (R192). -/
  | getfw
  /-- SAMCFG (R193). -/
  | samcfg
  /-- LISTPT baud (R194). -/
  | listpt (baud : Byte)
  /-- AUTH tg, keysel, blk, key (six bytes), cid (R197). -/
  | auth (tg keysel blk : Byte) (key : List Byte) (cid : Word)
  /-- RDBLK tg, blk (R198). -/
  | rdblk (tg blk : Byte)
  /-- WRBLK tg, blk, data (16 bytes) (R199). -/
  | wrblk (tg blk : Byte) (data : List Byte)
  /-- P2PINI baud (R200). -/
  | p2pini (baud : Byte)
  /-- P2PIEX data (16 bytes) (R201). -/
  | p2piex (data : List Byte)
  /-- P2PTGT (R202). -/
  | p2ptgt
  /-- P2PTRS data (16 bytes) (R203). -/
  | p2ptrs (data : List Byte)
  /-- RDREG addr (R204). -/
  | rdreg (addr : Half)
  /-- WRREG addr, val (R205). -/
  | wrreg (addr : Half) (val : Byte)
  deriving DecidableEq, Repr

end Sys2Proof
end

