-- ==== Sys2Proof/WellFormed.lean ====
section
/-! DEFINITION. Which instructions are well formed: every byte-sequence operand has the length R90 gives it. -/

namespace Sys2Proof

/-- The operand lengths of R90: a key is 6 bytes, block data 16, a header 5, an acknowledgement 6. The sequences ENCODE,
VALIDATE and DECODE take have no length of their own in R90 that the operation would not check itself (R140, R143, R144); here
they only fit the 16-bit count that precedes them in the operand record (DESIGN CHOICE, safe, log entry 8). -/
def Instr.wf : Instr → Bool
  | .encode cmd => decide (cmd.length < 65536)
  | .declen h => decide (h.length = 5)
  | .validate f _ => decide (f.length < 65536)
  | .decode f => decide (f.length < 65536)
  | .ackcmp a => decide (a.length = 6)
  | .auth _ _ _ key _ => decide (key.length = 6)
  | .wrblk _ _ data => decide (data.length = 16)
  | .p2piex data => decide (data.length = 16)
  | .p2ptrs data => decide (data.length = 16)
  | .wrbyte _ | .rdbyte | .select | .deselect | .wrframe _ | .status | .waitrdy | .rdack | .rdfix _ | .rdvar | .sendcmd _
  | .xchgf _ _ | .xchgv _ | .getfw | .samcfg | .listpt _ | .rdblk _ _ | .p2pini _ | .p2ptgt | .rdreg _ | .wrreg _ _ => true

end Sys2Proof
end

