-- ==== Sys2Proof/Decode.lean ====
section
/-! DEFINITION. The host port's encoding of a START: the OPSEL byte of R90, then the operands of R90 in its order, a
multi-byte quantity most significant byte first (R68). The selector values are the spec's (R91). How the operands lie on the
port is the model's DESIGN CHOICE (unsafe only for a claim about the port's bytes themselves, log entry 8). -/

namespace Sys2Proof

/-- Reads one byte of an operand record. -/
def takeByte {α : Type} (bs : List Byte) (k : Byte → List Byte → Option α) : Option α :=
  match bs with
  | [] => none
  | b :: rest => k b rest

/-- Reads `n` bytes of an operand record. -/
def takeBytes {α : Type} (n : Nat) (bs : List Byte) (k : List Byte → List Byte → Option α) : Option α :=
  if n ≤ bs.length then k (bs.take n) (bs.drop n) else none

/-- Reads a 16-bit operand. -/
def takeHalf {α : Type} (bs : List Byte) (k : Half → List Byte → Option α) : Option α :=
  takeByte bs fun a bs => takeByte bs fun b bs => k (be16 a b) bs

/-- Reads a 32-bit operand. -/
def takeWord {α : Type} (bs : List Byte) (k : Word → List Byte → Option α) : Option α :=
  takeByte bs fun a bs => takeByte bs fun b bs => takeByte bs fun c bs => takeByte bs fun d bs => k (be32 a b c d) bs

/-- Reads a byte sequence preceded by its 16-bit length. -/
def takeSeq {α : Type} (bs : List Byte) (k : List Byte → List Byte → Option α) : Option α :=
  takeHalf bs fun n bs => takeBytes n.toNat bs k

/-- Reads a one-bit operand: a byte 0 or 1. -/
def takeBit {α : Type} (bs : List Byte) (k : Bool → List Byte → Option α) : Option α :=
  takeByte bs fun b bs => if b = 0 then k false bs else if b = 1 then k true bs else none

/-- The operands of an operation from its operand record (R90), with what is left of the record. -/
def decodeOperands (n : OpName) (bs : List Byte) : Option (Instr × List Byte) :=
  match n with
  | .wrbyte => takeByte bs fun v bs => some (.wrbyte v, bs)
  | .rdbyte => some (.rdbyte, bs)
  | .encode => takeSeq bs fun cmd bs => some (.encode cmd, bs)
  | .declen => takeBytes 5 bs fun h bs => some (.declen h, bs)
  | .validate => takeSeq bs fun f bs => takeBit bs fun short bs => some (.validate f short, bs)
  | .decode => takeSeq bs fun f bs => some (.decode f, bs)
  | .ackcmp => takeBytes 6 bs fun a bs => some (.ackcmp a, bs)
  | .select => some (.select, bs)
  | .deselect => some (.deselect, bs)
  | .wrframe => takeByte bs fun n bs => some (.wrframe n, bs)
  | .status => some (.status, bs)
  | .waitrdy => some (.waitrdy, bs)
  | .rdack => some (.rdack, bs)
  | .rdfix => takeByte bs fun r bs => some (.rdfix r, bs)
  | .rdvar => some (.rdvar, bs)
  | .sendcmd => takeByte bs fun n bs => some (.sendcmd n, bs)
  | .xchgf => takeByte bs fun n bs => takeByte bs fun r bs => some (.xchgf n r, bs)
  | .xchgv => takeByte bs fun n bs => some (.xchgv n, bs)
  | .getfw => some (.getfw, bs)
  | .samcfg => some (.samcfg, bs)
  | .listpt => takeByte bs fun baud bs => some (.listpt baud, bs)
  | .auth => takeByte bs fun tg bs => takeByte bs fun keysel bs => takeByte bs fun blk bs =>
      takeBytes 6 bs fun key bs => takeWord bs fun cid bs => some (.auth tg keysel blk key cid, bs)
  | .rdblk => takeByte bs fun tg bs => takeByte bs fun blk bs => some (.rdblk tg blk, bs)
  | .wrblk => takeByte bs fun tg bs => takeByte bs fun blk bs => takeBytes 16 bs fun data bs =>
      some (.wrblk tg blk data, bs)
  | .p2pini => takeByte bs fun baud bs => some (.p2pini baud, bs)
  | .p2piex => takeBytes 16 bs fun data bs => some (.p2piex data, bs)
  | .p2ptgt => some (.p2ptgt, bs)
  | .p2ptrs => takeBytes 16 bs fun data bs => some (.p2ptrs data, bs)
  | .rdreg => takeHalf bs fun addr bs => some (.rdreg addr, bs)
  | .wrreg => takeHalf bs fun addr bs => takeByte bs fun v bs => some (.wrreg addr v, bs)

/-- What a START's bytes name. -/
inductive DecodeResult where
  /-- An operation with its operands, and the bytes after them. -/
  | op (i : Instr) (rest : List Byte)
  /-- A reserved OPSEL: it names none of the 30 operations (R105). -/
  | reserved (opsel : Byte)
  /-- The bytes after the OPSEL of `n` are no operand record of `n`: too few, or a one-bit operand that is neither 0 nor 1. -/
  | malformed (n : OpName)
  /-- No OPSEL byte at all. -/
  | nothing
  deriving DecidableEq, Repr

/-- The decoder: OPSEL and operands to an instruction, total on any bytes. -/
def decode (bs : List Byte) : DecodeResult :=
  match bs with
  | [] => .nothing
  | b :: rest =>
    match OpName.ofOpsel b with
    | none => .reserved b
    | some n =>
      match decodeOperands n rest with
      | none => .malformed n
      | some (i, rest) => .op i rest

/-- The operation an instruction is. -/
def Instr.name : Instr → OpName
  | .wrbyte _ => .wrbyte
  | .rdbyte => .rdbyte
  | .encode _ => .encode
  | .declen _ => .declen
  | .validate _ _ => .validate
  | .decode _ => .decode
  | .ackcmp _ => .ackcmp
  | .select => .select
  | .deselect => .deselect
  | .wrframe _ => .wrframe
  | .status => .status
  | .waitrdy => .waitrdy
  | .rdack => .rdack
  | .rdfix _ => .rdfix
  | .rdvar => .rdvar
  | .sendcmd _ => .sendcmd
  | .xchgf _ _ => .xchgf
  | .xchgv _ => .xchgv
  | .getfw => .getfw
  | .samcfg => .samcfg
  | .listpt _ => .listpt
  | .auth _ _ _ _ _ => .auth
  | .rdblk _ _ => .rdblk
  | .wrblk _ _ _ => .wrblk
  | .p2pini _ => .p2pini
  | .p2piex _ => .p2piex
  | .p2ptgt => .p2ptgt
  | .p2ptrs _ => .p2ptrs
  | .rdreg _ => .rdreg
  | .wrreg _ _ => .wrreg

/-- A byte sequence with its 16-bit length before it. -/
def putSeq (s : List Byte) : List Byte := halfBytes (BitVec.ofNat 16 s.length) ++ s

/-- The operand record of an instruction, as it stands on the host port and is latched into ARGS (R28, R30). -/
def Instr.operandBytes : Instr → List Byte
  | .wrbyte v => [v]
  | .encode cmd => putSeq cmd
  | .declen h => h
  | .validate f short => putSeq f ++ [if short then 1 else 0]
  | .decode f => putSeq f
  | .ackcmp a => a
  | .wrframe n => [n]
  | .rdfix r => [r]
  | .sendcmd n => [n]
  | .xchgf n r => [n, r]
  | .xchgv n => [n]
  | .listpt baud => [baud]
  | .auth tg keysel blk key cid => [tg, keysel, blk] ++ key ++ wordBytes cid
  | .rdblk tg blk => [tg, blk]
  | .wrblk tg blk data => [tg, blk] ++ data
  | .p2pini baud => [baud]
  | .p2piex data => data
  | .p2ptrs data => data
  | .rdreg addr => halfBytes addr
  | .wrreg addr v => halfBytes addr ++ [v]
  | .rdbyte | .select | .deselect | .status | .waitrdy | .rdack | .rdvar | .getfw | .samcfg | .p2ptgt => []

/-- The encoder: OPSEL (R90), then the operand record. -/
def encode (i : Instr) : List Byte := i.name.opsel :: i.operandBytes

/-- The most bytes an instruction of fixed length takes: WRBLK, OPSEL and 18 operand bytes. -/
def maxFixedLength : Nat := 19

/-- The bytes of an instruction whose bits are `w`, numbered as spec/opcode_table.json numbers them: OPSEL is bits 7..0, the
next byte bits 15..8, and so on; above `nbits` every bit is 0. -/
def tableBytes (nbits w : Nat) : List Byte :=
  (List.range (nbits / 8)).map (fun k => BitVec.ofNat 8 (w / 256 ^ k)) ++ List.replicate maxFixedLength 0

/-- What the decoder reads from an instruction whose bits are `w` (R91). -/
def decodeTableWord (nbits w : Nat) : Option Instr :=
  match decode (tableBytes nbits w) with
  | .op i _ => some i
  | .reserved _ => none
  | .malformed _ => none
  | .nothing => none

end Sys2Proof
end

