-- ==== Sys2Proof/Machine/Flags.lean ====
section
/-! DEFINITION. The tests and codes of the machine: error codes and their recorded detail (R231), the mode bits (R40, R41),
the checksums (R95, R141), the header layouts (R99, R142), frame validation (R143), acknowledgement comparison (R145). -/

namespace Sys2Proof.Machine

/-- The reasons of ResponseMismatch, ERRINFO 1 to 5 (R231). -/
inductive MismatchReason where
  | badHeader | badLength | badChecksum | tooLong | badSignature
  deriving DecidableEq, Repr

/-- The reasons of Refused, ERRINFO 1 to 4 (R231). -/
inductive RefusedReason where
  | badOpsel | notStartable | badOperand | bufIndex
  deriving DecidableEq, Repr

/-- What `raise` carries: an error kind with its detail (R230, R231). -/
inductive Raise where
  /-- Timeout(stage): 1 or 2 inside an exchange, 0 when WAITRDY was started alone (R232). -/
  | timeout (stage : Byte)
  /-- AckMismatch(j): the least index at which ACKR differs from ACK (R233). -/
  | ackMismatch (j : Nat)
  /-- ResponseMismatch (R234). -/
  | responseMismatch (r : MismatchReason)
  /-- OperationRejected: the byte that failed its test (R235). -/
  | operationRejected (b : Byte)
  /-- Refused (R236). -/
  | refused (r : RefusedReason)
  deriving DecidableEq, Repr

/-- ERRINFO of a ResponseMismatch (R231). -/
def MismatchReason.code : MismatchReason → Byte
  | .badHeader => 1
  | .badLength => 2
  | .badChecksum => 3
  | .tooLong => 4
  | .badSignature => 5

/-- ERRINFO of a Refused (R231). -/
def RefusedReason.code : RefusedReason → Byte
  | .badOpsel => 1
  | .notStartable => 2
  | .badOperand => 3
  | .bufIndex => 4

/-- ERR of an error (R231). -/
def Raise.code : Raise → ErrCode
  | .timeout _ => .timeout
  | .ackMismatch _ => .ackMismatch
  | .responseMismatch _ => .responseMismatch
  | .operationRejected _ => .operationRejected
  | .refused _ => .refused

/-- ERRINFO of an error (R231). -/
def Raise.info : Raise → Byte
  | .timeout stage => stage
  | .ackMismatch j => BitVec.ofNat 8 j
  | .responseMismatch r => r.code
  | .operationRejected b => b
  | .refused r => r.code

/-- The number of an error code as the HOST reads it (R32). -/
def ErrCode.number : ErrCode → Nat
  | .none => 0
  | .timeout => 1
  | .ackMismatch => 2
  | .responseMismatch => 3
  | .operationRejected => 4
  | .refused => 5

/-- The number of a transport state as the HOST reads it (R29). -/
def TState.number : TState → Nat
  | .idle => 0
  | .selecting => 1
  | .awaitingReady1 => 2
  | .ackRead => 3
  | .awaitingReady2 => 4
  | .responseRead => 5
  | .success => 6
  | .timedOut => 7
  | .failed => 8

/-- An exchange is in flight: the states the failure exit moves on from (R240). -/
def TState.inFlight : TState → Bool
  | .selecting | .awaitingReady1 | .ackRead | .awaitingReady2 | .responseRead => true
  | .idle | .success | .timedOut | .failed => false

/-- QUIRK, MODE bit 0 (R40). -/
def State.quirk (s : State) : Bool := s.mode.getLsbD 0

/-- STRICT, MODE bit 1 (R41). -/
def State.strict (s : State) : Bool := s.mode.getLsbD 1

/-- What MODE holds after a write of `v`: bits 7:2 are ignored and read 0 (R39). -/
def modeWritten (v : Byte) : Byte := v &&& 0x03

/-- Whether ENCODE accepts a command of this length: "n = 0 or n > 254 raises Refused(BadOperand)" (R140). -/
def encodable (cmd : List Byte) : Bool := decide (1 ≤ cmd.length ∧ cmd.length ≤ 254)

/-- LEN of a command: its bytes and the direction byte (R94, R140). -/
def lenOf (cmd : List Byte) : Byte := BitVec.ofNat 8 (cmd.length + 1)

/-- DCS of a command, from the invariant of R95 (R140, C1). -/
def dcsOf (cfg : Config) (cmd : List Byte) : Byte := neg8 (sum8 (cfg.dirH2C :: cmd))

/-- The frame ENCODE returns (R93, R140): n + 8 bytes. -/
def frameOf (cfg : Config) (cmd : List Byte) : List Byte :=
  [cfg.pre, cfg.pre, cfg.start, lenOf cmd, neg8 (lenOf cmd), cfg.dirH2C] ++ cmd ++ [dcsOf cfg cmd, cfg.post]

/-- CKS when ENCODE ends: the seed PRE + PRE + START, the direction byte, every command byte (R141). -/
def runningChecksum (cfg : Config) (cmd : List Byte) : Byte :=
  cmd.foldl (fun c b => c + b) (cfg.pre + cfg.pre + cfg.start + cfg.dirH2C)

/-- `full` of R142: the first three bytes are PRE, PRE, START. -/
def fullHeader (cfg : Config) (h : List Byte) : Bool :=
  byteAt h 0 == cfg.pre && byteAt h 1 == cfg.pre && byteAt h 2 == cfg.start

/-- `short` of R142: the first two bytes are PRE, START. -/
def shortHeader (cfg : Config) (h : List Byte) : Bool :=
  byteAt h 0 == cfg.pre && byteAt h 1 == cfg.start

/-- VALIDATE (R143): the length checksum and the data checksum of a frame in the layout `short` names. -/
def validFrame (f : List Byte) (short : Bool) : Bool :=
  let b := if short then 2 else 3
  let len := byteAt f b
  if f.length < b + 3 then false
  else if len = 0 then false
  else if f.length < b + 3 + len.toNat then false
  else (len + byteAt f (b + 1) == 0) && (sum8 (slice f (b + 2) (len.toNat + 1)) == 0)

/-- DECODE (R144): the direction byte, the opcode and the parameters of one whole frame in the full layout. -/
def decodeFrame (cfg : Config) (f : List Byte) : Except MismatchReason (Byte × Byte × List Byte) :=
  let len := (byteAt f 3).toNat
  if f.length < 9 then .error .badHeader
  else if ¬ fullHeader cfg f then .error .badHeader
  else if len < 2 ∨ f.length ≠ len + 7 then .error .badLength
  else if ¬ validFrame f false then .error .badChecksum
  else if byteAt f (6 + len) ≠ cfg.post then .error .badHeader
  else .ok (byteAt f 5, byteAt f 6, slice f 7 (len - 2))

/-- The least index at which two byte sequences differ, if they do; a sequence that ends first differs there (R165, R231). -/
def firstDiff : List Byte → List Byte → Option Nat
  | [], [] => none
  | [], _ :: _ => some 0
  | _ :: _, [] => some 0
  | a :: as, b :: bs => if a = b then (firstDiff as bs).map (· + 1) else some 0

/-- ACKCMP (R145): all six bytes equal ACK. -/
def ackMatches (cfg : Config) (a : List Byte) : Bool := decide (a = cfg.ack.toList)

end Sys2Proof.Machine
end

