-- ==== Sys2Proof/Machine/Ops.lean ====
section
/-! DEFINITION. The named operations over the state that every instruction shares: the pseudocode primitives of R15 (lines,
sample, wait, BUF), the way an operation runs on (`Run`), the START latch (R28), the failure exit every `raise` takes (R240) and
the success exit (R241). -/

namespace Sys2Proof.Machine

/-! ### The lines (R15, R21) -/

/-- HIST: "the ordered list of events appended by the primitives of rule R15 since reset", oldest first (R16). -/
def State.hist (s : State) : List Event := s.trace.reverse

/-- `CLK <- b` with its event. -/
def driveClk (b : Bool) (s : State) : State := { s with clk := b, trace := .clk b :: s.trace }

/-- `DOUT <- b` with its event. -/
def driveDout (b : Bool) (s : State) : State := { s with dout := b, trace := .dout b :: s.trace }

/-- `SEL <- b` with its event. -/
def driveSel (b : Bool) (s : State) : State := { s with sel := b, trace := .sel b :: s.trace }

/-- `wait(n)`: the event, and nothing else changes (R15, R245). -/
def waitUnits (n : Nat) (s : State) : State := { s with trace := .wait n :: s.trace }

/-- The bit the CHIP presents at the k-th sample from now: a draw, given by the chip script while it lasts and by the free
value after it (R50, R75, log entry 2). -/
def State.dinBit (s : State) (k : Nat) : Bool :=
  match s.din[k]? with
  | some b => b
  | none => Config.chipBit (s.draws + (k - s.din.length))

/-- The state after `k` samples have been taken, as far as the CHIP's input goes. -/
def State.afterBits (s : State) (k : Nat) : State :=
  { s with din := s.din.drop k, draws := s.draws + (k - s.din.length) }

/-- `sample(DIN)`: its event; the value is `s.dinBit 0` (R15). -/
def takeSample (s : State) : State :=
  { s.afterBits 1 with trace := .sample (s.dinBit 0) :: s.trace }

/-! ### The scratch buffer (R60 to R62, R82) -/

/-- The byte last written at an index of BUF since reset, if any was. -/
def Memory.get (m : Memory) (i : Nat) : Option Byte :=
  match m with
  | [] => none
  | (a, v) :: rest => if a = i then some v else Memory.get rest i

/-- A byte written at an index of BUF, the list kept sorted. -/
def Memory.put (m : Memory) (i : Nat) (v : Byte) : Memory :=
  match m with
  | [] => [(i, v)]
  | (a, w) :: rest =>
    if i < a then (i, v) :: (a, w) :: rest
    else if i = a then (i, v) :: rest
    else (a, w) :: Memory.put rest i v

/-- The canonical form of BUF: indexes strictly rising. Every listed index holds a written byte, which an unlisted one never
does, so no entry equals what an unlisted index reads as (log entry 5). -/
abbrev Memory.wf (m : Memory) : Prop := m.Pairwise fun x y => x.1 < y.1

/-- `BUF[i]`, a read: a byte never written since reset is a draw (R62, log entry 4). -/
def State.bufByte (s : State) (i : Nat) : Byte :=
  match Memory.get s.buf i with
  | some v => v
  | none => Config.bufFree s.epoch i

/-- `BUF[addr .. addr+n−1]`, a read. -/
def State.bufBytes (s : State) (addr n : Nat) : List Byte := (List.range n).map fun k => s.bufByte (addr + k)

/-- The bytes of a sequence written to BUF from `addr` on. -/
def State.putBytes (s : State) (addr : Nat) (bytes : List Byte) : State :=
  match bytes with
  | [] => s
  | b :: rest => State.putBytes { s with buf := Memory.put s.buf addr b } (addr + 1) rest

/-! ### Running an operation -/

/-- How the pseudocode of an operation ends: it reaches its end, or it raises an error (R15 `raise`). -/
inductive Run where
  | done (s : State)
  | raised (e : Raise) (s : State)
  deriving DecidableEq, Repr

/-- The next line of the pseudocode: it runs only if nothing was raised (R15, R239). -/
def Run.andThen (r : Run) (k : State → Run) : Run :=
  match r with
  | .done s => k s
  | .raised e s => .raised e s

/-- The state a run ends in, whichever way. -/
def Run.state : Run → State
  | .done s => s
  | .raised _ s => s

/-- An access to BUF below index `hi`: refused at or beyond BUFSZ, and then not performed (R15, R82). -/
def needBuf (hi : Nat) (s : State) (k : State → Run) : Run :=
  if hi ≤ s.cfg.bufsz then k s else .raised (.refused .bufIndex) s

/-- `MemWrite(addr, n, v)` (R15). -/
def memWrite (addr : Nat) (bytes : List Byte) (s : State) : Run :=
  needBuf (addr + bytes.length) s fun s => .done (s.putBytes addr bytes)

/-! ### Errors and exits (R240, R241) -/

/-- The failure exit: what `raise` does, whichever operation is running. `top` is the top-level operation, none when the host
port refuses a request before any operation has started (R240). -/
def failExitOf (top : Option OpName) (e : Raise) (s : State) : State :=
  let s1 := if s.sel then driveSel false s else s
  let s2 := { s1 with ok := false, err := e.code, errinfo := e.info }
  let s3 := if top = some .getfw ∨ top = some .listpt then { s2 with res32 := 0 } else s2
  let s4 := if s3.readDone then s3 else { s3 with rcount := 0 }
  let s5 :=
    if s4.tstate.inFlight then { s4 with tstate := if e.code = .timeout then .timedOut else .failed } else s4
  { s5 with busy := false }

/-- The failure exit of the running operation, which register OP names (R28, R240). -/
def failExit (e : Raise) (s : State) : State := failExitOf s.op e s

/-- The success exit of an operation the HOST started (R241). -/
def successExit (s : State) : State := { s with ok := true, err := .none, errinfo := 0, busy := false }

/-- What START latches: BUSY, OP and ARGS (R28); no read has completed in this operation yet (R240). -/
def latch (i : Instr) (s : State) : State :=
  { s with busy := true, op := some i.name, args := i.operandBytes, readDone := false }

/-- An operation the HOST started, run to its end (R28, R73): the latch, the operation's pseudocode, one of the two exits. A
START while BUSY = 1 has no effect on any state (R28). -/
def runStarted (i : Instr) (body : State → Run) (s : State) : State :=
  if s.busy then s
  else
    match body (latch i s) with
    | .done t => successExit t
    | .raised e t => failExit e t

/-- An internal operation, run as a step of the operation OP names: it has no exit of its own and writes neither OK nor ERR;
an error raised in it ends the running operation (R15, R241). -/
def runCalled (body : State → Run) (s : State) : State :=
  match body s with
  | .done t => t
  | .raised e t => failExit e t

/-- The host port refuses a request before any operation has started: the failure exit, with no top-level operation and no read
completed in one (R105, R231, R240; log entry 13). -/
def refuseRequest (r : RefusedReason) (s : State) : State :=
  failExitOf none (.refused r) { s with readDone := false }

end Sys2Proof.Machine
end

