-- ==== Sys2Proof/Machine/BitLink.lean ====
section
/-! DEFINITION. The Bit Link: one byte out, one byte in, least-significant bit first (R130 to R136). -/

namespace Sys2Proof.Machine

/-- One cell of WRBYTE: CLK low, the bit on DOUT, CLK high (R130). -/
def writeCell (s : State) (i : Nat) : State :=
  { driveClk true (driveDout (s.shr.getLsbD i) (driveClk false s)) with bcnt := i + 1 }

/-- The pseudocode of WRBYTE (R130). -/
def wrbyte (v : Byte) (s : State) : State :=
  (List.range 8).foldl writeCell { s with shr := v, bcnt := 0 }

/-- `SHR[i] <- sample(DIN)`. -/
def sampleInto (i : Nat) (s : State) : State := { takeSample s with shr := setBit s.shr i (s.dinBit 0) }

/-- One cell of RDBYTE: the sample, CLK low, CLK high (R131); with RD_SAMPLE_AFTER_FALL the sample is taken between the two edges
(D7). -/
def readCell (s : State) (i : Nat) : State :=
  if s.cfg.rdSampleAfterFall then { driveClk true (sampleInto i (driveClk false s)) with bcnt := i + 1 }
  else { driveClk true (driveClk false (sampleInto i s)) with bcnt := i + 1 }

/-- The pseudocode of RDBYTE; its result is in SHR (R131). -/
def rdbyte (s : State) : State :=
  (List.range 8).foldl readCell { s with shr := 0, bcnt := 0 }

/-- WRBYTE v (R130). -/
def execWrbyte (v : Byte) (s : State) : Host.Outcome State Fault Refusal :=
  .next (runStarted (.wrbyte v) (fun s => .done (wrbyte v s)) s)

/-- RDBYTE (R131). -/
def execRdbyte (s : State) : Host.Outcome State Fault Refusal :=
  .next (runStarted .rdbyte (fun s => .done (rdbyte s)) s)

end Sys2Proof.Machine
end

