-- ==== Sys2Proof/Machine/FrameCodec.lean ====
section
/-! DEFINITION. The Frame Codec: five internal operations that touch no line (R140 to R148). -/

namespace Sys2Proof.Machine

/-- The pseudocode of ENCODE, as its caller runs it: the frame goes to `k`, CKS holds the running checksum (R140, R141). -/
def encodeThen (cmd : List Byte) (s : State) (k : List Byte → State → Run) : Run :=
  if encodable cmd then k (frameOf s.cfg cmd) { s with cks := runningChecksum s.cfg cmd }
  else .raised (.refused .badOperand) s

/-- The pseudocode of DECLEN; its result is in TLEN and SHORT (R142). -/
def declen (h : List Byte) (s : State) : Run :=
  if fullHeader s.cfg h then .done { s with short := false, tlen := 5 + (byteAt h 3).toNat + 2 }
  else if shortHeader s.cfg h ∧ s.quirk then .done { s with short := true, tlen := 5 + (byteAt h 2).toNat + 2 }
  else .raised (.responseMismatch .badHeader) s

/-- The pseudocode of DECODE; its three results go to the caller (R144). -/
def decodeStep (f : List Byte) (s : State) : Run :=
  match decodeFrame s.cfg f with
  | .ok (dir, opcode, params) => .done { s with ret := .decoded dir opcode params }
  | .error r => .raised (.responseMismatch r) s

/-- ENCODE cmd (R140). -/
def execEncode (cmd : List Byte) (s : State) : Host.Outcome State Fault Refusal :=
  .next (runCalled (fun s => encodeThen cmd s fun f s => .done { s with ret := .frame f }) s)

/-- DECLEN h (R142). -/
def execDeclen (h : List Byte) (s : State) : Host.Outcome State Fault Refusal :=
  .next (runCalled (declen h) s)

/-- VALIDATE f, short (R143): "it returns a bit". -/
def execValidate (f : List Byte) (short : Bool) (s : State) : Host.Outcome State Fault Refusal :=
  .next (runCalled (fun s => .done { s with ret := .bit (validFrame f short) }) s)

/-- DECODE f (R144). -/
def execDecode (f : List Byte) (s : State) : Host.Outcome State Fault Refusal :=
  .next (runCalled (decodeStep f) s)

/-- ACKCMP a (R145): "it returns a bit". -/
def execAckcmp (a : List Byte) (s : State) : Host.Outcome State Fault Refusal :=
  .next (runCalled (fun s => .done { s with ret := .bit (ackMatches s.cfg a) }) s)

end Sys2Proof.Machine
end

