-- ==== Sys2Proof/Machine/Transport.lean ====
section
/-! DEFINITION. The Transport Session: select and deselect, the transactions, and the exchange (R160 to R175). -/

namespace Sys2Proof.Machine

/-- The pseudocode of SELECT (R160). -/
def select (s : State) : State := waitUnits s.cfg.settle (driveSel true s)

/-- The pseudocode of DESELECT (R161). -/
def deselect (s : State) : State := driveSel false s

/-- The frame bytes of WRFRAME from index `k` on, each with IDX set before it (R162). -/
def sendBytes (frame : List Byte) (k : Nat) (s : State) : State :=
  match frame with
  | [] => s
  | b :: rest => sendBytes rest (k + 1) (wrbyte b { s with idx := k })

/-- `n < 1 or n > CMDMAX`: the length a command may not have (R103, R162). -/
def badCommandLength (n : Nat) (s : State) : Bool := decide (n < 1 ∨ n > s.cfg.cmdmax)

/-- The pseudocode of WRFRAME n (R162). -/
def wrframe (n : Nat) (s : State) : Run :=
  if badCommandLength n s then .raised (.refused .badOperand) s
  else
    needBuf n s fun s =>
      encodeThen (s.bufBytes 0 n) s fun frame s =>
        .done (deselect (sendBytes frame 0 (wrbyte s.cfg.spiDW (select s))))

/-- The pseudocode of STATUS (R163). -/
def status (s : State) : State :=
  let t := rdbyte (wrbyte s.cfg.spiSR (select s))
  deselect { t with stat := t.shr }

/-- The loop of WAITRDY (R164), at most `polls` polls. ⌊BUDGET / POLL_INTERVAL⌋ + 1 of them always reach one of the two ends
shown, since the charge then exceeds BUDGET; a POLL_INTERVAL of 0, which Config.Ok excludes, ends as a Timeout when they are used
up (DESIGN CHOICE, unsafe for such a configuration only, log entry 16). -/
def waitLoop (stage : Byte) (polls : Nat) (s : State) : Run :=
  match polls with
  | 0 => .raised (.timeout stage) s
  | k + 1 =>
    let t := status s
    if t.stat = t.cfg.ready then .done t
    else
      let u := { t with elapsed := t.elapsed + t.cfg.pollInterval }
      if u.elapsed > u.budget.toNat then .raised (.timeout stage) u
      else waitLoop stage k (waitUnits u.cfg.pollInterval u)

/-- The pseudocode of WAITRDY: stage 1 or 2 inside an exchange, 0 when started alone (R164, R231). -/
def waitrdy (stage : Byte) (s : State) : Run :=
  waitLoop stage (s.budget.toNat / s.cfg.pollInterval + 1) { s with elapsed := 0 }

/-- `ACKR[i] <- call RDBYTE` (R165). -/
def readAckByte (s : State) (i : Nat) : State :=
  let t := rdbyte s
  { t with ackr := t.ackr.setIfInBounds i t.shr }

/-- The comparison of RDACK: `if call ACKCMP(ACKR) == 0: raise AckMismatch(j)`, j the least index that differs (R165). -/
def checkAck (s : State) : Run :=
  match firstDiff s.ackr.toList s.cfg.ack.toList with
  | none => .done s
  | some j => .raised (.ackMismatch j) s

/-- The pseudocode of RDACK (R165). -/
def rdack (s : State) : Run :=
  checkAck (deselect ((List.range 6).foldl readAckByte (wrbyte s.cfg.spiDR (select s))))

/-- `BUF[i] <- call RDBYTE` for `n` indexes from `i` on; with `track` each sets IDX first (R166, R167). -/
def readInto (track : Bool) (n i : Nat) (s : State) : Run :=
  match n with
  | 0 => .done s
  | k + 1 =>
    let t := rdbyte (if track then { s with idx := i } else s)
    (memWrite i [t.shr] t).andThen (readInto track k (i + 1))

/-- A read has completed: RCOUNT holds its count (R48, R240). -/
def completeRead (n : Nat) (s : State) : State := { s with rcount := n, readDone := true }

/-- The pseudocode of RDFIX r (R166). -/
def rdfix (r : Nat) (s : State) : Run :=
  if r > s.cfg.bufsz then .raised (.refused .badOperand) s
  else
    (readInto true r 0 (wrbyte s.cfg.spiDR (select s))).andThen fun s => .done (completeRead r (deselect s))

/-- The last lines of RDVAR: deselect, the STRICT check, RCOUNT (R167). -/
def rdvarEnd (s : State) : Run :=
  let t := deselect s
  if t.strict ∧ ¬ validFrame (t.bufBytes 0 t.tlen) t.short then .raised (.responseMismatch .badChecksum) t
  else .done (completeRead t.tlen t)

/-- The pseudocode of RDVAR (R167). -/
def rdvar (s : State) : Run :=
  (readInto false 5 0 (wrbyte s.cfg.spiDR (select s))).andThen fun s =>
    (declen (s.bufBytes 0 5) s).andThen fun s =>
      if s.tlen > s.cfg.bufsz then .raised (.responseMismatch .tooLong) s
      else (readInto true (s.tlen - 5) 5 s).andThen rdvarEnd

/-- `TSTATE <- t` (R15, R170). -/
def setTState (t : TState) (s : State) : State := { s with tstate := t }

/-- The pseudocode of SENDCMD n up to the end of its second wait; TSTATE is then AwaitingReady2 (R168).
DEDUCED, unsafe: a Refused(BadOperand) is raised before `TSTATE <- Selecting` and leaves TSTATE as it was, as the pseudocode, R240 and
R170 have it, although R168's *Errors* has every error set TSTATE to TimedOut or Failed (log entry 29). -/
def sendcmd (n : Nat) (s : State) : Run :=
  if badCommandLength n s then .raised (.refused .badOperand) s
  else
    (wrframe n (setTState .selecting s)).andThen fun s =>
      (waitrdy 1 (setTState .awaitingReady1 s)).andThen fun s =>
        (rdack (setTState .ackRead s)).andThen fun s =>
          waitrdy 2 (setTState .awaitingReady2 s)

/-- SENDCMD with nothing to follow it: TSTATE ends as Success (R168, R170, R205). -/
def sendcmdAlone (n : Nat) (s : State) : Run :=
  (sendcmd n s).andThen fun s => .done (setTState .success s)

/-- The pseudocode of XCHGF n, r (R169); a Refused(BadOperand) leaves TSTATE as it was (log entry 29). -/
def xchgf (n r : Nat) (s : State) : Run :=
  if badCommandLength n s ∨ r > s.cfg.bufsz then .raised (.refused .badOperand) s
  else
    (sendcmd n s).andThen fun s =>
      (rdfix r (setTState .responseRead s)).andThen fun s => .done (setTState .success s)

/-- The pseudocode of XCHGV n (R171); a Refused(BadOperand) leaves TSTATE as it was (log entry 29). -/
def xchgv (n : Nat) (s : State) : Run :=
  if badCommandLength n s then .raised (.refused .badOperand) s
  else
    (sendcmd n s).andThen fun s =>
      (rdvar (setTState .responseRead s)).andThen fun s => .done (setTState .success s)

/-- SELECT (R160). -/
def execSelect (s : State) : Host.Outcome State Fault Refusal :=
  .next (runCalled (fun s => .done (select s)) s)

/-- DESELECT (R161). -/
def execDeselect (s : State) : Host.Outcome State Fault Refusal :=
  .next (runCalled (fun s => .done (deselect s)) s)

/-- WRFRAME n (R162). -/
def execWrframe (n : Byte) (s : State) : Host.Outcome State Fault Refusal :=
  .next (runStarted (.wrframe n) (wrframe n.toNat) s)

/-- STATUS (R163). -/
def execStatus (s : State) : Host.Outcome State Fault Refusal :=
  .next (runStarted .status (fun s => .done (status s)) s)

/-- WAITRDY, started alone: stage 0 (R164). -/
def execWaitrdy (s : State) : Host.Outcome State Fault Refusal :=
  .next (runStarted .waitrdy (waitrdy 0) s)

/-- RDACK (R165). -/
def execRdack (s : State) : Host.Outcome State Fault Refusal :=
  .next (runStarted .rdack rdack s)

/-- RDFIX r (R166). -/
def execRdfix (r : Byte) (s : State) : Host.Outcome State Fault Refusal :=
  .next (runStarted (.rdfix r) (rdfix r.toNat) s)

/-- RDVAR (R167). -/
def execRdvar (s : State) : Host.Outcome State Fault Refusal :=
  .next (runStarted .rdvar rdvar s)

/-- SENDCMD n, started by the HOST (R168). -/
def execSendcmd (n : Byte) (s : State) : Host.Outcome State Fault Refusal :=
  .next (runStarted (.sendcmd n) (sendcmdAlone n.toNat) s)

/-- XCHGF n, r (R169). -/
def execXchgf (n r : Byte) (s : State) : Host.Outcome State Fault Refusal :=
  .next (runStarted (.xchgf n r) (xchgf n.toNat r.toNat) s)

/-- XCHGV n (R171). -/
def execXchgv (n : Byte) (s : State) : Host.Outcome State Fault Refusal :=
  .next (runStarted (.xchgv n) (xchgv n.toNat) s)

end Sys2Proof.Machine
end

