-- ==== Sys2Proof/Machine/Catalog.lean ====
section
/-! DEFINITION. The Command Catalog: build the command in BUF, exchange, decode at fixed offsets (R190 to R210). -/

namespace Sys2Proof.Machine

/-- The build step and the exchange of R190: the command staged from BUF[0], then XCHGF(n, RLEN). -/
def exchange (cmd : List Byte) (rlen : Nat) (s : State) : Run :=
  (memWrite 0 cmd s).andThen (xchgf cmd.length rlen)

/-- A decode test: `if BUF[i] != v: raise OperationRejected(BUF[i])` (R208). -/
def expectByte (i : Nat) (v : Byte) (s : State) : Run :=
  needBuf (i + 1) s fun s => if s.bufByte i = v then .done s else .raised (.operationRejected (s.bufByte i)) s

/-- `for i = 0 .. 15: OUTBLK[i] <- BUF[8 + i]` (R198, R201, R203). -/
def copyBlock (s : State) : Run :=
  needBuf 24 s fun s => .done { s with outblk := Vector.ofFn fun i => s.bufByte (8 + i.val) }

/-- The tests of AUTH, RDBLK and WRBLK: byte 6 the exchange echo, then byte 7 zero (R197 to R199). -/
def expectExchangeEcho (s : State) : Run :=
  (expectByte 6 s.cfg.echoDataex s).andThen (expectByte 7 0)

/-- The decode step of GETFW (R192). -/
def decodeGetfw (s : State) : Run :=
  needBuf 10 s fun s =>
    if s.bufBytes 0 6 = s.cfg.fwsig.toList then
      .done { s with res32 := be32 (s.bufByte 6) (s.bufByte 7) (s.bufByte 8) (s.bufByte 9) }
    else .raised (.responseMismatch .badSignature) s

/-- The results of LISTPT, once its tests have passed (R194, R195). -/
def listptResults (s : State) : State :=
  { s with
    sens := be16 (s.bufByte 9) (s.bufByte 10)
    selr := s.bufByte 11
    idlen := s.bufByte 12
    res32 := idOf (s.bufBytes 13 (s.bufByte 12).toNat) }

/-- The decode step of LISTPT (R194, R196). -/
def decodeListpt (s : State) : Run :=
  (expectByte 7 1 s).andThen fun s =>
    needBuf 13 s fun s => needBuf (13 + (s.bufByte 12).toNat) s fun s => .done (listptResults s)

/-- The receive leg of P2PTRS (R203). -/
def receiveLeg (s : State) : Run :=
  (exchange (cmdTgget s.cfg) s.cfg.rlenTgget s).andThen fun s => (expectByte 7 0 s).andThen copyBlock

/-- The send leg of P2PTRS (R203). -/
def sendLeg (data : List Byte) (s : State) : Run :=
  (exchange (cmdTgset s.cfg data) s.cfg.rlenTgset s).andThen (expectByte 7 0)

/-- GETFW (R192). -/
def execGetfw (s : State) : Host.Outcome State Fault Refusal :=
  .next (runStarted .getfw (fun s => (exchange (cmdGetfw s.cfg) s.cfg.rlenGetfw s).andThen decodeGetfw) s)

/-- SAMCFG (R193). -/
def execSamcfg (s : State) : Host.Outcome State Fault Refusal :=
  .next (runStarted .samcfg
    (fun s => (exchange (cmdSamcfg s.cfg) s.cfg.rlenSamcfg s).andThen fun s => expectByte 5 s.cfg.samOk s) s)

/-- LISTPT baud (R194). -/
def execListpt (baud : Byte) (s : State) : Host.Outcome State Fault Refusal :=
  .next (runStarted (.listpt baud)
    (fun s => (exchange (cmdListpt s.cfg baud) s.cfg.rlenListpt s).andThen decodeListpt) s)

/-- AUTH tg, keysel, blk, key, cid (R197). -/
def execAuth (tg keysel blk : Byte) (key : List Byte) (cid : Word) (s : State) : Host.Outcome State Fault Refusal :=
  .next (runStarted (.auth tg keysel blk key cid)
    (fun s => (exchange (cmdAuth s.cfg tg keysel blk key cid) s.cfg.rlenAuth s).andThen expectExchangeEcho) s)

/-- RDBLK tg, blk (R198). -/
def execRdblk (tg blk : Byte) (s : State) : Host.Outcome State Fault Refusal :=
  .next (runStarted (.rdblk tg blk)
    (fun s => (exchange (cmdRdblk s.cfg tg blk) s.cfg.rlenRdblk s).andThen fun s =>
      (expectExchangeEcho s).andThen copyBlock) s)

/-- WRBLK tg, blk, data (R199). -/
def execWrblk (tg blk : Byte) (data : List Byte) (s : State) : Host.Outcome State Fault Refusal :=
  .next (runStarted (.wrblk tg blk data)
    (fun s => (exchange (cmdWrblk s.cfg tg blk data) s.cfg.rlenWrblk s).andThen expectExchangeEcho) s)

/-- P2PINI baud (R200). -/
def execP2pini (baud : Byte) (s : State) : Host.Outcome State Fault Refusal :=
  .next (runStarted (.p2pini baud)
    (fun s => (exchange (cmdP2pini s.cfg baud) s.cfg.rlenP2pini s).andThen (expectByte 7 0)) s)

/-- P2PIEX data (R201). -/
def execP2piex (data : List Byte) (s : State) : Host.Outcome State Fault Refusal :=
  .next (runStarted (.p2piex data)
    (fun s => (exchange (cmdP2piex s.cfg data) s.cfg.rlenP2piex s).andThen fun s =>
      (expectByte 7 0 s).andThen copyBlock) s)

/-- P2PTGT (R202). -/
def execP2ptgt (s : State) : Host.Outcome State Fault Refusal :=
  .next (runStarted .p2ptgt
    (fun s => (exchange (cmdP2ptgt s.cfg) s.cfg.rlenP2ptgt s).andThen (expectByte 23 0)) s)

/-- P2PTRS data (R203): the send leg is sent only if the receive leg was accepted. -/
def execP2ptrs (data : List Byte) (s : State) : Host.Outcome State Fault Refusal :=
  .next (runStarted (.p2ptrs data) (fun s => (receiveLeg s).andThen (sendLeg data)) s)

/-- RDREG addr (R204): "response byte 0 = register value", with the indexing of every other row; RDREG_OFF is 0 there (D24). -/
def execRdreg (addr : Half) (s : State) : Host.Outcome State Fault Refusal :=
  .next (runStarted (.rdreg addr)
    (fun s => (exchange (cmdRdreg s.cfg addr) s.cfg.rlenRdreg s).andThen fun s =>
      needBuf (s.cfg.rdregOff + 1) s fun s => .done { s with regval := s.bufByte s.cfg.rdregOff }) s)

/-- WRREG addr, val (R205): the exchange without a read. -/
def execWrreg (addr : Half) (v : Byte) (s : State) : Host.Outcome State Fault Refusal :=
  .next (runStarted (.wrreg addr v)
    (fun s => (memWrite 0 (cmdWrreg s.cfg addr v) s).andThen (sendcmdAlone (cmdWrreg s.cfg addr v).length)) s)

end Sys2Proof.Machine
end

