-- ==== Sys2Proof/Machine/Dispatch.lean ====
section
/-! DEFINITION. One arm per instruction, each one direct call of its meaning. -/

namespace Sys2Proof.Machine

-- What each operation does (R90). A startable operation is run from START to its exit; an internal one as a step of the
-- operation OP names (log entry 10).
def exec (i : Instr) (s : State) : Host.Outcome State Fault Refusal :=
  match i with
  | .wrbyte v => Sys2Proof.Machine.execWrbyte v s
  | .rdbyte => Sys2Proof.Machine.execRdbyte s
  | .encode cmd => Sys2Proof.Machine.execEncode cmd s
  | .declen h => Sys2Proof.Machine.execDeclen h s
  | .validate f short => Sys2Proof.Machine.execValidate f short s
  | .decode f => Sys2Proof.Machine.execDecode f s
  | .ackcmp a => Sys2Proof.Machine.execAckcmp a s
  | .select => Sys2Proof.Machine.execSelect s
  | .deselect => Sys2Proof.Machine.execDeselect s
  | .wrframe n => Sys2Proof.Machine.execWrframe n s
  | .status => Sys2Proof.Machine.execStatus s
  | .waitrdy => Sys2Proof.Machine.execWaitrdy s
  | .rdack => Sys2Proof.Machine.execRdack s
  | .rdfix r => Sys2Proof.Machine.execRdfix r s
  | .rdvar => Sys2Proof.Machine.execRdvar s
  | .sendcmd n => Sys2Proof.Machine.execSendcmd n s
  | .xchgf n r => Sys2Proof.Machine.execXchgf n r s
  | .xchgv n => Sys2Proof.Machine.execXchgv n s
  | .getfw => Sys2Proof.Machine.execGetfw s
  | .samcfg => Sys2Proof.Machine.execSamcfg s
  | .listpt baud => Sys2Proof.Machine.execListpt baud s
  | .auth tg keysel blk key cid => Sys2Proof.Machine.execAuth tg keysel blk key cid s
  | .rdblk tg blk => Sys2Proof.Machine.execRdblk tg blk s
  | .wrblk tg blk data => Sys2Proof.Machine.execWrblk tg blk data s
  | .p2pini baud => Sys2Proof.Machine.execP2pini baud s
  | .p2piex data => Sys2Proof.Machine.execP2piex data s
  | .p2ptgt => Sys2Proof.Machine.execP2ptgt s
  | .p2ptrs data => Sys2Proof.Machine.execP2ptrs data s
  | .rdreg addr => Sys2Proof.Machine.execRdreg addr s
  | .wrreg addr v => Sys2Proof.Machine.execWrreg addr v s

end Sys2Proof.Machine
end

