-- ==== Sys2Proof/Machine/HostPort.lean ====
section
/-! DEFINITION. The host port: what each HOST action does (R28, R61, R105, R108, R260, R266). -/

namespace Sys2Proof.Machine

/-- START: an operation that may be started runs to its end; a reserved OPSEL and an internal operation are refused (R105); a
START while BUSY = 1 has no effect on any state (R28). -/
def hostStart (opsel : Byte) (operands : List Byte) (s : State) : Host.Outcome State Fault Refusal :=
  if s.busy then .next s
  else
    match OpName.ofOpsel opsel with
    | none => .next (refuseRequest .badOpsel s)
    | some n =>
      if n.startable then
        match decode (opsel :: operands) with
        | .op i _ => exec i s
        | .reserved _ => .refused .malformedOperands
        | .malformed _ => .refused .malformedOperands
        | .nothing => .refused .malformedOperands
      else .next (refuseRequest .notStartable s)

/-- A HOST write, which it may make only while BUSY = 0 (R38, R39, R61, R80). -/
def hostWrite (t : State) (s : State) : Host.Outcome State Fault Refusal :=
  if s.busy then .fault .hostAccessWhileBusy else .next t

/-- A HOST write of one byte of BUF (R61); beyond BUFSZ it is refused and not performed (R82, log entry 15). -/
def hostWriteBuf (i : Nat) (v : Byte) (s : State) : State :=
  if i < s.cfg.bufsz then { s with buf := Memory.put s.buf i v } else refuseRequest .bufIndex s

/-- What a register of the host port holds, as the HOST reads it. -/
def State.hostView (s : State) : HostReg → HostValue
  | .busy => .number s.busy.toNat
  | .op =>
    match s.op with
    | none => .noOperation
    | some n => .number n.opsel.toNat
  | .tstate => .number s.tstate.number
  | .ok => .number s.ok.toNat
  | .err => .number s.err.number
  | .errinfo => .number s.errinfo.toNat
  | .short => .number s.short.toNat
  | .stat => .number s.stat.toNat
  | .shr => .number s.shr.toNat
  | .budget => .number s.budget.toNat
  | .mode => .number s.mode.toNat
  | .res32 => .number s.res32.toNat
  | .outblk => .block s.outblk.toList
  | .sens => .number s.sens.toNat
  | .selr => .number s.selr.toNat
  | .idlen => .number s.idlen.toNat
  | .regval => .number s.regval.toNat
  | .rcount => .number s.rcount
  | .buf i => .number (s.bufByte i).toNat

/-- The registers whose reading says where the engine is, readable at any time (R27, R28). -/
def HostReg.readableWhileBusy : HostReg → Bool
  | .busy | .op | .tstate => true
  | .ok | .err | .errinfo | .short | .stat | .shr | .budget | .mode | .res32 | .outblk | .sens | .selr | .idlen | .regval
  | .rcount | .buf _ => false

/-- READ: no side effect but that the HOST has the value (R74). SHR is readable only as the result of an RDBYTE the HOST started
(R23, R24); a byte of BUF at or beyond BUFSZ is refused (R82).
DESIGN CHOICE, unsafe: STAT is readable whenever BUSY = 0, before any STATUS or WAITRDY has run too, where R34 is silent (log entry
14). -/
def hostRead (r : HostReg) (s : State) : Host.Outcome State Fault Refusal :=
  if s.busy ∧ ¬ r.readableWhileBusy then .fault .hostAccessWhileBusy
  else
    match r with
    | .shr => if s.op = some .rdbyte then .next { s with hostData := some (s.hostView .shr) } else .fault .shrNotReadable
    | .buf i =>
      if i < s.cfg.bufsz then .next { s with hostData := some (s.hostView (.buf i)) }
      else .next (refuseRequest .bufIndex s)
    | r => .next { s with hostData := some (s.hostView r) }

/-- RESET (R260): every piece of the machine's state at its reset value, HIST empty. The parameters, the HOST's program and
what it has read, and the CHIP's input are not the machine's and stay (R263, log entry 21). -/
def applyReset (s : State) : State :=
  { State.resetOf s.cfg (s.epoch + 1) with
    din := s.din, draws := s.draws, host := s.host, hostData := s.hostData }

/-- One action of the HOST. -/
def hostAct (a : HostAction) (s : State) : Host.Outcome State Fault Refusal :=
  match a with
  | .start opsel operands => hostStart opsel operands s
  | .setBudget v => hostWrite { s with budget := v } s
  | .setMode v => hostWrite { s with mode := modeWritten v } s
  | .writeBuf i v => hostWrite (hostWriteBuf i v s) s
  | .read r => hostRead r s
  | .reset => .next (applyReset s)

/-- The next action of the HOST's program; with none pending the SSPE waits as it is (R260 "waits for the HOST's first
START", log entry 6). -/
def hostNext (s : State) : Host.Outcome State Fault Refusal :=
  match s.host with
  | [] => .next s
  | a :: rest => hostAct a { s with host := rest }

/-- The next action of the HOST is a START with these bytes on its port, the first of them OPSEL; BUSY = 0, which a START needs
to be taken (R28). -/
def State.withStart (s : State) (bytes : List Byte) : State :=
  match bytes with
  | [] => s
  | b :: operands => { s with busy := false, host := .start b operands :: s.host }

end Sys2Proof.Machine
end

