-- ==== Sys2Proof/Machine/Step.lean ====
section
/-! DEFINITION. One step of the machine: the HOST's next action, a whole operation when it is a START (R73). -/

namespace Sys2Proof.Machine

/-- One step (log entry 6). -/
def step (s : State) : Host.Outcome State Fault Refusal := hostNext s

/-- `s` with the instruction of bits `w` presented at the host port as the HOST's next START (log entry 7). -/
def State.withFetchWord (s : State) (nbits w : Nat) : State := s.withStart (tableBytes nbits w)

end Sys2Proof.Machine
end

