-- ==== Sys2Proof/Safety.lean ====
section
/-! DEFINITION. The terms in which claims are stated: what the CHIP presents next, the event sequences of R16, an exchange that
the CHIP answers, and what a safe state between operations is. -/

namespace Sys2Proof.Machine

/-! ### What the CHIP presents -/

/-- The byte whose bit i is `b i`: Σ b_i · 2^i (R131). -/
def byteOfBits (b : Nat → Bool) : Byte :=
  BitVec.ofNat 8 ((b 0).toNat + 2 * (b 1).toNat + 4 * (b 2).toNat + 8 * (b 3).toNat + 16 * (b 4).toNat +
    32 * (b 5).toNat + 64 * (b 6).toNat + 128 * (b 7).toNat)

/-- The byte the k-th RDBYTE from now will assemble (R75): the CHIP's next bytes as a stream, whether they come from the chip
script or are free. -/
def State.chip (s : State) (k : Nat) : Byte := byteOfBits fun i => s.dinBit (8 * k + i)

/-- The `n` bytes from the k-th RDBYTE on. -/
def State.chipBytes (s : State) (k n : Nat) : List Byte := (List.range n).map fun j => s.chip (k + j)

/-- The bits of a byte as they are on the wire, bit 0 first (R67). -/
def wireBits (v : Byte) : List Bool := (List.range 8).map v.getLsbD

/-- A chip script: a list of bytes as the bits that successive samples return (R75). -/
def script (bytes : List Byte) : List Bool := bytes.flatMap wireBits

/-! ### Event sequences (R16) -/

/-- A state with a sequence of events appended to HIST, the first of them first. -/
def State.emit (s : State) (evs : List Event) : State := { s with trace := evs.reverse ++ s.trace }

/-- `W(v)`: the 24 events of WRBYTE v (R130). -/
def writeEvents (v : Byte) : List Event :=
  (List.range 8).flatMap fun i => [.clk false, .dout (v.getLsbD i), .clk true]

/-- The events of one read cell that sampled b, in the order of R131, or with RD_SAMPLE_AFTER_FALL in that of D7. -/
def readCellEvents (c : Config) (b : Bool) : List Event :=
  if c.rdSampleAfterFall then [.clk false, .sample b, .clk true] else [.sample b, .clk false, .clk true]

/-- `R(v)`: the 24 events of an RDBYTE that returned v (R131). -/
def readEvents (c : Config) (v : Byte) : List Event := (List.range 8).flatMap fun i => readCellEvents c (v.getLsbD i)

/-- `S+`: SEL(1), WAIT(SETTLE). -/
def selectEvents (c : Config) : List Event := [.sel true, .wait c.settle]

/-- The events of WRFRAME for a command (R162). -/
def frameEvents (c : Config) (cmd : List Byte) : List Event :=
  selectEvents c ++ writeEvents c.spiDW ++ (frameOf c cmd).flatMap writeEvents ++ [.sel false]

/-- The events of one STATUS that returned v (R163). -/
def pollEvents (c : Config) (v : Byte) : List Event :=
  selectEvents c ++ writeEvents c.spiSR ++ readEvents c v ++ [.sel false]

/-- The events of a wait whose polls returned these bytes: a poll, and WAIT(POLL_INTERVAL) between two polls (R164). -/
def waitEvents (c : Config) : List Byte → List Event
  | [] => []
  | [v] => pollEvents c v
  | v :: w :: rest => pollEvents c v ++ [.wait c.pollInterval] ++ waitEvents c (w :: rest)

/-- The events of a data read that returned these bytes (R165, R166). -/
def readTransaction (c : Config) (bytes : List Byte) : List Event :=
  selectEvents c ++ writeEvents c.spiDR ++ bytes.flatMap (readEvents c) ++ [.sel false]

/-! ### An exchange the CHIP answers -/

/-- From byte `k` of its stream on, the CHIP is not ready at `p` polls and ready at the next, within the budget (R164). -/
abbrev ReadyAfter (s : State) (k p : Nat) : Prop :=
  p ≤ s.budget.toNat / s.cfg.pollInterval ∧ (∀ j < p, s.chip (k + j) ≠ s.cfg.ready) ∧ s.chip (k + p) = s.cfg.ready

/-- From byte `k` of its stream on, the CHIP answers a command: ready after `p` polls, the acknowledgement, ready after `q` polls
(R168). Its response then begins at byte `k + p + q + 8`. -/
abbrev Answered (s : State) (k p q : Nat) : Prop :=
  ReadyAfter s k p ∧ s.chipBytes (k + p + 1) 6 = s.cfg.ack.toList ∧ ReadyAfter s (k + p + 7) q

/-- The events of SENDCMD for a command the CHIP answers so (R168). -/
def sendEvents (s : State) (cmd : List Byte) (k p q : Nat) : List Event :=
  frameEvents s.cfg cmd ++ waitEvents s.cfg (s.chipBytes k (p + 1)) ++
    readTransaction s.cfg (s.chipBytes (k + p + 1) 6) ++ waitEvents s.cfg (s.chipBytes (k + p + 7) (q + 1))

/-- The events of XCHGF for a command the CHIP answers so, with `r` bytes of response (R169). -/
def exchangeEvents (s : State) (cmd : List Byte) (k p q r : Nat) : List Event :=
  sendEvents s cmd k p q ++ readTransaction s.cfg (s.chipBytes (k + p + q + 8) r)

/-! ### What an operation leaves, field by field

Every register a definition below does not name holds what it held in `s`. BUF is not in them: a claim about an operation that
writes BUF gives its bytes one by one. -/

/-- ⌊BUDGET / POLL_INTERVAL⌋, the most waits the budget pays for (R164). -/
abbrev State.maxWaits (s : State) : Nat := s.budget.toNat / s.cfg.pollInterval

/-- After `SENDCMD` of a command the CHIP answers: frame, polls, acknowledgement, polls (R168). -/
def State.afterSend (s : State) (cmd : List Byte) (p q : Nat) : State :=
  ({ s.afterBits (8 * (p + q + 8)) with
      clk := true, dout := s.cfg.spiSR.getLsbD 7, sel := false, shr := s.cfg.ready, bcnt := 8
      cks := runningChecksum s.cfg cmd, idx := cmd.length + 7, ackr := s.cfg.ack, elapsed := q * s.cfg.pollInterval
      stat := s.cfg.ready, tstate := .success, readDone := false } : State).emit (sendEvents s cmd 0 p q)

/-- After `XCHGF` of a command the CHIP answers, with `r` bytes of response read (R169). -/
def State.afterExchange (s : State) (cmd : List Byte) (r p q : Nat) : State :=
  ({ s.afterBits (8 * (p + q + 8 + r)) with
      clk := true, dout := s.cfg.spiDR.getLsbD 7, sel := false
      shr := if r = 0 then s.cfg.spiDR else s.chip (p + q + 8 + (r - 1))
      bcnt := 8, cks := runningChecksum s.cfg cmd, idx := if r = 0 then cmd.length + 7 else r - 1, ackr := s.cfg.ack
      elapsed := q * s.cfg.pollInterval, stat := s.cfg.ready, tstate := .success, rcount := r, readDone := true } :
    State).emit (exchangeEvents s cmd 0 p q r)

/-- A byte of BUF after an exchange whose response begins at byte `k` of the CHIP's stream: the `r` bytes read, then what is left
of the command, then what was there (R60, R62). -/
def State.bufAfter (s : State) (cmd : List Byte) (r k j : Nat) : Byte :=
  if j < r then s.chip (k + j) else if j < cmd.length then byteAt cmd j else s.bufByte j

/-- After a command whose first wait times out: the frame, ⌊BUDGET / POLL_INTERVAL⌋ + 1 polls, nothing read (R164, R239). -/
def State.afterTimeout1 (s : State) (cmd : List Byte) : State :=
  ({ s.afterBits (8 * (s.maxWaits + 1)) with
      clk := true, dout := s.cfg.spiSR.getLsbD 7, sel := false, shr := s.chip s.maxWaits, bcnt := 8
      cks := runningChecksum s.cfg cmd, idx := cmd.length + 7, elapsed := (s.maxWaits + 1) * s.cfg.pollInterval
      stat := s.chip s.maxWaits, tstate := .timedOut, rcount := 0, readDone := false } : State).emit
    (frameEvents s.cfg cmd ++ waitEvents s.cfg (s.chipBytes 0 (s.maxWaits + 1)))

/-- After a command whose acknowledgement, read after `p` polls that were not ready and one that was, is not ACK (R165, R239). -/
def State.afterAckMismatch (s : State) (cmd : List Byte) (p : Nat) : State :=
  ({ s.afterBits (8 * (p + 7)) with
      clk := true, dout := s.cfg.spiDR.getLsbD 7, sel := false, shr := s.chip (p + 6), bcnt := 8
      cks := runningChecksum s.cfg cmd, idx := cmd.length + 7
      ackr := #v[s.chip (p + 1), s.chip (p + 2), s.chip (p + 3), s.chip (p + 4), s.chip (p + 5), s.chip (p + 6)]
      elapsed := p * s.cfg.pollInterval, stat := s.cfg.ready, tstate := .failed, rcount := 0, readDone := false } :
    State).emit
    (frameEvents s.cfg cmd ++ waitEvents s.cfg (s.chipBytes 0 (p + 1)) ++ readTransaction s.cfg (s.chipBytes (p + 1) 6))

/-- After a command that is acknowledged and whose second wait times out: no response read (R164, R168, R239). -/
def State.afterTimeout2 (s : State) (cmd : List Byte) (p : Nat) : State :=
  ({ s.afterBits (8 * (p + s.maxWaits + 8)) with
      clk := true, dout := s.cfg.spiSR.getLsbD 7, sel := false, shr := s.chip (p + 7 + s.maxWaits), bcnt := 8
      cks := runningChecksum s.cfg cmd, idx := cmd.length + 7, ackr := s.cfg.ack
      elapsed := (s.maxWaits + 1) * s.cfg.pollInterval, stat := s.chip (p + 7 + s.maxWaits), tstate := .timedOut
      rcount := 0, readDone := false } : State).emit (sendEvents s cmd 0 p s.maxWaits)

/-- The end of an operation the HOST started, on the success exit (R28, R30, R241). -/
def State.succeeded (s : State) (i : Instr) : State :=
  { s with op := some i.name, args := i.operandBytes, busy := false, ok := true, err := .none, errinfo := 0 }

/-- The end of an operation the HOST started, on the failure exit, with its code and detail (R28, R30, R240). -/
def State.failed (s : State) (i : Instr) (e : ErrCode) (info : Byte) : State :=
  { s with op := some i.name, args := i.operandBytes, busy := false, ok := false, err := e, errinfo := info }

/-- The layout of a response whose first five bytes are `h`, with SHORT and the total length TLEN it gives: full, or short while
QUIRK = 1 (R99, R100, R142). -/
def responseLayout (c : Config) (quirk : Bool) (h : List Byte) : Option (Bool × Nat) :=
  if byteAt h 0 = c.pre ∧ byteAt h 1 = c.pre ∧ byteAt h 2 = c.start then some (false, 5 + (byteAt h 3).toNat + 2)
  else if byteAt h 0 = c.pre ∧ byteAt h 1 = c.start ∧ quirk = true then some (true, 5 + (byteAt h 2).toNat + 2)
  else none

/-- The sum of a byte sequence as a number (R14 before its modulus). -/
def byteSum (bytes : List Byte) : Nat := (bytes.map BitVec.toNat).sum

/-- The command of the first exchange of a catalog operation (R101). -/
def catalogCommand (c : Config) : Instr → Option (List Byte)
  | .getfw => some [c.opcGetfw]
  | .samcfg => some [c.opcSamcfg, c.samMode, c.samTimeout, c.samIrq]
  | .listpt baud => some [c.opcListpt, c.listMaxtg, baud]
  | .auth tg keysel blk key cid => some ([c.opcDataex, tg, keysel, blk] ++ key ++ wordBytes cid)
  | .rdblk tg blk => some [c.opcDataex, tg, c.mfRead, blk]
  | .wrblk tg blk data => some ([c.opcDataex, tg, c.mfWrite, blk] ++ data)
  | .p2pini baud => some ([c.opcJumpdep, c.p2pActive, baud] ++ c.p2piniTail)
  | .p2piex data => some ([c.opcDataex, c.p2pTg] ++ data)
  | .p2ptgt => some c.tgtTemplate.toList
  | .p2ptrs _ => some [c.opcTgget]
  | .rdreg addr => some ([c.opcRdreg] ++ halfBytes addr)
  | .wrreg addr v => some ([c.opcWrreg] ++ halfBytes addr ++ [v])
  | .wrbyte _ | .rdbyte | .encode _ | .declen _ | .validate _ _ | .decode _ | .ackcmp _ | .select | .deselect | .wrframe _
  | .status | .waitrdy | .rdack | .rdfix _ | .rdvar | .sendcmd _ | .xchgf _ _ | .xchgv _ => none

/-! ### Safe states -/

/-- *Quiescent* (R285): BUSY = 0, SEL = 0, CLK = 1. -/
abbrev State.Quiescent (s : State) : Prop := s.busy = false ∧ s.sel = false ∧ s.clk = true

/-- BUF is in its canonical form and within its size (R60, log entry 5). -/
abbrev State.BufOk (s : State) : Prop := Memory.wf s.buf ∧ ∀ c ∈ s.buf, c.1 < s.cfg.bufsz

/-- The invariant of the machine between operations: it is quiescent (R285), no exchange is in flight (R29), the reserved bits of
MODE read 0 (R39), BUF is canonical and within its size, the counters are within their ranges (R23, R25, R48), and a
success has no error recorded (R32, R241). -/
abbrev State.Inv (s : State) : Prop :=
  s.Quiescent ∧ s.tstate.inFlight = false ∧ s.mode &&& 0xFC = 0 ∧ s.BufOk ∧
  s.bcnt ≤ 8 ∧ s.tlen ≤ 262 ∧ s.rcount ≤ s.cfg.bufsz ∧ s.elapsed ≤ 65535 + s.cfg.pollInterval ∧
  (s.ok = true → s.err = .none ∧ s.errinfo = 0)

/-! ### What the CHIP sees of a history -/

/-- The levels of DOUT at the rising edges of CLK in a history, given the levels of CLK and DOUT before it (R133). -/
def risingEdgeLevels (clk dout : Bool) : List Event → List Bool
  | [] => []
  | .clk b :: rest =>
    if clk = false ∧ b = true then dout :: risingEdgeLevels b dout rest else risingEdgeLevels b dout rest
  | .dout b :: rest => risingEdgeLevels clk b rest
  | .sel _ :: rest => risingEdgeLevels clk dout rest
  | .sample _ :: rest => risingEdgeLevels clk dout rest
  | .wait _ :: rest => risingEdgeLevels clk dout rest

/-- The bits sampled in a history, in order (R133). -/
def sampledBits : List Event → List Bool
  | [] => []
  | .sample b :: rest => b :: sampledBits rest
  | .clk _ :: rest => sampledBits rest
  | .dout _ :: rest => sampledBits rest
  | .sel _ :: rest => sampledBits rest
  | .wait _ :: rest => sampledBits rest

/-- The levels of CLK, DOUT and SEL after a history, given those before it; none if a CLK or a SEL event drives the level the line
already has, and so is no edge (R132). -/
def replayLines (clk dout sel : Bool) : List Event → Option (Bool × Bool × Bool)
  | [] => some (clk, dout, sel)
  | .clk b :: rest => if b = clk then none else replayLines b dout sel rest
  | .dout b :: rest => replayLines clk b sel rest
  | .sel b :: rest => if b = sel then none else replayLines clk dout b rest
  | .sample _ :: rest => replayLines clk dout sel rest
  | .wait _ :: rest => replayLines clk dout sel rest

/-- The lines hold what HIST drove them to since reset, and every CLK and SEL event of it is a real edge (R16, R132). -/
abbrev State.LinesOk (s : State) : Prop := replayLines true false false s.hist = some (s.clk, s.dout, s.sel)

/-- The time spent in `wait`, in time-units (R245). -/
def waitedUnits : List Event → Nat
  | [] => 0
  | .wait n :: rest => n + waitedUnits rest
  | .clk _ :: rest => waitedUnits rest
  | .dout _ :: rest => waitedUnits rest
  | .sel _ :: rest => waitedUnits rest
  | .sample _ :: rest => waitedUnits rest

end Sys2Proof.Machine
end

