-- ==== Sys2Proof/Certificates/Slice0/Obligations.lean ====
section
/-! DEFINITION. The statements for the provers. Each docstring names the rule of spec/ it formalises.

In the statements about an operation, `{ t with buf := s.buf } = …` gives every register of the next state `t` but BUF, so it says
what changes and that nothing else does; where an operation writes BUF, its bytes are given one by one, and where it does not the
equation is about `t` itself. A hypothesis `Answered s k p q` says what the CHIP presents: it is an input, which every operation
takes as it comes (R75, log entry 2). The field `ret` is the value an internal operation returns (log entry 11), `readDone` the
condition R240 asks (log entry 12); `op` and `args` hold after an operation ends (log entry 24). -/

open Sys2Proof Sys2Proof.Machine

/-! ### Encoding -/

/-- Every well-formed operation is decoded from its own port bytes, whatever follows them (R90, R91; the layout of the operands is
the model's, log entry 8).

The spec marks as its own what these rules rest on: R90 (D1), R91 (D1). -/
def Obligations.DecodeOfEncode : Prop :=
  ∀ (i : Instr) (rest : List Byte), i.wf = true → decode (encode i ++ rest) = .op i rest

/-- What is decoded is well formed, and its encoding is exactly the bytes read (R90, R91; log entry 8).

The spec marks as its own what these rules rest on: R90 (D1), R91 (D1). -/
def Obligations.EncodeOfDecode : Prop :=
  ∀ (bytes rest : List Byte) (i : Instr), decode bytes = .op i rest → i.wf = true ∧ encode i ++ rest = bytes

/-- Words written out by hand from R90 and R91, one or more per component, and three reserved selectors (R105); the order of the operand
bytes on the port is the model's (log entry 8).

The spec marks as its own what these rules rest on: R90 (D1), R91 (D1), R105 (D42). -/
def Obligations.HandWrittenWords : Prop :=
  decode [0x00, 0xA5] = .op (.wrbyte 0xA5) [] ∧
  decode [0x01] = .op .rdbyte [] ∧
  decode [0x12, 0x00, 0x02, 0xAA, 0x55, 0x01] = .op (.validate [0xAA, 0x55] true) [] ∧
  decode [0x14, 0x00, 0x00, 0xFF, 0x00, 0xFF, 0x00] = .op (.ackcmp [0x00, 0x00, 0xFF, 0x00, 0xFF, 0x00]) [] ∧
  decode [0x22, 0x26] = .op (.wrframe 38) [] ∧
  decode [0x29, 0x01, 0x0C] = .op (.xchgf 1 12) [] ∧
  decode [0x33, 0x01, 0x60, 0x04, 0xA0, 0xA1, 0xA2, 0xA3, 0xA4, 0xA5, 0x04, 0x00, 0x01, 0x02] =
    .op (.auth 0x01 0x60 0x04 [0xA0, 0xA1, 0xA2, 0xA3, 0xA4, 0xA5] 0x04000102) [] ∧
  decode [0x3B, 0x63, 0x02, 0x80] = .op (.wrreg 0x6302 0x80) [] ∧
  decode [0x02] = .reserved 0x02 ∧ decode [0x2B] = .reserved 0x2B ∧ decode [0xFF] = .reserved 0xFF

/-! ### The host port -/

/-- A START of bytes that decode to an operation the HOST may start runs exactly that operation, after the HOST's action has been
taken; with no action pending a step changes nothing (R28, R73; log entries 6 and 7).

The spec marks as its own what these rules rest on: R28 (D2, D29). -/
def Obligations.StepRunsStartedOperation : Prop :=
  (∀ (s : State) (opsel : Byte) (operands extra : List Byte) (rest : List HostAction) (i : Instr),
    s.busy = false → s.host = .start opsel operands :: rest → decode (opsel :: operands) = .op i extra →
    i.name.startable = true → step s = exec i { s with host := rest }) ∧
  (∀ s : State, s.host = [] → step s = .next s)

/-- A START while BUSY = 1 has no effect on any state (R28): the port takes the action and nothing else changes; no operation that
can be started runs.

The spec marks as its own what these rules rest on: R28 (D2, D29). -/
def Obligations.StartWhileBusyIgnored : Prop :=
  ∀ s : State, s.busy = true →
    (∀ (opsel : Byte) (operands : List Byte) (rest : List HostAction), s.host = .start opsel operands :: rest →
      step s = .next { s with host := rest }) ∧
    (∀ i : Instr, i.name.startable = true → exec i s = .next s)

/-- A START of a reserved OPSEL is Refused(BadOpsel), one of an internal operation Refused(NotStartable); neither produces a line
event (R105, with the codes of R231). What OP, ARGS and RCOUNT hold after it the statement leaves open (log entry 13).

The spec marks as its own what these rules rest on: R105 (D42), R231 (D19). -/
def Obligations.UnstartableOpselRefused : Prop :=
  ∀ (s : State) (opsel : Byte) (operands : List Byte) (rest : List HostAction),
    s.busy = false → s.sel = false → s.tstate.inFlight = false → s.host = .start opsel operands :: rest →
    ((∀ n : OpName, n.opsel ≠ opsel) → ∃ t, step s = .next t ∧ t.ok = false ∧ t.err = .refused ∧ t.errinfo = 1 ∧
      { t with
        ok := s.ok, err := s.err, errinfo := s.errinfo, op := s.op, args := s.args, rcount := s.rcount
        readDone := s.readDone } = { s with host := rest }) ∧
    ((∃ n : OpName, n.opsel = opsel ∧ n.startable = false) → ∃ t, step s = .next t ∧ t.ok = false ∧ t.err = .refused ∧
      t.errinfo = 2 ∧
      { t with
        ok := s.ok, err := s.err, errinfo := s.errinfo, op := s.op, args := s.args, rcount := s.rcount
        readDone := s.readDone } = { s with host := rest })

/-- SET BUDGET and SET MODE while BUSY = 0: BUDGET takes the value; bits 1:0 of MODE take theirs, bits 7:2 read 0 (R38, R39).

The spec marks as its own what these rules rest on: R38 (D12, D27), R39 (D14, D15). -/
def Obligations.SetBudgetAndMode : Prop :=
  ∀ (s : State) (rest : List HostAction), s.busy = false →
    (∀ v : Half, s.host = .setBudget v :: rest → step s = .next { s with host := rest, budget := v }) ∧
    (∀ v : Byte, s.host = .setMode v :: rest → ∃ t, step s = .next t ∧
      (∀ k, t.mode.getLsbD k = (decide (k < 2) && v.getLsbD k)) ∧
      { t with mode := s.mode } = { s with host := rest })

/-- A HOST write of BUF[i] while BUSY = 0 writes that byte and no other; at or beyond BUFSZ it is refused with BufIndex and not
performed (R61, R82; that R82 reaches the HOST's accesses is the model's reading, log entry 15).

The spec marks as its own what these rules rest on: R61 (D2), R82 (D30). -/
def Obligations.HostWritesBuf : Prop :=
  ∀ (s : State) (i : Nat) (v : Byte) (rest : List HostAction), s.busy = false → s.host = .writeBuf i v :: rest →
    (i < s.cfg.bufsz → ∃ t, step s = .next t ∧ (∀ j, t.bufByte j = if j = i then v else s.bufByte j) ∧
      { t with buf := s.buf } = { s with host := rest }) ∧
    (s.cfg.bufsz ≤ i → ∃ t, step s = .next t ∧ t.ok = false ∧ t.err = .refused ∧ t.errinfo = 4 ∧ t.buf = s.buf)

/-- A READ by the HOST gives it the register's value and changes nothing else (R74, R108): while BUSY = 0 any register, at any time
BUSY, OP and TSTATE. The value of each register is written out: OP is NONE or the OPSEL of R90 (R28), TSTATE its code (R29), ERR its
code (R32), OUTBLK its sixteen bytes, every other register its number. SHR is readable after an RDBYTE the HOST started (R24), a byte
of BUF below BUFSZ. A READ of BUF at or beyond BUFSZ while BUSY = 0 is refused with BufIndex and gives nothing (R82, log entry 15;
RCOUNT after it is left open, log entry 13); a READ of SHR otherwise, and a READ of another register while BUSY = 1, are no moves of
the HOST and fault (R80, log entry 14). Where the value is kept is the model's (log entry 23), and so is that STAT is readable before
any STATUS or WAITRDY has run (log entry 14).

The spec marks as its own what these rules rest on: R74 (derived), R108 (D41), R90 (D1), R28 (D2, D29), R29 (D36), R32 (D19),
R24 (derived), R82 (D30), R80 (D29). -/
def Obligations.HostReadsHaveNoSideEffect : Prop :=
  ∀ (s : State) (r : HostReg) (rest : List HostAction), s.host = .read r :: rest →
    ((s.busy = false ∨ r = .busy ∨ r = .op ∨ r = .tstate) → (r = .shr → s.op = some .rdbyte) →
      (∀ i, r = .buf i → i < s.cfg.bufsz) →
      ∃ value, step s = .next { s with host := rest, hostData := some value } ∧
        match r with
        | .busy => value = .number (if s.busy = true then 1 else 0)
        | .op =>
          (s.op = none → value = .noOperation) ∧
          ∀ e ∈ [(OpName.wrbyte, 0x00), (.rdbyte, 0x01), (.encode, 0x10), (.declen, 0x11), (.validate, 0x12), (.decode, 0x13),
              (.ackcmp, 0x14), (.select, 0x20), (.deselect, 0x21), (.wrframe, 0x22), (.status, 0x23), (.waitrdy, 0x24),
              (.rdack, 0x25), (.rdfix, 0x26), (.rdvar, 0x27), (.sendcmd, 0x28), (.xchgf, 0x29), (.xchgv, 0x2A), (.getfw, 0x30),
              (.samcfg, 0x31), (.listpt, 0x32), (.auth, 0x33), (.rdblk, 0x34), (.wrblk, 0x35), (.p2pini, 0x36), (.p2piex, 0x37),
              (.p2ptgt, 0x38), (.p2ptrs, 0x39), (.rdreg, 0x3A), (.wrreg, 0x3B)],
            s.op = some e.1 → value = .number e.2
        | .tstate =>
          ∀ e ∈ [(TState.idle, 0), (.selecting, 1), (.awaitingReady1, 2), (.ackRead, 3), (.awaitingReady2, 4), (.responseRead, 5),
              (.success, 6), (.timedOut, 7), (.failed, 8)], s.tstate = e.1 → value = .number e.2
        | .ok => value = .number (if s.ok = true then 1 else 0)
        | .err =>
          ∀ e ∈ [(ErrCode.none, 0), (.timeout, 1), (.ackMismatch, 2), (.responseMismatch, 3), (.operationRejected, 4), (.refused, 5)],
            s.err = e.1 → value = .number e.2
        | .errinfo => value = .number s.errinfo.toNat
        | .short => value = .number (if s.short = true then 1 else 0)
        | .stat => value = .number s.stat.toNat
        | .shr => value = .number s.shr.toNat
        | .budget => value = .number s.budget.toNat
        | .mode => value = .number s.mode.toNat
        | .res32 => value = .number s.res32.toNat
        | .outblk => value = .block s.outblk.toList
        | .sens => value = .number s.sens.toNat
        | .selr => value = .number s.selr.toNat
        | .idlen => value = .number s.idlen.toNat
        | .regval => value = .number s.regval.toNat
        | .rcount => value = .number s.rcount
        | .buf i => value = .number (s.bufByte i).toNat) ∧
    (∀ i, r = .buf i → s.cfg.bufsz ≤ i → s.busy = false → s.sel = false → s.tstate.inFlight = false →
      ∃ t, step s = .next t ∧ t.ok = false ∧ t.err = .refused ∧ t.errinfo = 4 ∧
        { t with ok := s.ok, err := s.err, errinfo := s.errinfo, rcount := s.rcount, readDone := s.readDone } =
          { s with host := rest }) ∧
    (r = .shr → s.busy = false → s.op ≠ some .rdbyte → step s = .fault .shrNotReadable) ∧
    (s.busy = true → r ≠ .busy → r ≠ .op → r ≠ .tstate → step s = .fault .hostAccessWhileBusy)

/-- Only the host port stops, and only on what the spec gives the HOST no move for: every operation answers a next state; a step is
refused only for a START whose bytes are no operand record of an operation the HOST may start; it faults only for an access while
BUSY = 1 or a READ of SHR with no RDBYTE result in it (R80, R24; log entries 9 and 14).

The spec marks as its own what these rules rest on: R80 (D29), R24 (derived). -/
def Obligations.StopsOnlyAtTheHostPort : Prop :=
  (∀ (i : Instr) (s : State), ∃ t, exec i s = .next t) ∧
  (∀ (s : State) (r : Refusal), step s = .refused r → r = .malformedOperands ∧
    ∃ opsel operands rest n, s.host = .start opsel operands :: rest ∧ n.opsel = opsel ∧ n.startable = true ∧
      decode (opsel :: operands) = .malformed n) ∧
  (∀ (s : State) (f : Fault), step s = .fault f →
    (f = .hostAccessWhileBusy ∧ s.busy = true) ∨ (f = .shrNotReadable ∧ s.op ≠ some .rdbyte))

/-! ### Reset -/

/-- The reset values the table of R52 gives; of the registers it calls unspecified nothing is said.

The spec marks as its own what these rules rest on: R52 (D27). -/
def Obligations.ResetValues : Prop :=
  State.reset.clk = true ∧ State.reset.dout = false ∧ State.reset.sel = false ∧ State.reset.bcnt = 0 ∧ State.reset.idx = 0 ∧
  State.reset.tlen = 0 ∧ State.reset.elapsed = 0 ∧ State.reset.op = none ∧ State.reset.busy = false ∧
  State.reset.tstate = .idle ∧ State.reset.ok = false ∧ State.reset.err = .none ∧ State.reset.errinfo = 0 ∧
  State.reset.short = false ∧ State.reset.budget = 1000 ∧ State.reset.mode = 0x01 ∧ State.reset.rcount = 0 ∧
  State.reset.hist = []

/-- RESET, whatever BUSY holds between two steps: every register at the value of R52 (BUDGET_DEFAULT and QUIRK_RESET of the
configuration), HIST empty, and the CHIP's stream where it was (R260, R263); what of the
environment stays is the model's reading (log entry 21).

The spec marks as its own what these rules rest on: R52 (D27), R260 (D27). -/
def Obligations.ResetAction : Prop :=
  ∀ (s : State) (rest : List HostAction), s.host = .reset :: rest → ∃ t, step s = .next t ∧
    t.clk = true ∧ t.dout = false ∧ t.sel = false ∧ t.bcnt = 0 ∧ t.idx = 0 ∧ t.tlen = 0 ∧ t.elapsed = 0 ∧ t.op = none ∧
    t.busy = false ∧ t.tstate = .idle ∧ t.ok = false ∧ t.err = .none ∧ t.errinfo = 0 ∧ t.short = false ∧
    t.budget = s.cfg.budgetDefault ∧ t.mode = (if s.cfg.quirkReset then 0x01 else 0x00) ∧ t.rcount = 0 ∧ t.hist = [] ∧
    t.cfg = s.cfg ∧ t.host = rest ∧ t.chip = s.chip

/-! ### Invariants -/

/-- The invariants below hold right after reset (R260, R285).

The spec marks as its own what these rules rest on: R260 (D27), R285 (derived). -/
def Obligations.InvariantsAtReset : Prop := State.reset.Inv ∧ State.reset.LinesOk

/-- Every step keeps the invariant of the machine between operations: BUSY = 0, SEL = 0, CLK = 1 (R285, R172), no exchange in flight
(R29), MODE's reserved bits 0 (R39), BUF canonical and within BUFSZ, the counters in range (R23, R25, R48), and no error recorded
beside OK = 1 (R241). It holds from every state that meets it, not only on runs from reset.

The spec marks as its own what these rules rest on: R285 (derived), R172 (derived), R29 (D36), R39 (D14, D15), R23 (D3), R25
(derived), R48 (D3), R241 (D2). -/
def Obligations.InvariantKeptByEveryStep : Prop :=
  ∀ s t : State, s.Inv → step s = .next t → t.Inv

/-- Every step keeps the lines where HIST has driven them, and every CLK and SEL event of HIST a real edge (R132, R16).

The spec marks as its own what these rules rest on: R132 (derived), R16 (D4). -/
def Obligations.LinesFollowHistoryAtEveryStep : Prop :=
  ∀ s t : State, s.Inv → s.LinesOk → step s = .next t → t.LinesOk

/-- Every operation the HOST may start ends, from any quiescent state, with BUSY = 0, SEL = 0, CLK = 1 and the outcome recorded: on
success OK = 1, ERR = None, ERRINFO = 0, else OK = 0 and a code that is not None (R172, R267, R32). That it ends is the model's in two
ways: every wait returns, which R267 has as a proviso (log entry 22), and a wait with POLL_INTERVAL = 0, which no premise shuts out
here, ends as a Timeout (log entry 16). That OP keeps the operation is the model's reading (log entry 24).

The spec marks as its own what these rules rest on: R172 (derived), R267 (derived), R32 (D19). -/
def Obligations.EveryOperationEnds : Prop :=
  ∀ (i : Instr) (s : State), i.name.startable = true → s.Quiescent → ∃ t, exec i s = .next t ∧ t.Quiescent ∧
    t.op = some i.name ∧ ((t.ok = true ∧ t.err = .none ∧ t.errinfo = 0) ∨ (t.ok = false ∧ t.err ≠ .none))

/-- No operation takes an event out of HIST or changes one: it only appends (R77, R15).

The spec marks as its own what these rules rest on: R15 (D4). -/
def Obligations.HistoryOnlyGrows : Prop :=
  ∀ (i : Instr) (s : State), ∃ t events, exec i s = .next t ∧ t.hist = s.hist ++ events

/-- Which operations write the result and control registers: RES32 only GETFW and LISTPT, OUTBLK only RDBLK, P2PIEX and P2PTRS,
SENS, SELR and IDLEN only LISTPT, REGVAL only RDREG, SHORT and TLEN only RDVAR and XCHGV, BUDGET and MODE none (R44 to R47, R33, R23,
R38, R39). RCOUNT is in the statements about each operation.

The spec marks as its own what these rules rest on: R23 (D3), R38 (D12, D27), R39 (D14, D15). -/
def Obligations.ResultRegistersWrittenOnlyByTheirOperations : Prop :=
  ∀ (i : Instr) (s : State), i.name.startable = true → ∃ t, exec i s = .next t ∧
    (i.name ≠ .getfw → i.name ≠ .listpt → t.res32 = s.res32) ∧
    (i.name ≠ .rdblk → i.name ≠ .p2piex → i.name ≠ .p2ptrs → t.outblk = s.outblk) ∧
    (i.name ≠ .listpt → t.sens = s.sens ∧ t.selr = s.selr ∧ t.idlen = s.idlen) ∧
    (i.name ≠ .rdreg → t.regval = s.regval) ∧
    (i.name ≠ .rdvar → i.name ≠ .xchgv → t.short = s.short ∧ t.tlen = s.tlen) ∧
    t.budget = s.budget ∧ t.mode = s.mode

/-- No operation reads OK, ERR, ERRINFO or SHORT: run from two states that differ only in them, it leaves states that differ at most
in them (R35).

The spec marks as its own what these rules rest on: R35 (derived). -/
def Obligations.ErrorRegistersAreNeverRead : Prop :=
  ∀ (i : Instr) (s : State) (ok short : Bool) (err : ErrCode) (errinfo : Byte), ∃ t t', exec i s = .next t ∧
    exec i { s with ok := ok, err := err, errinfo := errinfo, short := short } = .next t' ∧
    { t' with ok := t.ok, err := t.err, errinfo := t.errinfo, short := t.short } = t

/-! ### Bit Link -/

/-- WRBYTE v: 24 events, CLK(0) DOUT(v[i]) CLK(1) for i = 0 to 7; CLK = 1, DOUT = v[7], SHR = v, BCNT = 8, SEL unchanged; OK = 1
(R130).

The spec marks as its own what these rules rest on: R130 (D6). -/
def Obligations.WrbyteEffect : Prop :=
  ∀ (v : Byte) (s : State), s.busy = false →
    exec (.wrbyte v) s =
      .next ((({ s with clk := true, dout := v.getLsbD 7, shr := v, bcnt := 8, readDone := false } : State).emit
        ((List.range 8).flatMap fun i => [.clk false, .dout (v.getLsbD i), .clk true])).succeeded (.wrbyte v))

/-- RDBYTE: 24 events, SAMPLE(b) CLK(0) CLK(1) per cell where RD_SAMPLE_AFTER_FALL is 0; SHR is the byte whose bit i is the i-th bit
sampled; CLK = 1, BCNT = 8, DOUT and SEL unchanged; OK = 1 (R131).

The spec marks as its own what these rules rest on: R131 (D7). -/
def Obligations.RdbyteEffect : Prop :=
  ∀ s : State, s.busy = false →
    exec .rdbyte s =
      .next ((({ s.afterBits 8 with clk := true, shr := byteOfBits s.dinBit, bcnt := 8, readDone := false } : State).emit
        ((List.range 8).flatMap fun i =>
          if s.cfg.rdSampleAfterFall then [.clk false, .sample (s.dinBit i), .clk true]
          else [.sample (s.dinBit i), .clk false, .clk true])).succeeded .rdbyte)

/-- Bit order on the wire is least-significant bit first, in both directions, and nothing switches it (R67): in the events WRBYTE v
appends to HIST the levels of DOUT at the rising edges of CLK are bits 0 to 7 of v in that order, eight of them, and SHR holds v; in
the events RDBYTE appends the bits sampled are bits 0 to 7 of SHR, the byte it assembled, in that order, eight of them. -/
def Obligations.BytesOnTheWire : Prop :=
  ∀ s : State, s.busy = false →
    (∀ v : Byte, ∃ t events, exec (.wrbyte v) s = .next t ∧ t.hist = s.hist ++ events ∧ t.shr = v ∧
      risingEdgeLevels s.clk s.dout events = (List.range 8).map v.getLsbD) ∧
    (∃ t events, exec .rdbyte s = .next t ∧ t.hist = s.hist ++ events ∧
      sampledBits events = (List.range 8).map t.shr.getLsbD)

/-! ### Frame Codec -/

/-- ENCODE of 1 to 254 bytes returns the n + 8 bytes of R93, with LEN = n + 1, LCS = 256 − LEN, DCS = the two's complement of the
sum of the direction byte and the command; nothing else changes but CKS. ENCODE of no byte or of more than 254 is Refused(BadOperand)
and returns nothing (R140, with the code of R231 and the failure exit of R240). CKS holds the running checksum of R141, the model's
reading of where that trace ends (log entry 27); the value returned is in `ret` (log entry 11).

The spec marks as its own what these rules rest on: R231 (D19), R240 (D19, D36). -/
def Obligations.EncodeEffect : Prop :=
  ∀ (cmd : List Byte) (s : State),
    (1 ≤ cmd.length → cmd.length ≤ 254 →
      exec (.encode cmd) s = .next { s with
        cks := BitVec.ofNat 8 (byteSum [s.cfg.pre, s.cfg.pre, s.cfg.start] + byteSum (s.cfg.dirH2C :: cmd))
        ret := .frame ([s.cfg.pre, s.cfg.pre, s.cfg.start, BitVec.ofNat 8 (cmd.length + 1), BitVec.ofNat 8 (255 - cmd.length),
          s.cfg.dirH2C] ++ cmd ++ [BitVec.ofNat 8 (256 - byteSum (s.cfg.dirH2C :: cmd) % 256), s.cfg.post]) }) ∧
    (cmd.length = 0 ∨ 254 < cmd.length →
      ∃ t, exec (.encode cmd) s = .next t ∧ t.ok = false ∧ t.err = .refused ∧ t.errinfo = 3 ∧ t.ret = s.ret)

/-- What a raise of ENCODE, DECLEN, DECODE or WAITRDY leaves, from whatever state it finds, is the failure exit `exit`: SEL lowered if
it was up, OK = 0 with code and detail, RES32 = 0 if the top-level operation is GETFW or LISTPT, RCOUNT = 0 if no read completed in
it (log entry 12), an exchange in flight TimedOut for a Timeout and Failed for another error, BUSY = 0, nothing else changed (R240,
with the codes of R231). ENCODE raises Refused(BadOperand) for no byte or more than 254 (R140), DECLEN BadHeader for a header in no
layout (R142), DECODE the first of its tests that fails (R144), WAITRDY Timeout(0) after its last poll (R164). The raises of the
other operations are in the statements about them.

The spec marks as its own what these rules rest on: R240 (D19, D36), R231 (D19), R142 (D13), R144 (D15), R164 (D10, D12, D35). -/
def Obligations.RaiseTakesTheFailureExit : Prop :=
  ∀ s : State,
    let exit : State → ErrCode → Byte → State := fun u e info =>
      ({ u with
          sel := false, ok := false, err := e, errinfo := info
          res32 := if u.op = some .getfw ∨ u.op = some .listpt then 0 else u.res32
          rcount := if u.readDone then u.rcount else 0
          tstate := if u.tstate = .selecting ∨ u.tstate = .awaitingReady1 ∨ u.tstate = .ackRead ∨ u.tstate = .awaitingReady2 ∨
            u.tstate = .responseRead then (if e = .timeout then .timedOut else .failed) else u.tstate
          busy := false } : State).emit (if u.sel then [.sel false] else [])
    (∀ cmd : List Byte, cmd.length = 0 ∨ 254 < cmd.length → exec (.encode cmd) s = .next (exit s .refused 3)) ∧
    (∀ h0 h1 h2 h3 h4 : Byte, ¬ (h0 = s.cfg.pre ∧ h1 = s.cfg.pre ∧ h2 = s.cfg.start) →
      ¬ (h0 = s.cfg.pre ∧ h1 = s.cfg.start ∧ s.mode.getLsbD 0 = true) →
      exec (.declen [h0, h1, h2, h3, h4]) s = .next (exit s .responseMismatch 1)) ∧
    (∀ (f : List Byte) (reason : Byte),
      (if f.length < 9 then some 1
        else if ¬ (byteAt f 0 = s.cfg.pre ∧ byteAt f 1 = s.cfg.pre ∧ byteAt f 2 = s.cfg.start) then some 1
        else if (byteAt f 3).toNat < 2 ∨ f.length ≠ (byteAt f 3).toNat + 7 then some 2
        else if ¬ (((byteAt f 3).toNat + (byteAt f 4).toNat) % 256 = 0 ∧
            byteSum (slice f 5 ((byteAt f 3).toNat + 1)) % 256 = 0) then some 3
        else if byteAt f (6 + (byteAt f 3).toNat) ≠ s.cfg.post then some 1
        else none : Option Byte) = some reason →
      exec (.decode f) s = .next (exit s .responseMismatch reason)) ∧
    (s.busy = false → s.cfg.Ok → (∀ j ≤ s.maxWaits, s.chip j ≠ s.cfg.ready) →
      exec .waitrdy s = .next (exit
        (({ s.afterBits (8 * (s.maxWaits + 1)) with
            clk := true, dout := s.cfg.spiSR.getLsbD 7, sel := false, shr := s.chip s.maxWaits, bcnt := 8
            stat := s.chip s.maxWaits, elapsed := (s.maxWaits + 1) * s.cfg.pollInterval, op := some .waitrdy, args := []
            readDone := false } : State).emit (waitEvents s.cfg (s.chipBytes 0 (s.maxWaits + 1)))) .timeout 0))

/-- Of every frame ENCODE returns: LEN + LCS, and direction + payload + DCS, are 0 modulo 256 (R95), and DECODE of it is DIR_H2C,
the opcode and the parameters (R147).

The spec marks as its own what these rules rest on: R147 (derived). -/
def Obligations.FrameRoundTrip : Prop :=
  ∀ (cmd : List Byte) (s : State), 1 ≤ cmd.length → cmd.length ≤ 254 → ∃ t frame, exec (.encode cmd) s = .next t ∧
    t.ret = .frame frame ∧ frame.length = cmd.length + 8 ∧
    ((byteAt frame 3).toNat + (byteAt frame 4).toNat) % 256 = 0 ∧
    byteSum (slice frame 5 (cmd.length + 2)) % 256 = 0 ∧
    exec (.decode frame) t = .next { t with ret := .decoded s.cfg.dirH2C (byteAt cmd 0) (cmd.drop 1) }

/-- DECODE on any bytes: the tests of R144 in their order, each with its own reason; a frame that passes them all gives the direction
byte, the opcode and the parameters, and nothing else changes (R144, with the codes of R231 and the failure exit of R240; the value
returned is in `ret`, log entry 11).

The spec marks as its own what these rules rest on: R144 (D15), R231 (D19), R240 (D19, D36). -/
def Obligations.DecodeEffect : Prop :=
  ∀ (f : List Byte) (s : State),
    match (if f.length < 9 then some 1
      else if ¬ (byteAt f 0 = s.cfg.pre ∧ byteAt f 1 = s.cfg.pre ∧ byteAt f 2 = s.cfg.start) then some 1
      else if (byteAt f 3).toNat < 2 ∨ f.length ≠ (byteAt f 3).toNat + 7 then some 2
      else if ¬ (((byteAt f 3).toNat + (byteAt f 4).toNat) % 256 = 0 ∧
          byteSum (slice f 5 ((byteAt f 3).toNat + 1)) % 256 = 0) then some 3
      else if byteAt f (6 + (byteAt f 3).toNat) ≠ s.cfg.post then some 1
      else none : Option Byte) with
    | none => exec (.decode f) s =
        .next { s with ret := .decoded (byteAt f 5) (byteAt f 6) (slice f 7 ((byteAt f 3).toNat - 2)) }
    | some reason => ∃ t, exec (.decode f) s = .next t ∧ t.ok = false ∧ t.err = .responseMismatch ∧ t.errinfo = reason ∧
        t.busy = false ∧ t.sel = false ∧ t.ret = s.ret

/-- DECLEN on five bytes: SHORT and TLEN = 5 + LEN + 2 from the layout, the short one only while QUIRK = 1, else
ResponseMismatch(BadHeader) (R142, R40).

The spec marks as its own what these rules rest on: R142 (D13), R40 (D14). -/
def Obligations.DeclenEffect : Prop :=
  ∀ (h0 h1 h2 h3 h4 : Byte) (s : State),
    (h0 = s.cfg.pre ∧ h1 = s.cfg.pre ∧ h2 = s.cfg.start →
      exec (.declen [h0, h1, h2, h3, h4]) s = .next { s with short := false, tlen := 5 + h3.toNat + 2 }) ∧
    (¬ (h0 = s.cfg.pre ∧ h1 = s.cfg.pre ∧ h2 = s.cfg.start) → h0 = s.cfg.pre ∧ h1 = s.cfg.start → s.mode.getLsbD 0 = true →
      exec (.declen [h0, h1, h2, h3, h4]) s = .next { s with short := true, tlen := 5 + h2.toNat + 2 }) ∧
    (¬ (h0 = s.cfg.pre ∧ h1 = s.cfg.pre ∧ h2 = s.cfg.start) →
      ¬ (h0 = s.cfg.pre ∧ h1 = s.cfg.start ∧ s.mode.getLsbD 0 = true) →
      ∃ t, exec (.declen [h0, h1, h2, h3, h4]) s = .next t ∧ t.ok = false ∧ t.err = .responseMismatch ∧ t.errinfo = 1 ∧
        t.busy = false ∧ t.sel = false ∧ t.short = s.short ∧ t.tlen = s.tlen)

/-- VALIDATE on any bytes returns 1 exactly when LEN is there and not 0, DCS is there, and both checksums hold; nothing else changes
(R143; the value returned is in `ret`, log entry 11).

The spec marks as its own what these rules rest on: R143 (D15). -/
def Obligations.ValidateEffect : Prop :=
  ∀ (f : List Byte) (short : Bool) (s : State) (b : Nat), b = (if short then 2 else 3) →
    exec (.validate f short) s = .next { s with
      ret := .bit (decide (b + 3 ≤ f.length ∧ (byteAt f b).toNat ≠ 0 ∧ b + 3 + (byteAt f b).toNat ≤ f.length ∧
        ((byteAt f b).toNat + (byteAt f (b + 1)).toNat) % 256 = 0 ∧
        byteSum (slice f (b + 2) ((byteAt f b).toNat + 1)) % 256 = 0)) }

/-- ACKCMP returns 1 exactly when all six bytes are those of ACK; nothing else changes (R145; the value returned is in `ret`, log entry
11). -/
def Obligations.AckcmpEffect : Prop :=
  ∀ (a0 a1 a2 a3 a4 a5 : Byte) (s : State),
    exec (.ackcmp [a0, a1, a2, a3, a4, a5]) s = .next { s with
      ret := .bit (a0 == s.cfg.ack[0] && a1 == s.cfg.ack[1] && a2 == s.cfg.ack[2] && a3 == s.cfg.ack[3] && a4 == s.cfg.ack[4] &&
        a5 == s.cfg.ack[5]) }

/-! ### Transport Session: the transactions -/

/-- SELECT appends SEL(1), WAIT(SETTLE); DESELECT appends SEL(0); neither changes anything else (R160, R161). -/
def Obligations.SelectDeselectEffect : Prop :=
  ∀ s : State,
    exec .select s = .next (({ s with sel := true } : State).emit [.sel true, .wait s.cfg.settle]) ∧
    exec .deselect s = .next (({ s with sel := false } : State).emit [.sel false])

/-- WRFRAME n with an n it accepts: select, SPI_DW, the n + 8 bytes of the frame of BUF[0 .. n−1], deselect, in 2 + 24·(n + 9) + 1
events; BUF unchanged; OK = 1 (R162).

The spec marks as its own what these rules rest on: R162 (D8). -/
def Obligations.WrframeEffect : Prop :=
  ∀ (n : Byte) (s : State), s.busy = false → s.cfg.Ok → 1 ≤ n.toNat → n.toNat ≤ s.cfg.cmdmax →
    exec (.wrframe n) s =
      .next ((({ s with
          clk := true, dout := s.cfg.post.getLsbD 7, sel := false, shr := s.cfg.post, bcnt := 8
          cks := runningChecksum s.cfg (s.bufBytes 0 n.toNat), idx := n.toNat + 7, readDone := false } : State).emit
        ([.sel true, .wait s.cfg.settle] ++ writeEvents s.cfg.spiDW ++
          (frameOf s.cfg (s.bufBytes 0 n.toNat)).flatMap writeEvents ++ [.sel false])).succeeded (.wrframe n)) ∧
    (frameEvents s.cfg (s.bufBytes 0 n.toNat)).length = 2 + 24 * (n.toNat + 9) + 1

/-- n outside 1..CMDMAX for WRFRAME, SENDCMD, XCHGF and XCHGV, and r above BUFSZ for RDFIX and XCHGF: Refused(BadOperand) before any
line event (R103), through the failure exit of R240 (RCOUNT: log entry 12). That TSTATE stays as it was is the model's reading of R168
(log entry 29).

The spec marks as its own what these rules rest on: R103 (D30), R240 (D19, D36). -/
def Obligations.BadLengthsRefused : Prop :=
  ∀ (n r : Byte) (s : State), s.busy = false → s.sel = false → s.tstate.inFlight = false →
    (n.toNat < 1 ∨ s.cfg.cmdmax < n.toNat → ∀ i ∈ [Instr.wrframe n, .sendcmd n, .xchgf n r, .xchgv n],
      exec i s = .next (({ s with rcount := 0, readDone := false } : State).failed i .refused 3)) ∧
    (s.cfg.bufsz < r.toNat → ∀ i ∈ [Instr.rdfix r, .xchgf n r],
      exec i s = .next (({ s with rcount := 0, readDone := false } : State).failed i .refused 3))

/-- STATUS: select, SPI_SR, one byte read into STAT, deselect; OK = 1 whatever the byte (R163).

The spec marks as its own what these rules rest on: R163 (D9). -/
def Obligations.StatusEffect : Prop :=
  ∀ s : State, s.busy = false →
    exec .status s =
      .next ((({ s.afterBits 8 with
          clk := true, dout := s.cfg.spiSR.getLsbD 7, sel := false, shr := s.chip 0, bcnt := 8, stat := s.chip 0
          readDone := false } : State).emit
        ([.sel true, .wait s.cfg.settle] ++ writeEvents s.cfg.spiSR ++ readEvents s.cfg (s.chip 0) ++ [.sel false])).succeeded
          .status)

/-- WAITRDY started alone: a CHIP that is ready at the poll after p not-ready ones, p ≤ P = ⌊BUDGET / POLL_INTERVAL⌋, costs p + 1 polls
and p waits; one that is not ready at P + 1 polls gives Timeout(0) right after the last, with no further wait; the polling waits
never exceed BUDGET; one of the two always happens (R164).

The spec marks as its own what these rules rest on: R164 (D10, D12, D35). -/
def Obligations.WaitrdyEffect : Prop :=
  ∀ s : State, s.busy = false → s.cfg.Ok → s.tstate.inFlight = false →
    (∀ p, ReadyAfter s 0 p →
      exec .waitrdy s =
        .next ((({ s.afterBits (8 * (p + 1)) with
            clk := true, dout := s.cfg.spiSR.getLsbD 7, sel := false, shr := s.cfg.ready, bcnt := 8, stat := s.cfg.ready
            elapsed := p * s.cfg.pollInterval, readDone := false } : State).emit
          (waitEvents s.cfg (s.chipBytes 0 (p + 1)))).succeeded .waitrdy)) ∧
    ((∀ j ≤ s.maxWaits, s.chip j ≠ s.cfg.ready) →
      exec .waitrdy s =
        .next ((({ s.afterBits (8 * (s.maxWaits + 1)) with
            clk := true, dout := s.cfg.spiSR.getLsbD 7, sel := false, shr := s.chip s.maxWaits, bcnt := 8
            stat := s.chip s.maxWaits, elapsed := (s.maxWaits + 1) * s.cfg.pollInterval, rcount := 0
            readDone := false } : State).emit
          (waitEvents s.cfg (s.chipBytes 0 (s.maxWaits + 1)))).failed .waitrdy .timeout 0)) ∧
    (∀ k, waitedUnits (waitEvents s.cfg (s.chipBytes 0 (k + 1))) = (k + 1) * s.cfg.settle + k * s.cfg.pollInterval) ∧
    s.maxWaits * s.cfg.pollInterval ≤ s.budget.toNat ∧
    ((∃ p, ReadyAfter s 0 p) ∨ ∀ j ≤ s.maxWaits, s.chip j ≠ s.cfg.ready)

/-- RDACK: select, SPI_DR, six bytes into ACKR, deselect; OK = 1 if they are ACK, else AckMismatch with the least index that
differs; BUF unchanged (R165).

The spec marks as its own what these rules rest on: R165 (D8, D18). -/
def Obligations.RdackEffect : Prop :=
  ∀ s : State, s.busy = false → s.tstate.inFlight = false →
    (s.chipBytes 0 6 = s.cfg.ack.toList →
      exec .rdack s =
        .next ((({ s.afterBits 48 with
            clk := true, dout := s.cfg.spiDR.getLsbD 7, sel := false, shr := s.chip 5, bcnt := 8, ackr := s.cfg.ack
            readDone := false } : State).emit
          ([.sel true, .wait s.cfg.settle] ++ writeEvents s.cfg.spiDR ++
            (s.chipBytes 0 6).flatMap (readEvents s.cfg) ++ [.sel false])).succeeded .rdack)) ∧
    (∀ j : Fin 6, s.chip j ≠ s.cfg.ack[j] → (∀ i : Fin 6, i < j → s.chip i = s.cfg.ack[i]) →
      exec .rdack s =
        .next ((({ s.afterBits 48 with
            clk := true, dout := s.cfg.spiDR.getLsbD 7, sel := false, shr := s.chip 5, bcnt := 8
            ackr := #v[s.chip 0, s.chip 1, s.chip 2, s.chip 3, s.chip 4, s.chip 5], rcount := 0
            readDone := false } : State).emit
          ([.sel true, .wait s.cfg.settle] ++ writeEvents s.cfg.spiDR ++
            (s.chipBytes 0 6).flatMap (readEvents s.cfg) ++ [.sel false])).failed .rdack .ackMismatch (BitVec.ofNat 8 j)))

/-- RDFIX r with r ≤ BUFSZ: select, SPI_DR, r bytes into BUF from index 0, deselect; RCOUNT = r; BUF[r ..] unchanged; OK = 1
(R166).

The spec marks as its own what these rules rest on: R166 (D8, D30). -/
def Obligations.RdfixEffect : Prop :=
  ∀ (r : Byte) (s : State), s.busy = false → r.toNat ≤ s.cfg.bufsz → ∃ t, exec (.rdfix r) s = .next t ∧
    (∀ j, t.bufByte j = if j < r.toNat then s.chip j else s.bufByte j) ∧
    { t with buf := s.buf } =
      (({ s.afterBits (8 * r.toNat) with
          clk := true, dout := s.cfg.spiDR.getLsbD 7, sel := false
          shr := if r.toNat = 0 then s.cfg.spiDR else s.chip (r.toNat - 1), bcnt := 8
          idx := if r.toNat = 0 then s.idx else r.toNat - 1, rcount := r.toNat, readDone := true } : State).emit
        ([.sel true, .wait s.cfg.settle] ++ writeEvents s.cfg.spiDR ++
          (s.chipBytes 0 r.toNat).flatMap (readEvents s.cfg) ++ [.sel false])).succeeded (.rdfix r)

/-- RDVAR, on whatever the CHIP presents: a header in no layout gives BadHeader after five bytes, a length beyond BUFSZ TooLong after
five bytes, both with SEL deasserted by the failure exit; else all TLEN bytes are read and SEL deasserted, and STRICT = 1 with a
frame that does not validate gives BadChecksum; else RCOUNT = TLEN and OK = 1 (R167, R142, R240).

The spec marks as its own what these rules rest on: R167 (D8, D16), R142 (D13), R240 (D19, D36). -/
def Obligations.RdvarEffect : Prop :=
  ∀ s : State, s.busy = false → s.cfg.Ok → s.tstate.inFlight = false → ∃ t, exec .rdvar s = .next t ∧
    match responseLayout s.cfg (s.mode.getLsbD 0) (s.chipBytes 0 5) with
    | none =>
      (∀ j, t.bufByte j = if j < 5 then s.chip j else s.bufByte j) ∧
      { t with buf := s.buf } =
        (({ s.afterBits 40 with
            clk := true, dout := s.cfg.spiDR.getLsbD 7, sel := false, shr := s.chip 4, bcnt := 8, rcount := 0
            readDone := false } : State).emit (readTransaction s.cfg (s.chipBytes 0 5))).failed .rdvar .responseMismatch 1
    | some (short, n) =>
      if s.cfg.bufsz < n then
        (∀ j, t.bufByte j = if j < 5 then s.chip j else s.bufByte j) ∧
        { t with buf := s.buf } =
          (({ s.afterBits 40 with
              clk := true, dout := s.cfg.spiDR.getLsbD 7, sel := false, shr := s.chip 4, bcnt := 8, short := short
              tlen := n, rcount := 0, readDone := false } : State).emit
            (readTransaction s.cfg (s.chipBytes 0 5))).failed .rdvar .responseMismatch 4
      else
        (∀ j, t.bufByte j = if j < n then s.chip j else s.bufByte j) ∧
        { t with buf := s.buf } =
          if s.mode.getLsbD 1 = true ∧ validFrame (s.chipBytes 0 n) short = false then
            (({ s.afterBits (8 * n) with
                clk := true, dout := s.cfg.spiDR.getLsbD 7, sel := false, shr := s.chip (n - 1), bcnt := 8, idx := n - 1
                short := short, tlen := n, rcount := 0, readDone := false } : State).emit
              (readTransaction s.cfg (s.chipBytes 0 n))).failed .rdvar .responseMismatch 3
          else
            (({ s.afterBits (8 * n) with
                clk := true, dout := s.cfg.spiDR.getLsbD 7, sel := false, shr := s.chip (n - 1), bcnt := 8, idx := n - 1
                short := short, tlen := n, rcount := n, readDone := true } : State).emit
              (readTransaction s.cfg (s.chipBytes 0 n))).succeeded .rdvar

/-! ### Transport Session: the exchange -/

/-- SENDCMD n of a command the CHIP answers: the frame, the first wait, the acknowledgement, the second wait with ELAPSED from 0
again; TSTATE ends as Success; BUF and RCOUNT unchanged; OK = 1 (R168, R170).

The spec marks as its own what these rules rest on: R170 (D36). -/
def Obligations.SendcmdEffect : Prop :=
  ∀ (n : Byte) (s : State) (p q : Nat), s.busy = false → s.cfg.Ok → 1 ≤ n.toNat → n.toNat ≤ s.cfg.cmdmax →
    Answered s 0 p q →
    exec (.sendcmd n) s = .next ((s.afterSend (s.bufBytes 0 n.toNat) p q).succeeded (.sendcmd n))

/-- XCHGF n, r of a command the CHIP answers: SENDCMD, then r bytes over the command in BUF; RCOUNT = r, TSTATE = Success, OK = 1
(R169). -/
def Obligations.XchgfEffect : Prop :=
  ∀ (n r : Byte) (s : State) (p q : Nat), s.busy = false → s.cfg.Ok → 1 ≤ n.toNat → n.toNat ≤ s.cfg.cmdmax →
    r.toNat ≤ s.cfg.bufsz → Answered s 0 p q → ∃ t, exec (.xchgf n r) s = .next t ∧
    (∀ j, t.bufByte j = if j < r.toNat then s.chip (p + q + 8 + j) else s.bufByte j) ∧
    { t with buf := s.buf } = (s.afterExchange (s.bufBytes 0 n.toNat) r.toNat p q).succeeded (.xchgf n r)

/-- XCHGV n of a command the CHIP answers with a frame that is accepted: its header is in a layout QUIRK allows, its length fits BUF,
and it validates if STRICT = 1. All of it is over the command in BUF; SHORT and TLEN say how it lies, RCOUNT = TLEN, TSTATE =
Success, OK = 1 (R171, R167).

The spec marks as its own what these rules rest on: R167 (D8, D16). -/
def Obligations.XchgvEffect : Prop :=
  ∀ (n : Byte) (s : State) (p q m : Nat) (short : Bool), s.busy = false → s.cfg.Ok → 1 ≤ n.toNat →
    n.toNat ≤ s.cfg.cmdmax → Answered s 0 p q →
    responseLayout s.cfg (s.mode.getLsbD 0) (s.chipBytes (p + q + 8) 5) = some (short, m) → m ≤ s.cfg.bufsz →
    (s.mode.getLsbD 1 = true → validFrame (s.chipBytes (p + q + 8) m) short = true) → ∃ t, exec (.xchgv n) s = .next t ∧
    (∀ j, t.bufByte j = if j < m then s.chip (p + q + 8 + j) else s.bufByte j) ∧
    { t with buf := s.buf } =
      { (s.afterExchange (s.bufBytes 0 n.toNat) m p q).succeeded (.xchgv n) with short := short, tlen := m }

/-- XCHGV n of a command the CHIP answers with a frame that is not accepted: BadHeader, TooLong or BadChecksum; TSTATE = Failed,
RCOUNT = 0, SEL = 0 (R171, R170, R240).

The spec marks as its own what these rules rest on: R170 (D36), R240 (D19, D36). -/
def Obligations.XchgvRejectedResponse : Prop :=
  ∀ (n : Byte) (s : State) (p q : Nat), s.busy = false → s.cfg.Ok → 1 ≤ n.toNat → n.toNat ≤ s.cfg.cmdmax →
    Answered s 0 p q →
    (responseLayout s.cfg (s.mode.getLsbD 0) (s.chipBytes (p + q + 8) 5) = none → ∃ t, exec (.xchgv n) s = .next t ∧
      t.ok = false ∧ t.err = .responseMismatch ∧ t.errinfo = 1 ∧ t.tstate = .failed ∧ t.rcount = 0 ∧ t.sel = false ∧
      t.hist = s.hist ++ sendEvents s (s.bufBytes 0 n.toNat) 0 p q ++ readTransaction s.cfg (s.chipBytes (p + q + 8) 5)) ∧
    (∀ short m, responseLayout s.cfg (s.mode.getLsbD 0) (s.chipBytes (p + q + 8) 5) = some (short, m) →
      (s.cfg.bufsz < m → ∃ t, exec (.xchgv n) s = .next t ∧
        t.ok = false ∧ t.err = .responseMismatch ∧ t.errinfo = 4 ∧ t.tstate = .failed ∧ t.rcount = 0 ∧ t.sel = false ∧
        t.hist = s.hist ++ sendEvents s (s.bufBytes 0 n.toNat) 0 p q ++ readTransaction s.cfg (s.chipBytes (p + q + 8) 5)) ∧
      (m ≤ s.cfg.bufsz → s.mode.getLsbD 1 = true → validFrame (s.chipBytes (p + q + 8) m) short = false →
        ∃ t, exec (.xchgv n) s = .next t ∧
        t.ok = false ∧ t.err = .responseMismatch ∧ t.errinfo = 3 ∧ t.tstate = .failed ∧ t.rcount = 0 ∧ t.sel = false ∧
        t.hist = s.hist ++ exchangeEvents s (s.bufBytes 0 n.toNat) 0 p q m))

/-- The failures of SENDCMD, alone or in XCHGF or XCHGV: a CHIP not ready in the first wait gives Timeout(1) with no acknowledgement
read, one whose acknowledgement differs from ACK gives AckMismatch with no second wait, one not ready in the second wait gives
Timeout(2) with no response read; BUF unchanged (R168, R239, R240).

The spec marks as its own what these rules rest on: R239 (derived), R240 (D19, D36). -/
def Obligations.ExchangeFailures : Prop :=
  ∀ (n r : Byte) (s : State), s.busy = false → s.cfg.Ok → 1 ≤ n.toNat → n.toNat ≤ s.cfg.cmdmax → r.toNat ≤ s.cfg.bufsz →
    ∀ i ∈ [Instr.sendcmd n, .xchgf n r, .xchgv n],
    ((∀ j ≤ s.maxWaits, s.chip j ≠ s.cfg.ready) →
      exec i s = .next ((s.afterTimeout1 (s.bufBytes 0 n.toNat)).failed i .timeout 1)) ∧
    (∀ p, ReadyAfter s 0 p →
      (∀ j : Fin 6, s.chip (p + 1 + j) ≠ s.cfg.ack[j] → (∀ k : Fin 6, k < j → s.chip (p + 1 + k) = s.cfg.ack[k]) →
        exec i s = .next ((s.afterAckMismatch (s.bufBytes 0 n.toNat) p).failed i .ackMismatch (BitVec.ofNat 8 j))) ∧
      (s.chipBytes (p + 1) 6 = s.cfg.ack.toList → (∀ j ≤ s.maxWaits, s.chip (p + 7 + j) ≠ s.cfg.ready) →
        exec i s = .next ((s.afterTimeout2 (s.bufBytes 0 n.toNat) p).failed i .timeout 2)))

/-- The phases started one by one leave what the composite leaves, event for event, but for TSTATE, which they do not write, and for
OP and ARGS, which name the last phase (R109, R78).

The spec marks as its own what these rules rest on: R109 (derived). -/
def Obligations.PhasesByHandEqualExchange : Prop :=
  ∀ (n r : Byte) (s : State) (p q : Nat), s.busy = false → s.cfg.Ok → 1 ≤ n.toNat → n.toNat ≤ s.cfg.cmdmax →
    r.toNat ≤ s.cfg.bufsz → Answered s 0 p q →
    ∃ t1 t2 t3 t4 t5 t, exec (.wrframe n) s = .next t1 ∧ exec .waitrdy t1 = .next t2 ∧ exec .rdack t2 = .next t3 ∧
      exec .waitrdy t3 = .next t4 ∧ exec (.rdfix r) t4 = .next t5 ∧ exec (.xchgf n r) s = .next t ∧
      { t5 with tstate := t.tstate, op := t.op, args := t.args } = t ∧ t5.tstate = s.tstate

/-! ### Command Catalog: an answered exchange -/

/-- GETFW of a command the CHIP answers: the command OPC_GETFW, RLEN_GETFW bytes read; if the first six are FWSIG, RES32 = bytes 6 to
9, the first the most significant, and OK = 1; if not, ResponseMismatch(BadSignature), RES32 = 0, RCOUNT kept, TSTATE = Success (R192,
R44, R191).

The spec marks as its own what these rules rest on: R191 (derived). -/
def Obligations.GetfwEffect : Prop :=
  ∀ (s : State) (p q : Nat), s.busy = false → s.cfg.Ok → Answered s 0 p q → ∃ t, exec .getfw s = .next t ∧
    (∀ j, t.bufByte j = s.bufAfter [s.cfg.opcGetfw] s.cfg.rlenGetfw (p + q + 8) j) ∧
    { t with buf := s.buf } =
      if s.chipBytes (p + q + 8) 6 = s.cfg.fwsig.toList then
        { (s.afterExchange [s.cfg.opcGetfw] s.cfg.rlenGetfw p q).succeeded .getfw with
          res32 := s.chip (p + q + 14) ++ s.chip (p + q + 15) ++ s.chip (p + q + 16) ++ s.chip (p + q + 17) }
      else { (s.afterExchange [s.cfg.opcGetfw] s.cfg.rlenGetfw p q).failed .getfw .responseMismatch 5 with res32 := 0 }

/-- REGVAL is written by RDREG on success, with byte 0 of the response, the first byte received, which is BUF[0] after the read: no
other operation writes it, nor does an RDREG that fails (R47). RDREG_OFF is 0, the source's offset. -/
def Obligations.RegvalWrittenByRdregOnSuccess : Prop :=
  ∀ s : State, s.busy = false → s.cfg.Ok → s.cfg.rdregOff = 0 →
    (∀ i t, exec i s = .next t → i.name ≠ .rdreg → t.regval = s.regval) ∧
    (∀ addr t, exec (.rdreg addr) s = .next t → t.regval = if t.ok = true then t.bufByte 0 else s.regval) ∧
    (∀ addr p q, Answered s 0 p q → ∃ t, exec (.rdreg addr) s = .next t ∧ t.ok = true ∧ t.bufByte 0 = s.chip (p + q + 8) ∧
      t.regval = s.chip (p + q + 8))

/-- SAMCFG: the command OPC_SAMCFG, SAM_MODE, SAM_TIMEOUT, SAM_IRQ; if byte 5 of the response is SAM_OK, OK = 1 (R193).

The spec marks as its own what these rules rest on: R193 (D20, D22). -/
def Obligations.SamcfgAccepted : Prop :=
  ∀ (s : State) (p q : Nat), s.busy = false → s.cfg.Ok → Answered s 0 p q → s.chip (p + q + 13) = s.cfg.samOk →
    ∃ t, exec .samcfg s = .next t ∧
    (∀ j, t.bufByte j = s.bufAfter [s.cfg.opcSamcfg, s.cfg.samMode, s.cfg.samTimeout, s.cfg.samIrq] s.cfg.rlenSamcfg
      (p + q + 8) j) ∧
    { t with buf := s.buf } =
      (s.afterExchange [s.cfg.opcSamcfg, s.cfg.samMode, s.cfg.samTimeout, s.cfg.samIrq] s.cfg.rlenSamcfg p q).succeeded
        .samcfg

/-- LISTPT of a command the CHIP answers. A count (byte 7) that is not 1: OperationRejected with the count, tested first. A count of 1
and an ID that does not fit BUF: Refused(BufIndex). In both RES32 = 0 and SENS, SELR and IDLEN are unchanged. Else SENS = bytes 9 and
10, SELR = byte 11, IDLEN = L = byte 12, and RES32 = the last four bytes of BUF[13 .. 12 + L] as a number, the first the most
significant; ID bytes past RLEN_LISTPT are what BUF held (R194, R195, R196, R238, R44).

The spec marks as its own what these rules rest on: R194 (D20, D25, D38), R195 (derived), R196 (D38), R238 (derived). -/
def Obligations.ListptEffect : Prop :=
  ∀ (baud : Byte) (s : State) (p q : Nat) (cmd : List Byte) (buf : Nat → Byte),
    cmd = [s.cfg.opcListpt, s.cfg.listMaxtg, baud] → buf = s.bufAfter cmd s.cfg.rlenListpt (p + q + 8) →
    s.busy = false → s.cfg.Ok → Answered s 0 p q → ∃ t, exec (.listpt baud) s = .next t ∧ (∀ j, t.bufByte j = buf j) ∧
    { t with buf := s.buf } =
      if buf 7 ≠ 1 then
        { (s.afterExchange cmd s.cfg.rlenListpt p q).failed (.listpt baud) .operationRejected (buf 7) with res32 := 0 }
      else if s.cfg.bufsz < 13 + (buf 12).toNat then
        { (s.afterExchange cmd s.cfg.rlenListpt p q).failed (.listpt baud) .refused 4 with res32 := 0 }
      else
        { (s.afterExchange cmd s.cfg.rlenListpt p q).succeeded (.listpt baud) with
          sens := buf 9 ++ buf 10, selr := buf 11, idlen := buf 12
          res32 := BitVec.ofNat 32 ((List.range (buf 12).toNat).foldl (fun id i => 256 * id + (buf (13 + i)).toNat) 0) }

/-- A byte on the wire is eight bit cells, cell i carrying bit i (R92): what WRBYTE v appends to HIST is eight cells, each one
low-then-high excursion of CLK with v[i] on DOUT at the rising edge and nothing sampled; what RDBYTE appends is eight cells, each one
such excursion with bit i of the byte sampled from DIN and DOUT left at the level it has. -/
def Obligations.EightCellsPerByte : Prop :=
  ∀ s : State, s.busy = false →
    (∀ v : Byte, ∃ (t : State) (cell : Fin 8 → List Event), exec (.wrbyte v) s = .next t ∧
      t.hist = s.hist ++ (List.ofFn cell).flatten ∧
      ∀ i, (cell i).filter (fun e => e == .clk false || e == .clk true) = [.clk false, .clk true] ∧
        (∀ clk dout, risingEdgeLevels clk dout (cell i) = [v.getLsbD i]) ∧ sampledBits (cell i) = []) ∧
    (∃ (t : State) (cell : Fin 8 → List Event), exec .rdbyte s = .next t ∧ t.hist = s.hist ++ (List.ofFn cell).flatten ∧
      ∀ i, (cell i).filter (fun e => e == .clk false || e == .clk true) = [.clk false, .clk true] ∧
        (∀ clk dout, risingEdgeLevels clk dout (cell i) = [dout]) ∧ sampledBits (cell i) = [t.shr.getLsbD i])

/-- AUTH: the 14 command bytes of R101; if byte 6 is ECHO_DATAEX and byte 7 is 0, OK = 1 (R197).

The spec marks as its own what these rules rest on: R197 (D20). -/
def Obligations.AuthAccepted : Prop :=
  ∀ (tg keysel blk k0 k1 k2 k3 k4 k5 : Byte) (cid : Word) (s : State) (p q : Nat) (i : Instr) (cmd : List Byte),
    i = .auth tg keysel blk [k0, k1, k2, k3, k4, k5] cid →
    cmd = [s.cfg.opcDataex, tg, keysel, blk, k0, k1, k2, k3, k4, k5, cid.extractLsb' 24 8, cid.extractLsb' 16 8,
      cid.extractLsb' 8 8, cid.extractLsb' 0 8] →
    s.busy = false → s.cfg.Ok → Answered s 0 p q → s.chip (p + q + 14) = s.cfg.echoDataex → s.chip (p + q + 15) = 0 →
    ∃ t, exec i s = .next t ∧ (∀ j, t.bufByte j = s.bufAfter cmd s.cfg.rlenAuth (p + q + 8) j) ∧
    { t with buf := s.buf } = (s.afterExchange cmd s.cfg.rlenAuth p q).succeeded i

/-- RDBLK: the command OPC_DATAEX, tg, MF_READ, blk; if byte 6 is ECHO_DATAEX and byte 7 is 0, OUTBLK = bytes 8 to 23 and OK = 1
(R198).

The spec marks as its own what these rules rest on: R198 (D20, D22). -/
def Obligations.RdblkReadsBlock : Prop :=
  ∀ (tg blk : Byte) (s : State) (p q : Nat) (cmd : List Byte), cmd = [s.cfg.opcDataex, tg, s.cfg.mfRead, blk] →
    s.busy = false → s.cfg.Ok → Answered s 0 p q → s.chip (p + q + 14) = s.cfg.echoDataex → s.chip (p + q + 15) = 0 →
    ∃ t, exec (.rdblk tg blk) s = .next t ∧ (∀ j, t.bufByte j = s.bufAfter cmd s.cfg.rlenRdblk (p + q + 8) j) ∧
    { t with buf := s.buf } =
      { (s.afterExchange cmd s.cfg.rlenRdblk p q).succeeded (.rdblk tg blk) with
        outblk := Vector.ofFn fun k => s.chip (p + q + 16 + k) }

/-- WRBLK: the 20 command bytes of R101; if byte 6 is ECHO_DATAEX and byte 7 is 0, OK = 1 (R199).

The spec marks as its own what these rules rest on: R199 (D20, D22). -/
def Obligations.WrblkAccepted : Prop :=
  ∀ (tg blk : Byte) (data : List Byte) (s : State) (p q : Nat) (cmd : List Byte), data.length = 16 →
    cmd = [s.cfg.opcDataex, tg, s.cfg.mfWrite, blk] ++ data →
    s.busy = false → s.cfg.Ok → Answered s 0 p q → s.chip (p + q + 14) = s.cfg.echoDataex → s.chip (p + q + 15) = 0 →
    ∃ t, exec (.wrblk tg blk data) s = .next t ∧ (∀ j, t.bufByte j = s.bufAfter cmd s.cfg.rlenWrblk (p + q + 8) j) ∧
    { t with buf := s.buf } = (s.afterExchange cmd s.cfg.rlenWrblk p q).succeeded (.wrblk tg blk data)

/-- P2PINI: the command OPC_JUMPDEP, P2P_ACTIVE, baud, P2PINI_TAIL; if byte 7 of the response is 0, OK = 1 (R200);
that the length follows P2PINI_TAIL is the model's reading of it (log entry 20).

The spec marks as its own what these rules rest on: R200 (D20, D22). -/
def Obligations.P2piniAccepted : Prop :=
  ∀ (baud : Byte) (s : State) (p q : Nat) (cmd : List Byte),
    cmd = [s.cfg.opcJumpdep, s.cfg.p2pActive, baud] ++ s.cfg.p2piniTail →
    s.busy = false → s.cfg.Ok → Answered s 0 p q → s.chip (p + q + 15) = 0 →
    ∃ t, exec (.p2pini baud) s = .next t ∧ (∀ j, t.bufByte j = s.bufAfter cmd s.cfg.rlenP2pini (p + q + 8) j) ∧
    { t with buf := s.buf } = (s.afterExchange cmd s.cfg.rlenP2pini p q).succeeded (.p2pini baud)

/-- P2PIEX: the command OPC_DATAEX, P2P_TG, the 16 data bytes; if byte 7 of the response is 0, OUTBLK = bytes 8 to 23 and OK = 1; byte
6 is not tested (R201).

The spec marks as its own what these rules rest on: R201 (D20, D26). -/
def Obligations.P2piexExchanges : Prop :=
  ∀ (data : List Byte) (s : State) (p q : Nat) (cmd : List Byte), data.length = 16 →
    cmd = [s.cfg.opcDataex, s.cfg.p2pTg] ++ data →
    s.busy = false → s.cfg.Ok → Answered s 0 p q → s.chip (p + q + 15) = 0 →
    ∃ t, exec (.p2piex data) s = .next t ∧ (∀ j, t.bufByte j = s.bufAfter cmd s.cfg.rlenP2piex (p + q + 8) j) ∧
    { t with buf := s.buf } =
      { (s.afterExchange cmd s.cfg.rlenP2piex p q).succeeded (.p2piex data) with
        outblk := Vector.ofFn fun k => s.chip (p + q + 16 + k) }

/-- P2PTGT: the 38 bytes of TGT_TEMPLATE; if byte 23 of the response is 0, OK = 1 (R202).

The spec marks as its own what these rules rest on: R202 (D20, D22). -/
def Obligations.P2ptgtAccepted : Prop :=
  ∀ (s : State) (p q : Nat), s.busy = false → s.cfg.Ok → Answered s 0 p q → s.chip (p + q + 31) = 0 →
    ∃ t, exec .p2ptgt s = .next t ∧
    (∀ j, t.bufByte j = s.bufAfter s.cfg.tgtTemplate.toList s.cfg.rlenP2ptgt (p + q + 8) j) ∧
    { t with buf := s.buf } = (s.afterExchange s.cfg.tgtTemplate.toList s.cfg.rlenP2ptgt p q).succeeded .p2ptgt

/-- P2PTRS with both legs accepted: the receive leg's command OPC_TGGET, byte 7 of its response 0, OUTBLK = its bytes 8 to 23; then the
send leg's command OPC_TGSET and the 16 data bytes of ARGS, byte 7 of its response 0; RCOUNT is the send leg's, OK = 1 (R203).

The spec marks as its own what these rules rest on: R203 (D20, D34). -/
def Obligations.P2ptrsExchangesBothLegs : Prop :=
  ∀ (data : List Byte) (s u : State) (p q p' q' : Nat), data.length = 16 → s.busy = false → s.cfg.Ok →
    Answered s 0 p q → s.chip (p + q + 15) = 0 → u = s.afterExchange [s.cfg.opcTgget] s.cfg.rlenTgget p q →
    Answered u 0 p' q' → u.chip (p' + q' + 15) = 0 →
    ∃ t, exec (.p2ptrs data) s = .next t ∧
    (∀ j, t.bufByte j =
      if j < s.cfg.rlenTgset then u.chip (p' + q' + 8 + j)
      else if j < 17 then byteAt (s.cfg.opcTgset :: data) j
      else s.bufAfter [s.cfg.opcTgget] s.cfg.rlenTgget (p + q + 8) j) ∧
    { t with buf := s.buf } =
      { (u.afterExchange (s.cfg.opcTgset :: data) s.cfg.rlenTgset p' q').succeeded (.p2ptrs data) with
        outblk := Vector.ofFn fun k => s.chip (p + q + 16 + k) }

/-- P2PTRS with the receive leg rejected (byte 7 not 0): OperationRejected, no send leg, OUTBLK unchanged, RCOUNT the receive leg's.
With the receive leg accepted: the send leg rejected is OperationRejected with its RCOUNT; its first wait timing out is Timeout(1), its
acknowledgement not being ACK AckMismatch with the least index that differs, its second wait timing out Timeout(2), each of these
three with RCOUNT left at the receive leg's count and the send leg's command in BUF; in all four OUTBLK keeps the incoming block
(R203, R240; `readDone` is log entry 12).

The spec marks as its own what these rules rest on: R203 (D20, D34), R240 (D19, D36). -/
def Obligations.P2ptrsRejections : Prop :=
  ∀ (data : List Byte) (s u : State) (p q : Nat) (send : List Byte) (incoming : Vector Byte 16) (staged : Nat → Byte),
    data.length = 16 → s.busy = false → s.cfg.Ok →
    Answered s 0 p q → u = s.afterExchange [s.cfg.opcTgget] s.cfg.rlenTgget p q →
    send = s.cfg.opcTgset :: data → incoming = Vector.ofFn (fun k => s.chip (p + q + 16 + k)) →
    (∀ j, staged j = if j < 17 then byteAt send j else s.bufAfter [s.cfg.opcTgget] s.cfg.rlenTgget (p + q + 8) j) →
    (s.chip (p + q + 15) ≠ 0 → ∃ t, exec (.p2ptrs data) s = .next t ∧
      (∀ j, t.bufByte j = s.bufAfter [s.cfg.opcTgget] s.cfg.rlenTgget (p + q + 8) j) ∧
      { t with buf := s.buf } = u.failed (.p2ptrs data) .operationRejected (s.chip (p + q + 15))) ∧
    (s.chip (p + q + 15) = 0 →
      (∀ p' q', Answered u 0 p' q' → u.chip (p' + q' + 15) ≠ 0 → ∃ t, exec (.p2ptrs data) s = .next t ∧
        (∀ j, t.bufByte j = if j < s.cfg.rlenTgset then u.chip (p' + q' + 8 + j) else staged j) ∧
        { t with buf := s.buf } =
          { (u.afterExchange send s.cfg.rlenTgset p' q').failed (.p2ptrs data) .operationRejected (u.chip (p' + q' + 15)) with
            outblk := incoming }) ∧
      ((∀ j ≤ s.maxWaits, u.chip j ≠ s.cfg.ready) → ∃ t, exec (.p2ptrs data) s = .next t ∧ (∀ j, t.bufByte j = staged j) ∧
        { t with buf := s.buf } =
          { (u.afterTimeout1 send).failed (.p2ptrs data) .timeout 1 with
            outblk := incoming, rcount := s.cfg.rlenTgget, readDone := true }) ∧
      (∀ p', ReadyAfter u 0 p' →
        (∀ k : Fin 6, u.chip (p' + 1 + k) ≠ s.cfg.ack[k] → (∀ m : Fin 6, m < k → u.chip (p' + 1 + m) = s.cfg.ack[m]) →
          ∃ t, exec (.p2ptrs data) s = .next t ∧ (∀ j, t.bufByte j = staged j) ∧
          { t with buf := s.buf } =
            { (u.afterAckMismatch send p').failed (.p2ptrs data) .ackMismatch (BitVec.ofNat 8 k) with
              outblk := incoming, rcount := s.cfg.rlenTgget, readDone := true }) ∧
        (u.chipBytes (p' + 1) 6 = s.cfg.ack.toList → (∀ j ≤ s.maxWaits, u.chip (p' + 7 + j) ≠ s.cfg.ready) →
          ∃ t, exec (.p2ptrs data) s = .next t ∧ (∀ j, t.bufByte j = staged j) ∧
          { t with buf := s.buf } =
            { (u.afterTimeout2 send p').failed (.p2ptrs data) .timeout 2 with
              outblk := incoming, rcount := s.cfg.rlenTgget, readDone := true })))

/-- RDREG: the command OPC_RDREG and the address, high byte first; REGVAL = byte RDREG_OFF of the response, byte 0 where that parameter
has the spec's value; OK = 1 and nothing is tested (R204, R68).

The spec marks as its own what these rules rest on: R204 (D24, D21), R68 (D25). -/
def Obligations.RdregReadsByte : Prop :=
  ∀ (addr : Half) (s : State) (p q : Nat) (cmd : List Byte),
    cmd = [s.cfg.opcRdreg, addr.extractLsb' 8 8, addr.extractLsb' 0 8] →
    s.busy = false → s.cfg.Ok → Answered s 0 p q →
    ∃ t, exec (.rdreg addr) s = .next t ∧ (∀ j, t.bufByte j = s.bufAfter cmd s.cfg.rlenRdreg (p + q + 8) j) ∧
    { t with buf := s.buf } =
      { (s.afterExchange cmd s.cfg.rlenRdreg p q).succeeded (.rdreg addr) with
        regval := s.chip (p + q + 8 + s.cfg.rdregOff) } ∧
    (s.cfg.rdregOff = 0 → t.regval = s.chip (p + q + 8))

/-- WRREG: the command OPC_WRREG, the address, high byte first, and the value; SENDCMD only, no read; BUF keeps the command, RCOUNT is
unchanged, TSTATE = Success, OK = 1 (R205).

The spec marks as its own what these rules rest on: R205 (D23). -/
def Obligations.WrregAcknowledged : Prop :=
  ∀ (addr : Half) (v : Byte) (s : State) (p q : Nat) (cmd : List Byte),
    cmd = [s.cfg.opcWrreg, addr.extractLsb' 8 8, addr.extractLsb' 0 8, v] →
    s.busy = false → s.cfg.Ok → Answered s 0 p q →
    ∃ t, exec (.wrreg addr v) s = .next t ∧ (∀ j, t.bufByte j = if j < 4 then byteAt cmd j else s.bufByte j) ∧
    { t with buf := s.buf } = (s.afterSend cmd p q).succeeded (.wrreg addr v)

/-! ### Command Catalog: rejections and failures -/

/-- The echo, code and status tests of the catalog, in the order of each rule: a byte that fails its test gives OperationRejected
with that byte, TSTATE = Success, RCOUNT the read's count, the results unchanged. SAMCFG tests byte 5; AUTH, RDBLK and WRBLK byte 6
before byte 7; P2PINI and P2PIEX byte 7; P2PTGT byte 23 (R193, R197 to R202, R208, R238, R191).

The spec marks as its own what these rules rest on: R193 (D20, D22), R197 (D20), R198 (D20, D22), R199 (D20, D22), R200 (D20,
D22), R201 (D20, D26), R202 (D20, D22), R208 (D20), R238 (derived), R191 (derived). -/
def Obligations.RejectedResponses : Prop :=
  ∀ (i : Instr) (cmd : List Byte) (r : Nat) (bad : Option Byte) (s : State) (p q : Nat), i.wf = true →
    catalogCommand s.cfg i = some cmd → s.busy = false → s.cfg.Ok → Answered s 0 p q →
    (let echoThenStatus : Option Byte :=
      if s.chip (p + q + 14) ≠ s.cfg.echoDataex then some (s.chip (p + q + 14))
      else if s.chip (p + q + 15) ≠ 0 then some (s.chip (p + q + 15)) else none
    let status (k : Nat) : Option Byte := if s.chip (p + q + 8 + k) ≠ 0 then some (s.chip (p + q + 8 + k)) else none
    match i.name with
    | .samcfg => r = s.cfg.rlenSamcfg ∧
        bad = if s.chip (p + q + 13) ≠ s.cfg.samOk then some (s.chip (p + q + 13)) else none
    | .auth => r = s.cfg.rlenAuth ∧ bad = echoThenStatus
    | .rdblk => r = s.cfg.rlenRdblk ∧ bad = echoThenStatus
    | .wrblk => r = s.cfg.rlenWrblk ∧ bad = echoThenStatus
    | .p2pini => r = s.cfg.rlenP2pini ∧ bad = status 7
    | .p2piex => r = s.cfg.rlenP2piex ∧ bad = status 7
    | .p2ptgt => r = s.cfg.rlenP2ptgt ∧ bad = status 23
    | _ => False) →
    ∀ b, bad = some b → ∃ t, exec i s = .next t ∧ (∀ j, t.bufByte j = s.bufAfter cmd r (p + q + 8) j) ∧
      { t with buf := s.buf } = (s.afterExchange cmd r p q).failed i .operationRejected b

/-- A timeout or an acknowledgement mismatch short-circuits a catalog operation: its command is staged in BUF and sent, nothing after
the failing phase happens, no retry is made, no result is written but RES32 = 0 for GETFW and LISTPT (R206, R190, R44, R239).

The spec marks as its own what these rules rest on: R239 (derived). -/
def Obligations.CatalogFailuresShortCircuit : Prop :=
  ∀ (i : Instr) (cmd : List Byte) (s : State), i.wf = true → catalogCommand s.cfg i = some cmd → s.busy = false → s.cfg.Ok →
    ∃ t, exec i s = .next t ∧
    ((∀ j ≤ s.maxWaits, s.chip j ≠ s.cfg.ready) →
      (∀ j, t.bufByte j = if j < cmd.length then byteAt cmd j else s.bufByte j) ∧
      { t with buf := s.buf } =
        { (s.afterTimeout1 cmd).failed i .timeout 1 with
          res32 := if i.name = .getfw ∨ i.name = .listpt then 0 else s.res32 }) ∧
    (∀ p, ReadyAfter s 0 p →
      (∀ k : Fin 6, s.chip (p + 1 + k) ≠ s.cfg.ack[k] → (∀ m : Fin 6, m < k → s.chip (p + 1 + m) = s.cfg.ack[m]) →
        (∀ j, t.bufByte j = if j < cmd.length then byteAt cmd j else s.bufByte j) ∧
        { t with buf := s.buf } =
          { (s.afterAckMismatch cmd p).failed i .ackMismatch (BitVec.ofNat 8 k) with
            res32 := if i.name = .getfw ∨ i.name = .listpt then 0 else s.res32 }) ∧
      (s.chipBytes (p + 1) 6 = s.cfg.ack.toList → (∀ j ≤ s.maxWaits, s.chip (p + 7 + j) ≠ s.cfg.ready) →
        (∀ j, t.bufByte j = if j < cmd.length then byteAt cmd j else s.bufByte j) ∧
        { t with buf := s.buf } =
          { (s.afterTimeout2 cmd p).failed i .timeout 2 with
            res32 := if i.name = .getfw ∨ i.name = .listpt then 0 else s.res32 }))
end

