-- ==== Sys2Proof/Laws/Codec.lean ====
section
/-! SUPPORT. The laws of the Frame Codec: checksums as numbers, the fields of a frame, validation, the tests of DECODE. -/

namespace Sys2Proof.Machine

/-! ### Sums (R14, R146) -/

theorem sum8_toNat (l : List Byte) : (sum8 l).toNat = byteSum l % 256 := by
  induction l with
  | nil => rfl
  | cons x l ih =>
    simp only [sum8, BitVec.toNat_add, ih, byteSum, List.map_cons, List.sum_cons]
    omega

theorem foldl_add_eq (l : List Byte) (x : Byte) : l.foldl (fun c b => c + b) x = BitVec.ofNat 8 (x.toNat + byteSum l) := by
  induction l generalizing x with
  | nil => simp [byteSum]
  | cons y l ih =>
    rw [List.foldl_cons, ih]
    apply BitVec.eq_of_toNat_eq
    simp [byteSum]
    omega

/-- The running checksum as a number (R141). -/
theorem runningChecksum_eq (c : Config) (cmd : List Byte) :
    runningChecksum c cmd = BitVec.ofNat 8 (byteSum [c.pre, c.pre, c.start] + byteSum (c.dirH2C :: cmd)) := by
  rw [runningChecksum, foldl_add_eq]
  apply BitVec.eq_of_toNat_eq
  simp [byteSum]
  omega

/-- LCS as a number (R140). -/
theorem lcs_eq {cmd : List Byte} (h : cmd.length ≤ 254) : neg8 (lenOf cmd) = BitVec.ofNat 8 (255 - cmd.length) := by
  apply BitVec.eq_of_toNat_eq
  simp [neg8, lenOf]
  omega

/-- DCS as a number (R140). -/
theorem dcs_eq (c : Config) (cmd : List Byte) :
    dcsOf c cmd = BitVec.ofNat 8 (256 - byteSum (c.dirH2C :: cmd) % 256) := by
  apply BitVec.eq_of_toNat_eq
  simp [dcsOf, neg8, sum8_toNat]

theorem encodable_of {cmd : List Byte} (h1 : 1 ≤ cmd.length) (h2 : cmd.length ≤ 254) : encodable cmd = true := by
  simp [encodable]
  omega

/-! ### The fields of a frame (R93) -/

theorem frame_len {c : Config} {cmd : List Byte} (h : cmd.length ≤ 254) :
    (byteAt (frameOf c cmd) 3).toNat = cmd.length + 1 := by
  simp [frameOf, byteAt, lenOf]
  omega

/-- The bytes DCS covers, and DCS. -/
theorem frame_slice (c : Config) (cmd : List Byte) :
    slice (frameOf c cmd) 5 (cmd.length + 2) = c.dirH2C :: (cmd ++ [dcsOf c cmd]) := by
  simp [slice, frameOf, List.take_append]

/-- They sum to 0 modulo 256 (R95). -/
theorem frame_sum (c : Config) (cmd : List Byte) : byteSum (c.dirH2C :: (cmd ++ [dcsOf c cmd])) % 256 = 0 := by
  have h1 : (dcsOf c cmd).toNat = (256 - byteSum (c.dirH2C :: cmd) % 256) % 256 := by simp [dcs_eq]
  have h2 : byteSum (c.dirH2C :: (cmd ++ [dcsOf c cmd])) = byteSum (c.dirH2C :: cmd) + (dcsOf c cmd).toNat := by
    simp [byteSum]
    omega
  omega

theorem frame_post (c : Config) (cmd : List Byte) : byteAt (frameOf c cmd) (6 + (cmd.length + 1)) = c.post := by
  have : (frameOf c cmd)[6 + (cmd.length + 1)]? = some c.post := by
    rw [frameOf, List.getElem?_append_right (by simp; omega)]
    have : 6 + (cmd.length + 1) - ([c.pre, c.pre, c.start, lenOf cmd, neg8 (lenOf cmd), c.dirH2C] ++ cmd).length = 1 := by
      simp
      omega
    rw [this]
    rfl
  simp [byteAt, this]

theorem frame_header (c : Config) (cmd : List Byte) : fullHeader c (frameOf c cmd) = true := by
  simp [fullHeader, frameOf, byteAt]

theorem frame_params (c : Config) {cmd : List Byte} (h : 1 ≤ cmd.length) :
    slice (frameOf c cmd) 7 (cmd.length - 1) = cmd.drop 1 := by
  obtain ⟨x, rest, rfl⟩ : ∃ x rest, cmd = x :: rest := by
    cases cmd with
    | nil => simp at h
    | cons x rest => exact ⟨x, rest, rfl⟩
  simp [slice, frameOf]

/-! ### VALIDATE (R143) -/

theorem add_eq_zero_iff (x y : Byte) : x + y = 0 ↔ (x.toNat + y.toNat) % 256 = 0 := by
  rw [← BitVec.toNat_inj]
  simp

theorem sum8_eq_zero_iff (l : List Byte) : sum8 l = 0 ↔ byteSum l % 256 = 0 := by
  rw [← BitVec.toNat_inj, sum8_toNat]
  simp

/-- Validation in numbers (R143). -/
theorem validFrame_iff (f : List Byte) (short : Bool) (b : Nat) (hb : b = if short then 2 else 3) :
    validFrame f short = true ↔
      (b + 3 ≤ f.length ∧ (byteAt f b).toNat ≠ 0 ∧ b + 3 + (byteAt f b).toNat ≤ f.length ∧
        ((byteAt f b).toNat + (byteAt f (b + 1)).toNat) % 256 = 0 ∧
        byteSum (slice f (b + 2) ((byteAt f b).toNat + 1)) % 256 = 0) := by
  have h0 : byteAt f b = 0 ↔ (byteAt f b).toNat = 0 := by
    rw [← BitVec.toNat_inj]
    simp
  unfold validFrame
  rw [← hb]
  dsimp only
  split_ifs with g1 g2 g3
  · simp only [false_iff]
    omega
  · simp only [false_iff]
    exact fun h => h.2.1 (h0.mp g2)
  · simp only [false_iff]
    omega
  · rw [Bool.and_eq_true, beq_iff_eq, beq_iff_eq, add_eq_zero_iff, sum8_eq_zero_iff]
    exact ⟨fun h => ⟨by omega, fun h' => g2 (h0.mpr h'), by omega, h.1, h.2⟩, fun h => h.2.2.2⟩

theorem frame_valid (c : Config) {cmd : List Byte} (h2 : cmd.length ≤ 254) : validFrame (frameOf c cmd) false = true := by
  have hl : (frameOf c cmd).length = cmd.length + 8 := by simp [frameOf]
  rw [validFrame_iff _ _ 3 rfl, frame_len h2, hl, show cmd.length + 1 + 1 = cmd.length + 2 from rfl, frame_slice, frame_sum]
  refine ⟨by omega, by omega, by omega, ?_, rfl⟩
  show (cmd.length + 1 + (byteAt (frameOf c cmd) 4).toNat) % 256 = 0
  have : (byteAt (frameOf c cmd) 4).toNat = 255 - cmd.length := by
    simp [frameOf, byteAt, lcs_eq h2]
    omega
  omega

/-! ### DECODE (R144) -/

theorem fullHeader_iff (c : Config) (f : List Byte) :
    fullHeader c f = true ↔ byteAt f 0 = c.pre ∧ byteAt f 1 = c.pre ∧ byteAt f 2 = c.start := by
  simp [fullHeader, and_assoc]

theorem shortHeader_iff (c : Config) (f : List Byte) :
    shortHeader c f = true ↔ byteAt f 0 = c.pre ∧ byteAt f 1 = c.start := by
  simp [shortHeader]

/-- The layout DECLEN recognises, as a run (R142). -/
theorem declen_layout (h : List Byte) (s : State) :
    declen h s = match responseLayout s.cfg s.quirk h with
      | some (short, n) => .done { s with short := short, tlen := n }
      | none => .raised (.responseMismatch .badHeader) s := by
  have hf := fullHeader_iff s.cfg h
  have hs := shortHeader_iff s.cfg h
  unfold declen responseLayout
  by_cases h1 : fullHeader s.cfg h = true
  · rw [if_pos h1, if_pos (hf.mp h1)]
  · rw [if_neg h1, if_neg (mt hf.mpr h1)]
    by_cases h2 : shortHeader s.cfg h = true ∧ s.quirk = true
    · rw [if_pos h2, if_pos (by have := hs.mp h2.1; exact ⟨this.1, this.2, h2.2⟩)]
    · rw [if_neg h2, if_neg (by rintro ⟨a, b, c⟩; exact h2 ⟨hs.mpr ⟨a, b⟩, c⟩)]

/-- A layout gives a total length between 7 and 262 (R142). -/
theorem responseLayout_bounds {c : Config} {q : Bool} {h : List Byte} {short : Bool} {n : Nat}
    (hl : responseLayout c q h = some (short, n)) : 7 ≤ n ∧ n ≤ 262 := by
  have h3 := (byteAt h 3).isLt
  have h2 := (byteAt h 2).isLt
  unfold responseLayout at hl
  split_ifs at hl <;> simp only [Option.some.injEq, Prod.mk.injEq] at hl <;> omega

/-- The reason DECODE gives for a byte sequence, or its three results (R144). -/
theorem decodeFrame_frameOf (c : Config) {cmd : List Byte} (h1 : 1 ≤ cmd.length) (h2 : cmd.length ≤ 254) :
    decodeFrame c (frameOf c cmd) = .ok (c.dirH2C, byteAt cmd 0, cmd.drop 1) := by
  have hl : (frameOf c cmd).length = cmd.length + 8 := by simp [frameOf]
  unfold decodeFrame
  simp only [frame_len h2, hl, frame_header, frame_valid c h2, frame_post]
  rw [if_neg (by omega), if_neg (by simp), if_neg (by omega), if_neg (by simp), if_neg (by simp),
    show cmd.length + 1 - 2 = cmd.length - 1 by omega, frame_params c h1]
  have h5 : byteAt (frameOf c cmd) 5 = c.dirH2C := by simp [frameOf, byteAt]
  have h6 : byteAt (frameOf c cmd) 6 = byteAt cmd 0 := by
    cases cmd with
    | nil => simp at h1
    | cons x rest => simp [frameOf, byteAt]
  rw [h5, h6]

end Sys2Proof.Machine
end

