-- ==== Sys2Proof/Laws/State.lean ====
section
/-! SUPPORT. The small laws of State: one lemma per field per named update, each by rfl, and the events of a history as one
append. -/

namespace Sys2Proof.Machine

@[simp] theorem driveClk_cfg (b : Bool) (s : State) : (driveClk b s).cfg = s.cfg := rfl
@[simp] theorem driveClk_clk (b : Bool) (s : State) : (driveClk b s).clk = b := rfl
@[simp] theorem driveClk_dout (b : Bool) (s : State) : (driveClk b s).dout = s.dout := rfl
@[simp] theorem driveClk_sel (b : Bool) (s : State) : (driveClk b s).sel = s.sel := rfl
@[simp] theorem driveClk_shr (b : Bool) (s : State) : (driveClk b s).shr = s.shr := rfl
@[simp] theorem driveClk_bcnt (b : Bool) (s : State) : (driveClk b s).bcnt = s.bcnt := rfl
@[simp] theorem driveClk_cks (b : Bool) (s : State) : (driveClk b s).cks = s.cks := rfl
@[simp] theorem driveClk_idx (b : Bool) (s : State) : (driveClk b s).idx = s.idx := rfl
@[simp] theorem driveClk_tlen (b : Bool) (s : State) : (driveClk b s).tlen = s.tlen := rfl
@[simp] theorem driveClk_ackr (b : Bool) (s : State) : (driveClk b s).ackr = s.ackr := rfl
@[simp] theorem driveClk_elapsed (b : Bool) (s : State) : (driveClk b s).elapsed = s.elapsed := rfl
@[simp] theorem driveClk_op (b : Bool) (s : State) : (driveClk b s).op = s.op := rfl
@[simp] theorem driveClk_busy (b : Bool) (s : State) : (driveClk b s).busy = s.busy := rfl
@[simp] theorem driveClk_tstate (b : Bool) (s : State) : (driveClk b s).tstate = s.tstate := rfl
@[simp] theorem driveClk_args (b : Bool) (s : State) : (driveClk b s).args = s.args := rfl
@[simp] theorem driveClk_ok (b : Bool) (s : State) : (driveClk b s).ok = s.ok := rfl
@[simp] theorem driveClk_err (b : Bool) (s : State) : (driveClk b s).err = s.err := rfl
@[simp] theorem driveClk_errinfo (b : Bool) (s : State) : (driveClk b s).errinfo = s.errinfo := rfl
@[simp] theorem driveClk_short (b : Bool) (s : State) : (driveClk b s).short = s.short := rfl
@[simp] theorem driveClk_stat (b : Bool) (s : State) : (driveClk b s).stat = s.stat := rfl
@[simp] theorem driveClk_budget (b : Bool) (s : State) : (driveClk b s).budget = s.budget := rfl
@[simp] theorem driveClk_mode (b : Bool) (s : State) : (driveClk b s).mode = s.mode := rfl
@[simp] theorem driveClk_buf (b : Bool) (s : State) : (driveClk b s).buf = s.buf := rfl
@[simp] theorem driveClk_res32 (b : Bool) (s : State) : (driveClk b s).res32 = s.res32 := rfl
@[simp] theorem driveClk_outblk (b : Bool) (s : State) : (driveClk b s).outblk = s.outblk := rfl
@[simp] theorem driveClk_sens (b : Bool) (s : State) : (driveClk b s).sens = s.sens := rfl
@[simp] theorem driveClk_selr (b : Bool) (s : State) : (driveClk b s).selr = s.selr := rfl
@[simp] theorem driveClk_idlen (b : Bool) (s : State) : (driveClk b s).idlen = s.idlen := rfl
@[simp] theorem driveClk_regval (b : Bool) (s : State) : (driveClk b s).regval = s.regval := rfl
@[simp] theorem driveClk_rcount (b : Bool) (s : State) : (driveClk b s).rcount = s.rcount := rfl
@[simp] theorem driveClk_trace (b : Bool) (s : State) : (driveClk b s).trace = .clk b :: s.trace := rfl
@[simp] theorem driveClk_readDone (b : Bool) (s : State) : (driveClk b s).readDone = s.readDone := rfl
@[simp] theorem driveClk_ret (b : Bool) (s : State) : (driveClk b s).ret = s.ret := rfl
@[simp] theorem driveClk_epoch (b : Bool) (s : State) : (driveClk b s).epoch = s.epoch := rfl
@[simp] theorem driveClk_din (b : Bool) (s : State) : (driveClk b s).din = s.din := rfl
@[simp] theorem driveClk_draws (b : Bool) (s : State) : (driveClk b s).draws = s.draws := rfl
@[simp] theorem driveClk_host (b : Bool) (s : State) : (driveClk b s).host = s.host := rfl
@[simp] theorem driveClk_hostData (b : Bool) (s : State) : (driveClk b s).hostData = s.hostData := rfl

@[simp] theorem driveDout_cfg (b : Bool) (s : State) : (driveDout b s).cfg = s.cfg := rfl
@[simp] theorem driveDout_clk (b : Bool) (s : State) : (driveDout b s).clk = s.clk := rfl
@[simp] theorem driveDout_dout (b : Bool) (s : State) : (driveDout b s).dout = b := rfl
@[simp] theorem driveDout_sel (b : Bool) (s : State) : (driveDout b s).sel = s.sel := rfl
@[simp] theorem driveDout_shr (b : Bool) (s : State) : (driveDout b s).shr = s.shr := rfl
@[simp] theorem driveDout_bcnt (b : Bool) (s : State) : (driveDout b s).bcnt = s.bcnt := rfl
@[simp] theorem driveDout_cks (b : Bool) (s : State) : (driveDout b s).cks = s.cks := rfl
@[simp] theorem driveDout_idx (b : Bool) (s : State) : (driveDout b s).idx = s.idx := rfl
@[simp] theorem driveDout_tlen (b : Bool) (s : State) : (driveDout b s).tlen = s.tlen := rfl
@[simp] theorem driveDout_ackr (b : Bool) (s : State) : (driveDout b s).ackr = s.ackr := rfl
@[simp] theorem driveDout_elapsed (b : Bool) (s : State) : (driveDout b s).elapsed = s.elapsed := rfl
@[simp] theorem driveDout_op (b : Bool) (s : State) : (driveDout b s).op = s.op := rfl
@[simp] theorem driveDout_busy (b : Bool) (s : State) : (driveDout b s).busy = s.busy := rfl
@[simp] theorem driveDout_tstate (b : Bool) (s : State) : (driveDout b s).tstate = s.tstate := rfl
@[simp] theorem driveDout_args (b : Bool) (s : State) : (driveDout b s).args = s.args := rfl
@[simp] theorem driveDout_ok (b : Bool) (s : State) : (driveDout b s).ok = s.ok := rfl
@[simp] theorem driveDout_err (b : Bool) (s : State) : (driveDout b s).err = s.err := rfl
@[simp] theorem driveDout_errinfo (b : Bool) (s : State) : (driveDout b s).errinfo = s.errinfo := rfl
@[simp] theorem driveDout_short (b : Bool) (s : State) : (driveDout b s).short = s.short := rfl
@[simp] theorem driveDout_stat (b : Bool) (s : State) : (driveDout b s).stat = s.stat := rfl
@[simp] theorem driveDout_budget (b : Bool) (s : State) : (driveDout b s).budget = s.budget := rfl
@[simp] theorem driveDout_mode (b : Bool) (s : State) : (driveDout b s).mode = s.mode := rfl
@[simp] theorem driveDout_buf (b : Bool) (s : State) : (driveDout b s).buf = s.buf := rfl
@[simp] theorem driveDout_res32 (b : Bool) (s : State) : (driveDout b s).res32 = s.res32 := rfl
@[simp] theorem driveDout_outblk (b : Bool) (s : State) : (driveDout b s).outblk = s.outblk := rfl
@[simp] theorem driveDout_sens (b : Bool) (s : State) : (driveDout b s).sens = s.sens := rfl
@[simp] theorem driveDout_selr (b : Bool) (s : State) : (driveDout b s).selr = s.selr := rfl
@[simp] theorem driveDout_idlen (b : Bool) (s : State) : (driveDout b s).idlen = s.idlen := rfl
@[simp] theorem driveDout_regval (b : Bool) (s : State) : (driveDout b s).regval = s.regval := rfl
@[simp] theorem driveDout_rcount (b : Bool) (s : State) : (driveDout b s).rcount = s.rcount := rfl
@[simp] theorem driveDout_trace (b : Bool) (s : State) : (driveDout b s).trace = .dout b :: s.trace := rfl
@[simp] theorem driveDout_readDone (b : Bool) (s : State) : (driveDout b s).readDone = s.readDone := rfl
@[simp] theorem driveDout_ret (b : Bool) (s : State) : (driveDout b s).ret = s.ret := rfl
@[simp] theorem driveDout_epoch (b : Bool) (s : State) : (driveDout b s).epoch = s.epoch := rfl
@[simp] theorem driveDout_din (b : Bool) (s : State) : (driveDout b s).din = s.din := rfl
@[simp] theorem driveDout_draws (b : Bool) (s : State) : (driveDout b s).draws = s.draws := rfl
@[simp] theorem driveDout_host (b : Bool) (s : State) : (driveDout b s).host = s.host := rfl
@[simp] theorem driveDout_hostData (b : Bool) (s : State) : (driveDout b s).hostData = s.hostData := rfl

@[simp] theorem driveSel_cfg (b : Bool) (s : State) : (driveSel b s).cfg = s.cfg := rfl
@[simp] theorem driveSel_clk (b : Bool) (s : State) : (driveSel b s).clk = s.clk := rfl
@[simp] theorem driveSel_dout (b : Bool) (s : State) : (driveSel b s).dout = s.dout := rfl
@[simp] theorem driveSel_sel (b : Bool) (s : State) : (driveSel b s).sel = b := rfl
@[simp] theorem driveSel_shr (b : Bool) (s : State) : (driveSel b s).shr = s.shr := rfl
@[simp] theorem driveSel_bcnt (b : Bool) (s : State) : (driveSel b s).bcnt = s.bcnt := rfl
@[simp] theorem driveSel_cks (b : Bool) (s : State) : (driveSel b s).cks = s.cks := rfl
@[simp] theorem driveSel_idx (b : Bool) (s : State) : (driveSel b s).idx = s.idx := rfl
@[simp] theorem driveSel_tlen (b : Bool) (s : State) : (driveSel b s).tlen = s.tlen := rfl
@[simp] theorem driveSel_ackr (b : Bool) (s : State) : (driveSel b s).ackr = s.ackr := rfl
@[simp] theorem driveSel_elapsed (b : Bool) (s : State) : (driveSel b s).elapsed = s.elapsed := rfl
@[simp] theorem driveSel_op (b : Bool) (s : State) : (driveSel b s).op = s.op := rfl
@[simp] theorem driveSel_busy (b : Bool) (s : State) : (driveSel b s).busy = s.busy := rfl
@[simp] theorem driveSel_tstate (b : Bool) (s : State) : (driveSel b s).tstate = s.tstate := rfl
@[simp] theorem driveSel_args (b : Bool) (s : State) : (driveSel b s).args = s.args := rfl
@[simp] theorem driveSel_ok (b : Bool) (s : State) : (driveSel b s).ok = s.ok := rfl
@[simp] theorem driveSel_err (b : Bool) (s : State) : (driveSel b s).err = s.err := rfl
@[simp] theorem driveSel_errinfo (b : Bool) (s : State) : (driveSel b s).errinfo = s.errinfo := rfl
@[simp] theorem driveSel_short (b : Bool) (s : State) : (driveSel b s).short = s.short := rfl
@[simp] theorem driveSel_stat (b : Bool) (s : State) : (driveSel b s).stat = s.stat := rfl
@[simp] theorem driveSel_budget (b : Bool) (s : State) : (driveSel b s).budget = s.budget := rfl
@[simp] theorem driveSel_mode (b : Bool) (s : State) : (driveSel b s).mode = s.mode := rfl
@[simp] theorem driveSel_buf (b : Bool) (s : State) : (driveSel b s).buf = s.buf := rfl
@[simp] theorem driveSel_res32 (b : Bool) (s : State) : (driveSel b s).res32 = s.res32 := rfl
@[simp] theorem driveSel_outblk (b : Bool) (s : State) : (driveSel b s).outblk = s.outblk := rfl
@[simp] theorem driveSel_sens (b : Bool) (s : State) : (driveSel b s).sens = s.sens := rfl
@[simp] theorem driveSel_selr (b : Bool) (s : State) : (driveSel b s).selr = s.selr := rfl
@[simp] theorem driveSel_idlen (b : Bool) (s : State) : (driveSel b s).idlen = s.idlen := rfl
@[simp] theorem driveSel_regval (b : Bool) (s : State) : (driveSel b s).regval = s.regval := rfl
@[simp] theorem driveSel_rcount (b : Bool) (s : State) : (driveSel b s).rcount = s.rcount := rfl
@[simp] theorem driveSel_trace (b : Bool) (s : State) : (driveSel b s).trace = .sel b :: s.trace := rfl
@[simp] theorem driveSel_readDone (b : Bool) (s : State) : (driveSel b s).readDone = s.readDone := rfl
@[simp] theorem driveSel_ret (b : Bool) (s : State) : (driveSel b s).ret = s.ret := rfl
@[simp] theorem driveSel_epoch (b : Bool) (s : State) : (driveSel b s).epoch = s.epoch := rfl
@[simp] theorem driveSel_din (b : Bool) (s : State) : (driveSel b s).din = s.din := rfl
@[simp] theorem driveSel_draws (b : Bool) (s : State) : (driveSel b s).draws = s.draws := rfl
@[simp] theorem driveSel_host (b : Bool) (s : State) : (driveSel b s).host = s.host := rfl
@[simp] theorem driveSel_hostData (b : Bool) (s : State) : (driveSel b s).hostData = s.hostData := rfl

@[simp] theorem waitUnits_cfg (n : Nat) (s : State) : (waitUnits n s).cfg = s.cfg := rfl
@[simp] theorem waitUnits_clk (n : Nat) (s : State) : (waitUnits n s).clk = s.clk := rfl
@[simp] theorem waitUnits_dout (n : Nat) (s : State) : (waitUnits n s).dout = s.dout := rfl
@[simp] theorem waitUnits_sel (n : Nat) (s : State) : (waitUnits n s).sel = s.sel := rfl
@[simp] theorem waitUnits_shr (n : Nat) (s : State) : (waitUnits n s).shr = s.shr := rfl
@[simp] theorem waitUnits_bcnt (n : Nat) (s : State) : (waitUnits n s).bcnt = s.bcnt := rfl
@[simp] theorem waitUnits_cks (n : Nat) (s : State) : (waitUnits n s).cks = s.cks := rfl
@[simp] theorem waitUnits_idx (n : Nat) (s : State) : (waitUnits n s).idx = s.idx := rfl
@[simp] theorem waitUnits_tlen (n : Nat) (s : State) : (waitUnits n s).tlen = s.tlen := rfl
@[simp] theorem waitUnits_ackr (n : Nat) (s : State) : (waitUnits n s).ackr = s.ackr := rfl
@[simp] theorem waitUnits_elapsed (n : Nat) (s : State) : (waitUnits n s).elapsed = s.elapsed := rfl
@[simp] theorem waitUnits_op (n : Nat) (s : State) : (waitUnits n s).op = s.op := rfl
@[simp] theorem waitUnits_busy (n : Nat) (s : State) : (waitUnits n s).busy = s.busy := rfl
@[simp] theorem waitUnits_tstate (n : Nat) (s : State) : (waitUnits n s).tstate = s.tstate := rfl
@[simp] theorem waitUnits_args (n : Nat) (s : State) : (waitUnits n s).args = s.args := rfl
@[simp] theorem waitUnits_ok (n : Nat) (s : State) : (waitUnits n s).ok = s.ok := rfl
@[simp] theorem waitUnits_err (n : Nat) (s : State) : (waitUnits n s).err = s.err := rfl
@[simp] theorem waitUnits_errinfo (n : Nat) (s : State) : (waitUnits n s).errinfo = s.errinfo := rfl
@[simp] theorem waitUnits_short (n : Nat) (s : State) : (waitUnits n s).short = s.short := rfl
@[simp] theorem waitUnits_stat (n : Nat) (s : State) : (waitUnits n s).stat = s.stat := rfl
@[simp] theorem waitUnits_budget (n : Nat) (s : State) : (waitUnits n s).budget = s.budget := rfl
@[simp] theorem waitUnits_mode (n : Nat) (s : State) : (waitUnits n s).mode = s.mode := rfl
@[simp] theorem waitUnits_buf (n : Nat) (s : State) : (waitUnits n s).buf = s.buf := rfl
@[simp] theorem waitUnits_res32 (n : Nat) (s : State) : (waitUnits n s).res32 = s.res32 := rfl
@[simp] theorem waitUnits_outblk (n : Nat) (s : State) : (waitUnits n s).outblk = s.outblk := rfl
@[simp] theorem waitUnits_sens (n : Nat) (s : State) : (waitUnits n s).sens = s.sens := rfl
@[simp] theorem waitUnits_selr (n : Nat) (s : State) : (waitUnits n s).selr = s.selr := rfl
@[simp] theorem waitUnits_idlen (n : Nat) (s : State) : (waitUnits n s).idlen = s.idlen := rfl
@[simp] theorem waitUnits_regval (n : Nat) (s : State) : (waitUnits n s).regval = s.regval := rfl
@[simp] theorem waitUnits_rcount (n : Nat) (s : State) : (waitUnits n s).rcount = s.rcount := rfl
@[simp] theorem waitUnits_trace (n : Nat) (s : State) : (waitUnits n s).trace = .wait n :: s.trace := rfl
@[simp] theorem waitUnits_readDone (n : Nat) (s : State) : (waitUnits n s).readDone = s.readDone := rfl
@[simp] theorem waitUnits_ret (n : Nat) (s : State) : (waitUnits n s).ret = s.ret := rfl
@[simp] theorem waitUnits_epoch (n : Nat) (s : State) : (waitUnits n s).epoch = s.epoch := rfl
@[simp] theorem waitUnits_din (n : Nat) (s : State) : (waitUnits n s).din = s.din := rfl
@[simp] theorem waitUnits_draws (n : Nat) (s : State) : (waitUnits n s).draws = s.draws := rfl
@[simp] theorem waitUnits_host (n : Nat) (s : State) : (waitUnits n s).host = s.host := rfl
@[simp] theorem waitUnits_hostData (n : Nat) (s : State) : (waitUnits n s).hostData = s.hostData := rfl

@[simp] theorem afterBits_cfg (k : Nat) (s : State) : (s.afterBits k).cfg = s.cfg := rfl
@[simp] theorem afterBits_clk (k : Nat) (s : State) : (s.afterBits k).clk = s.clk := rfl
@[simp] theorem afterBits_dout (k : Nat) (s : State) : (s.afterBits k).dout = s.dout := rfl
@[simp] theorem afterBits_sel (k : Nat) (s : State) : (s.afterBits k).sel = s.sel := rfl
@[simp] theorem afterBits_shr (k : Nat) (s : State) : (s.afterBits k).shr = s.shr := rfl
@[simp] theorem afterBits_bcnt (k : Nat) (s : State) : (s.afterBits k).bcnt = s.bcnt := rfl
@[simp] theorem afterBits_cks (k : Nat) (s : State) : (s.afterBits k).cks = s.cks := rfl
@[simp] theorem afterBits_idx (k : Nat) (s : State) : (s.afterBits k).idx = s.idx := rfl
@[simp] theorem afterBits_tlen (k : Nat) (s : State) : (s.afterBits k).tlen = s.tlen := rfl
@[simp] theorem afterBits_ackr (k : Nat) (s : State) : (s.afterBits k).ackr = s.ackr := rfl
@[simp] theorem afterBits_elapsed (k : Nat) (s : State) : (s.afterBits k).elapsed = s.elapsed := rfl
@[simp] theorem afterBits_op (k : Nat) (s : State) : (s.afterBits k).op = s.op := rfl
@[simp] theorem afterBits_busy (k : Nat) (s : State) : (s.afterBits k).busy = s.busy := rfl
@[simp] theorem afterBits_tstate (k : Nat) (s : State) : (s.afterBits k).tstate = s.tstate := rfl
@[simp] theorem afterBits_args (k : Nat) (s : State) : (s.afterBits k).args = s.args := rfl
@[simp] theorem afterBits_ok (k : Nat) (s : State) : (s.afterBits k).ok = s.ok := rfl
@[simp] theorem afterBits_err (k : Nat) (s : State) : (s.afterBits k).err = s.err := rfl
@[simp] theorem afterBits_errinfo (k : Nat) (s : State) : (s.afterBits k).errinfo = s.errinfo := rfl
@[simp] theorem afterBits_short (k : Nat) (s : State) : (s.afterBits k).short = s.short := rfl
@[simp] theorem afterBits_stat (k : Nat) (s : State) : (s.afterBits k).stat = s.stat := rfl
@[simp] theorem afterBits_budget (k : Nat) (s : State) : (s.afterBits k).budget = s.budget := rfl
@[simp] theorem afterBits_mode (k : Nat) (s : State) : (s.afterBits k).mode = s.mode := rfl
@[simp] theorem afterBits_buf (k : Nat) (s : State) : (s.afterBits k).buf = s.buf := rfl
@[simp] theorem afterBits_res32 (k : Nat) (s : State) : (s.afterBits k).res32 = s.res32 := rfl
@[simp] theorem afterBits_outblk (k : Nat) (s : State) : (s.afterBits k).outblk = s.outblk := rfl
@[simp] theorem afterBits_sens (k : Nat) (s : State) : (s.afterBits k).sens = s.sens := rfl
@[simp] theorem afterBits_selr (k : Nat) (s : State) : (s.afterBits k).selr = s.selr := rfl
@[simp] theorem afterBits_idlen (k : Nat) (s : State) : (s.afterBits k).idlen = s.idlen := rfl
@[simp] theorem afterBits_regval (k : Nat) (s : State) : (s.afterBits k).regval = s.regval := rfl
@[simp] theorem afterBits_rcount (k : Nat) (s : State) : (s.afterBits k).rcount = s.rcount := rfl
@[simp] theorem afterBits_trace (k : Nat) (s : State) : (s.afterBits k).trace = s.trace := rfl
@[simp] theorem afterBits_readDone (k : Nat) (s : State) : (s.afterBits k).readDone = s.readDone := rfl
@[simp] theorem afterBits_ret (k : Nat) (s : State) : (s.afterBits k).ret = s.ret := rfl
@[simp] theorem afterBits_epoch (k : Nat) (s : State) : (s.afterBits k).epoch = s.epoch := rfl
@[simp] theorem afterBits_din (k : Nat) (s : State) : (s.afterBits k).din = s.din.drop k := rfl
@[simp] theorem afterBits_draws (k : Nat) (s : State) : (s.afterBits k).draws = s.draws + (k - s.din.length) := rfl
@[simp] theorem afterBits_host (k : Nat) (s : State) : (s.afterBits k).host = s.host := rfl
@[simp] theorem afterBits_hostData (k : Nat) (s : State) : (s.afterBits k).hostData = s.hostData := rfl

@[simp] theorem setTState_cfg (t : TState) (s : State) : (setTState t s).cfg = s.cfg := rfl
@[simp] theorem setTState_clk (t : TState) (s : State) : (setTState t s).clk = s.clk := rfl
@[simp] theorem setTState_dout (t : TState) (s : State) : (setTState t s).dout = s.dout := rfl
@[simp] theorem setTState_sel (t : TState) (s : State) : (setTState t s).sel = s.sel := rfl
@[simp] theorem setTState_shr (t : TState) (s : State) : (setTState t s).shr = s.shr := rfl
@[simp] theorem setTState_bcnt (t : TState) (s : State) : (setTState t s).bcnt = s.bcnt := rfl
@[simp] theorem setTState_cks (t : TState) (s : State) : (setTState t s).cks = s.cks := rfl
@[simp] theorem setTState_idx (t : TState) (s : State) : (setTState t s).idx = s.idx := rfl
@[simp] theorem setTState_tlen (t : TState) (s : State) : (setTState t s).tlen = s.tlen := rfl
@[simp] theorem setTState_ackr (t : TState) (s : State) : (setTState t s).ackr = s.ackr := rfl
@[simp] theorem setTState_elapsed (t : TState) (s : State) : (setTState t s).elapsed = s.elapsed := rfl
@[simp] theorem setTState_op (t : TState) (s : State) : (setTState t s).op = s.op := rfl
@[simp] theorem setTState_busy (t : TState) (s : State) : (setTState t s).busy = s.busy := rfl
@[simp] theorem setTState_tstate (t : TState) (s : State) : (setTState t s).tstate = t := rfl
@[simp] theorem setTState_args (t : TState) (s : State) : (setTState t s).args = s.args := rfl
@[simp] theorem setTState_ok (t : TState) (s : State) : (setTState t s).ok = s.ok := rfl
@[simp] theorem setTState_err (t : TState) (s : State) : (setTState t s).err = s.err := rfl
@[simp] theorem setTState_errinfo (t : TState) (s : State) : (setTState t s).errinfo = s.errinfo := rfl
@[simp] theorem setTState_short (t : TState) (s : State) : (setTState t s).short = s.short := rfl
@[simp] theorem setTState_stat (t : TState) (s : State) : (setTState t s).stat = s.stat := rfl
@[simp] theorem setTState_budget (t : TState) (s : State) : (setTState t s).budget = s.budget := rfl
@[simp] theorem setTState_mode (t : TState) (s : State) : (setTState t s).mode = s.mode := rfl
@[simp] theorem setTState_buf (t : TState) (s : State) : (setTState t s).buf = s.buf := rfl
@[simp] theorem setTState_res32 (t : TState) (s : State) : (setTState t s).res32 = s.res32 := rfl
@[simp] theorem setTState_outblk (t : TState) (s : State) : (setTState t s).outblk = s.outblk := rfl
@[simp] theorem setTState_sens (t : TState) (s : State) : (setTState t s).sens = s.sens := rfl
@[simp] theorem setTState_selr (t : TState) (s : State) : (setTState t s).selr = s.selr := rfl
@[simp] theorem setTState_idlen (t : TState) (s : State) : (setTState t s).idlen = s.idlen := rfl
@[simp] theorem setTState_regval (t : TState) (s : State) : (setTState t s).regval = s.regval := rfl
@[simp] theorem setTState_rcount (t : TState) (s : State) : (setTState t s).rcount = s.rcount := rfl
@[simp] theorem setTState_trace (t : TState) (s : State) : (setTState t s).trace = s.trace := rfl
@[simp] theorem setTState_readDone (t : TState) (s : State) : (setTState t s).readDone = s.readDone := rfl
@[simp] theorem setTState_ret (t : TState) (s : State) : (setTState t s).ret = s.ret := rfl
@[simp] theorem setTState_epoch (t : TState) (s : State) : (setTState t s).epoch = s.epoch := rfl
@[simp] theorem setTState_din (t : TState) (s : State) : (setTState t s).din = s.din := rfl
@[simp] theorem setTState_draws (t : TState) (s : State) : (setTState t s).draws = s.draws := rfl
@[simp] theorem setTState_host (t : TState) (s : State) : (setTState t s).host = s.host := rfl
@[simp] theorem setTState_hostData (t : TState) (s : State) : (setTState t s).hostData = s.hostData := rfl

@[simp] theorem completeRead_cfg (n : Nat) (s : State) : (completeRead n s).cfg = s.cfg := rfl
@[simp] theorem completeRead_clk (n : Nat) (s : State) : (completeRead n s).clk = s.clk := rfl
@[simp] theorem completeRead_dout (n : Nat) (s : State) : (completeRead n s).dout = s.dout := rfl
@[simp] theorem completeRead_sel (n : Nat) (s : State) : (completeRead n s).sel = s.sel := rfl
@[simp] theorem completeRead_shr (n : Nat) (s : State) : (completeRead n s).shr = s.shr := rfl
@[simp] theorem completeRead_bcnt (n : Nat) (s : State) : (completeRead n s).bcnt = s.bcnt := rfl
@[simp] theorem completeRead_cks (n : Nat) (s : State) : (completeRead n s).cks = s.cks := rfl
@[simp] theorem completeRead_idx (n : Nat) (s : State) : (completeRead n s).idx = s.idx := rfl
@[simp] theorem completeRead_tlen (n : Nat) (s : State) : (completeRead n s).tlen = s.tlen := rfl
@[simp] theorem completeRead_ackr (n : Nat) (s : State) : (completeRead n s).ackr = s.ackr := rfl
@[simp] theorem completeRead_elapsed (n : Nat) (s : State) : (completeRead n s).elapsed = s.elapsed := rfl
@[simp] theorem completeRead_op (n : Nat) (s : State) : (completeRead n s).op = s.op := rfl
@[simp] theorem completeRead_busy (n : Nat) (s : State) : (completeRead n s).busy = s.busy := rfl
@[simp] theorem completeRead_tstate (n : Nat) (s : State) : (completeRead n s).tstate = s.tstate := rfl
@[simp] theorem completeRead_args (n : Nat) (s : State) : (completeRead n s).args = s.args := rfl
@[simp] theorem completeRead_ok (n : Nat) (s : State) : (completeRead n s).ok = s.ok := rfl
@[simp] theorem completeRead_err (n : Nat) (s : State) : (completeRead n s).err = s.err := rfl
@[simp] theorem completeRead_errinfo (n : Nat) (s : State) : (completeRead n s).errinfo = s.errinfo := rfl
@[simp] theorem completeRead_short (n : Nat) (s : State) : (completeRead n s).short = s.short := rfl
@[simp] theorem completeRead_stat (n : Nat) (s : State) : (completeRead n s).stat = s.stat := rfl
@[simp] theorem completeRead_budget (n : Nat) (s : State) : (completeRead n s).budget = s.budget := rfl
@[simp] theorem completeRead_mode (n : Nat) (s : State) : (completeRead n s).mode = s.mode := rfl
@[simp] theorem completeRead_buf (n : Nat) (s : State) : (completeRead n s).buf = s.buf := rfl
@[simp] theorem completeRead_res32 (n : Nat) (s : State) : (completeRead n s).res32 = s.res32 := rfl
@[simp] theorem completeRead_outblk (n : Nat) (s : State) : (completeRead n s).outblk = s.outblk := rfl
@[simp] theorem completeRead_sens (n : Nat) (s : State) : (completeRead n s).sens = s.sens := rfl
@[simp] theorem completeRead_selr (n : Nat) (s : State) : (completeRead n s).selr = s.selr := rfl
@[simp] theorem completeRead_idlen (n : Nat) (s : State) : (completeRead n s).idlen = s.idlen := rfl
@[simp] theorem completeRead_regval (n : Nat) (s : State) : (completeRead n s).regval = s.regval := rfl
@[simp] theorem completeRead_rcount (n : Nat) (s : State) : (completeRead n s).rcount = n := rfl
@[simp] theorem completeRead_trace (n : Nat) (s : State) : (completeRead n s).trace = s.trace := rfl
@[simp] theorem completeRead_readDone (n : Nat) (s : State) : (completeRead n s).readDone = true := rfl
@[simp] theorem completeRead_ret (n : Nat) (s : State) : (completeRead n s).ret = s.ret := rfl
@[simp] theorem completeRead_epoch (n : Nat) (s : State) : (completeRead n s).epoch = s.epoch := rfl
@[simp] theorem completeRead_din (n : Nat) (s : State) : (completeRead n s).din = s.din := rfl
@[simp] theorem completeRead_draws (n : Nat) (s : State) : (completeRead n s).draws = s.draws := rfl
@[simp] theorem completeRead_host (n : Nat) (s : State) : (completeRead n s).host = s.host := rfl
@[simp] theorem completeRead_hostData (n : Nat) (s : State) : (completeRead n s).hostData = s.hostData := rfl

@[simp] theorem latch_cfg (i : Instr) (s : State) : (latch i s).cfg = s.cfg := rfl
@[simp] theorem latch_clk (i : Instr) (s : State) : (latch i s).clk = s.clk := rfl
@[simp] theorem latch_dout (i : Instr) (s : State) : (latch i s).dout = s.dout := rfl
@[simp] theorem latch_sel (i : Instr) (s : State) : (latch i s).sel = s.sel := rfl
@[simp] theorem latch_shr (i : Instr) (s : State) : (latch i s).shr = s.shr := rfl
@[simp] theorem latch_bcnt (i : Instr) (s : State) : (latch i s).bcnt = s.bcnt := rfl
@[simp] theorem latch_cks (i : Instr) (s : State) : (latch i s).cks = s.cks := rfl
@[simp] theorem latch_idx (i : Instr) (s : State) : (latch i s).idx = s.idx := rfl
@[simp] theorem latch_tlen (i : Instr) (s : State) : (latch i s).tlen = s.tlen := rfl
@[simp] theorem latch_ackr (i : Instr) (s : State) : (latch i s).ackr = s.ackr := rfl
@[simp] theorem latch_elapsed (i : Instr) (s : State) : (latch i s).elapsed = s.elapsed := rfl
@[simp] theorem latch_op (i : Instr) (s : State) : (latch i s).op = some i.name := rfl
@[simp] theorem latch_busy (i : Instr) (s : State) : (latch i s).busy = true := rfl
@[simp] theorem latch_tstate (i : Instr) (s : State) : (latch i s).tstate = s.tstate := rfl
@[simp] theorem latch_args (i : Instr) (s : State) : (latch i s).args = i.operandBytes := rfl
@[simp] theorem latch_ok (i : Instr) (s : State) : (latch i s).ok = s.ok := rfl
@[simp] theorem latch_err (i : Instr) (s : State) : (latch i s).err = s.err := rfl
@[simp] theorem latch_errinfo (i : Instr) (s : State) : (latch i s).errinfo = s.errinfo := rfl
@[simp] theorem latch_short (i : Instr) (s : State) : (latch i s).short = s.short := rfl
@[simp] theorem latch_stat (i : Instr) (s : State) : (latch i s).stat = s.stat := rfl
@[simp] theorem latch_budget (i : Instr) (s : State) : (latch i s).budget = s.budget := rfl
@[simp] theorem latch_mode (i : Instr) (s : State) : (latch i s).mode = s.mode := rfl
@[simp] theorem latch_buf (i : Instr) (s : State) : (latch i s).buf = s.buf := rfl
@[simp] theorem latch_res32 (i : Instr) (s : State) : (latch i s).res32 = s.res32 := rfl
@[simp] theorem latch_outblk (i : Instr) (s : State) : (latch i s).outblk = s.outblk := rfl
@[simp] theorem latch_sens (i : Instr) (s : State) : (latch i s).sens = s.sens := rfl
@[simp] theorem latch_selr (i : Instr) (s : State) : (latch i s).selr = s.selr := rfl
@[simp] theorem latch_idlen (i : Instr) (s : State) : (latch i s).idlen = s.idlen := rfl
@[simp] theorem latch_regval (i : Instr) (s : State) : (latch i s).regval = s.regval := rfl
@[simp] theorem latch_rcount (i : Instr) (s : State) : (latch i s).rcount = s.rcount := rfl
@[simp] theorem latch_trace (i : Instr) (s : State) : (latch i s).trace = s.trace := rfl
@[simp] theorem latch_readDone (i : Instr) (s : State) : (latch i s).readDone = false := rfl
@[simp] theorem latch_ret (i : Instr) (s : State) : (latch i s).ret = s.ret := rfl
@[simp] theorem latch_epoch (i : Instr) (s : State) : (latch i s).epoch = s.epoch := rfl
@[simp] theorem latch_din (i : Instr) (s : State) : (latch i s).din = s.din := rfl
@[simp] theorem latch_draws (i : Instr) (s : State) : (latch i s).draws = s.draws := rfl
@[simp] theorem latch_host (i : Instr) (s : State) : (latch i s).host = s.host := rfl
@[simp] theorem latch_hostData (i : Instr) (s : State) : (latch i s).hostData = s.hostData := rfl

@[simp] theorem successExit_cfg (s : State) : (successExit s).cfg = s.cfg := rfl
@[simp] theorem successExit_clk (s : State) : (successExit s).clk = s.clk := rfl
@[simp] theorem successExit_dout (s : State) : (successExit s).dout = s.dout := rfl
@[simp] theorem successExit_sel (s : State) : (successExit s).sel = s.sel := rfl
@[simp] theorem successExit_shr (s : State) : (successExit s).shr = s.shr := rfl
@[simp] theorem successExit_bcnt (s : State) : (successExit s).bcnt = s.bcnt := rfl
@[simp] theorem successExit_cks (s : State) : (successExit s).cks = s.cks := rfl
@[simp] theorem successExit_idx (s : State) : (successExit s).idx = s.idx := rfl
@[simp] theorem successExit_tlen (s : State) : (successExit s).tlen = s.tlen := rfl
@[simp] theorem successExit_ackr (s : State) : (successExit s).ackr = s.ackr := rfl
@[simp] theorem successExit_elapsed (s : State) : (successExit s).elapsed = s.elapsed := rfl
@[simp] theorem successExit_op (s : State) : (successExit s).op = s.op := rfl
@[simp] theorem successExit_busy (s : State) : (successExit s).busy = false := rfl
@[simp] theorem successExit_tstate (s : State) : (successExit s).tstate = s.tstate := rfl
@[simp] theorem successExit_args (s : State) : (successExit s).args = s.args := rfl
@[simp] theorem successExit_ok (s : State) : (successExit s).ok = true := rfl
@[simp] theorem successExit_err (s : State) : (successExit s).err = .none := rfl
@[simp] theorem successExit_errinfo (s : State) : (successExit s).errinfo = 0 := rfl
@[simp] theorem successExit_short (s : State) : (successExit s).short = s.short := rfl
@[simp] theorem successExit_stat (s : State) : (successExit s).stat = s.stat := rfl
@[simp] theorem successExit_budget (s : State) : (successExit s).budget = s.budget := rfl
@[simp] theorem successExit_mode (s : State) : (successExit s).mode = s.mode := rfl
@[simp] theorem successExit_buf (s : State) : (successExit s).buf = s.buf := rfl
@[simp] theorem successExit_res32 (s : State) : (successExit s).res32 = s.res32 := rfl
@[simp] theorem successExit_outblk (s : State) : (successExit s).outblk = s.outblk := rfl
@[simp] theorem successExit_sens (s : State) : (successExit s).sens = s.sens := rfl
@[simp] theorem successExit_selr (s : State) : (successExit s).selr = s.selr := rfl
@[simp] theorem successExit_idlen (s : State) : (successExit s).idlen = s.idlen := rfl
@[simp] theorem successExit_regval (s : State) : (successExit s).regval = s.regval := rfl
@[simp] theorem successExit_rcount (s : State) : (successExit s).rcount = s.rcount := rfl
@[simp] theorem successExit_trace (s : State) : (successExit s).trace = s.trace := rfl
@[simp] theorem successExit_readDone (s : State) : (successExit s).readDone = s.readDone := rfl
@[simp] theorem successExit_ret (s : State) : (successExit s).ret = s.ret := rfl
@[simp] theorem successExit_epoch (s : State) : (successExit s).epoch = s.epoch := rfl
@[simp] theorem successExit_din (s : State) : (successExit s).din = s.din := rfl
@[simp] theorem successExit_draws (s : State) : (successExit s).draws = s.draws := rfl
@[simp] theorem successExit_host (s : State) : (successExit s).host = s.host := rfl
@[simp] theorem successExit_hostData (s : State) : (successExit s).hostData = s.hostData := rfl

@[simp] theorem emit_cfg (s : State) (evs : List Event) : (s.emit evs).cfg = s.cfg := rfl
@[simp] theorem emit_clk (s : State) (evs : List Event) : (s.emit evs).clk = s.clk := rfl
@[simp] theorem emit_dout (s : State) (evs : List Event) : (s.emit evs).dout = s.dout := rfl
@[simp] theorem emit_sel (s : State) (evs : List Event) : (s.emit evs).sel = s.sel := rfl
@[simp] theorem emit_shr (s : State) (evs : List Event) : (s.emit evs).shr = s.shr := rfl
@[simp] theorem emit_bcnt (s : State) (evs : List Event) : (s.emit evs).bcnt = s.bcnt := rfl
@[simp] theorem emit_cks (s : State) (evs : List Event) : (s.emit evs).cks = s.cks := rfl
@[simp] theorem emit_idx (s : State) (evs : List Event) : (s.emit evs).idx = s.idx := rfl
@[simp] theorem emit_tlen (s : State) (evs : List Event) : (s.emit evs).tlen = s.tlen := rfl
@[simp] theorem emit_ackr (s : State) (evs : List Event) : (s.emit evs).ackr = s.ackr := rfl
@[simp] theorem emit_elapsed (s : State) (evs : List Event) : (s.emit evs).elapsed = s.elapsed := rfl
@[simp] theorem emit_op (s : State) (evs : List Event) : (s.emit evs).op = s.op := rfl
@[simp] theorem emit_busy (s : State) (evs : List Event) : (s.emit evs).busy = s.busy := rfl
@[simp] theorem emit_tstate (s : State) (evs : List Event) : (s.emit evs).tstate = s.tstate := rfl
@[simp] theorem emit_args (s : State) (evs : List Event) : (s.emit evs).args = s.args := rfl
@[simp] theorem emit_ok (s : State) (evs : List Event) : (s.emit evs).ok = s.ok := rfl
@[simp] theorem emit_err (s : State) (evs : List Event) : (s.emit evs).err = s.err := rfl
@[simp] theorem emit_errinfo (s : State) (evs : List Event) : (s.emit evs).errinfo = s.errinfo := rfl
@[simp] theorem emit_short (s : State) (evs : List Event) : (s.emit evs).short = s.short := rfl
@[simp] theorem emit_stat (s : State) (evs : List Event) : (s.emit evs).stat = s.stat := rfl
@[simp] theorem emit_budget (s : State) (evs : List Event) : (s.emit evs).budget = s.budget := rfl
@[simp] theorem emit_mode (s : State) (evs : List Event) : (s.emit evs).mode = s.mode := rfl
@[simp] theorem emit_buf (s : State) (evs : List Event) : (s.emit evs).buf = s.buf := rfl
@[simp] theorem emit_res32 (s : State) (evs : List Event) : (s.emit evs).res32 = s.res32 := rfl
@[simp] theorem emit_outblk (s : State) (evs : List Event) : (s.emit evs).outblk = s.outblk := rfl
@[simp] theorem emit_sens (s : State) (evs : List Event) : (s.emit evs).sens = s.sens := rfl
@[simp] theorem emit_selr (s : State) (evs : List Event) : (s.emit evs).selr = s.selr := rfl
@[simp] theorem emit_idlen (s : State) (evs : List Event) : (s.emit evs).idlen = s.idlen := rfl
@[simp] theorem emit_regval (s : State) (evs : List Event) : (s.emit evs).regval = s.regval := rfl
@[simp] theorem emit_rcount (s : State) (evs : List Event) : (s.emit evs).rcount = s.rcount := rfl
@[simp] theorem emit_trace (s : State) (evs : List Event) : (s.emit evs).trace = evs.reverse ++ s.trace := rfl
@[simp] theorem emit_readDone (s : State) (evs : List Event) : (s.emit evs).readDone = s.readDone := rfl
@[simp] theorem emit_ret (s : State) (evs : List Event) : (s.emit evs).ret = s.ret := rfl
@[simp] theorem emit_epoch (s : State) (evs : List Event) : (s.emit evs).epoch = s.epoch := rfl
@[simp] theorem emit_din (s : State) (evs : List Event) : (s.emit evs).din = s.din := rfl
@[simp] theorem emit_draws (s : State) (evs : List Event) : (s.emit evs).draws = s.draws := rfl
@[simp] theorem emit_host (s : State) (evs : List Event) : (s.emit evs).host = s.host := rfl
@[simp] theorem emit_hostData (s : State) (evs : List Event) : (s.emit evs).hostData = s.hostData := rfl


/-! ### Histories -/

@[simp] theorem emit_nil (s : State) : s.emit [] = s := rfl

@[simp] theorem emit_emit (s : State) (a b : List Event) : (s.emit a).emit b = s.emit (a ++ b) := by
  simp [State.emit]

@[simp] theorem hist_emit (s : State) (a : List Event) : (s.emit a).hist = s.hist ++ a := by
  simp [State.emit, State.hist]

theorem driveClk_eq (b : Bool) (s : State) : driveClk b s = ({ s with clk := b } : State).emit [.clk b] := rfl

theorem driveDout_eq (b : Bool) (s : State) : driveDout b s = ({ s with dout := b } : State).emit [.dout b] := rfl

theorem driveSel_eq (b : Bool) (s : State) : driveSel b s = ({ s with sel := b } : State).emit [.sel b] := rfl

theorem waitUnits_eq (n : Nat) (s : State) : waitUnits n s = s.emit [.wait n] := rfl

/-- A history grows by exactly the events one emits. -/
theorem hist_of_trace {s t : State} {evs : List Event} (h : t.trace = evs.reverse ++ s.trace) : t.hist = s.hist ++ evs := by
  simp [State.hist, h]

/-! ### Running on -/

@[simp] theorem Run.andThen_done (s : State) (k : State → Run) : (Run.done s).andThen k = k s := rfl

@[simp] theorem Run.andThen_raised (e : Raise) (s : State) (k : State → Run) :
    (Run.raised e s).andThen k = .raised e s := rfl

@[simp] theorem Run.state_done (s : State) : (Run.done s).state = s := rfl

@[simp] theorem Run.state_raised (e : Raise) (s : State) : (Run.raised e s).state = s := rfl

theorem Run.andThen_assoc (r : Run) (f g : State → Run) :
    (r.andThen f).andThen g = r.andThen fun s => (f s).andThen g := by
  cases r <;> rfl

/-- What a run followed by more ends in: the rest ran, or the first part raised. -/
theorem Run.andThen_cases {r : Run} {k : State → Run} {q : Run} (h : r.andThen k = q) :
    (∃ s, r = .done s ∧ k s = q) ∨ (∃ e s, r = .raised e s ∧ q = .raised e s) := by
  cases r with
  | done s => exact .inl ⟨s, rfl, h⟩
  | raised e s => exact .inr ⟨e, s, rfl, h.symm⟩

theorem needBuf_of_le {hi : Nat} {s : State} (h : hi ≤ s.cfg.bufsz) (k : State → Run) : needBuf hi s k = k s :=
  if_pos h

theorem needBuf_of_gt {hi : Nat} {s : State} (h : s.cfg.bufsz < hi) (k : State → Run) :
    needBuf hi s k = .raised (.refused .bufIndex) s :=
  if_neg (by omega)

end Sys2Proof.Machine
end

