-- ==== Sys2Proof/Laws/Memory.lean ====
section
/-! SUPPORT. The laws of BUF: a read after a write, what a write leaves alone, and the canonical form. -/

namespace Sys2Proof.Machine

/-! ### One byte -/

@[simp] theorem Memory.get_put_same (m : Memory) (i : Nat) (v : Byte) : Memory.get (Memory.put m i v) i = some v := by
  induction m with
  | nil => simp [Memory.put, Memory.get]
  | cons c rest ih =>
    obtain ⟨a, w⟩ := c
    simp only [Memory.put]
    split_ifs with h1 h2
    · simp [Memory.get]
    · simp [Memory.get]
    · simp [Memory.get, Ne.symm h2, ih]

theorem Memory.get_put_other (m : Memory) (i j : Nat) (v : Byte) (h : j ≠ i) :
    Memory.get (Memory.put m i v) j = Memory.get m j := by
  induction m with
  | nil => simp [Memory.put, Memory.get, h.symm]
  | cons c rest ih =>
    obtain ⟨a, w⟩ := c
    simp only [Memory.put]
    split_ifs with h1 h2
    · simp [Memory.get, h.symm]
    · subst h2; simp [Memory.get, h.symm]
    · simp only [Memory.get, ih]

/-- The indexes listed after a write: the one written and those listed before. -/
theorem Memory.mem_put {m : Memory} {i : Nat} {v : Byte} {c : Host.Cell} (h : c ∈ Memory.put m i v) :
    c.1 = i ∨ c ∈ m := by
  induction m with
  | nil => simp [Memory.put] at h; simp [h]
  | cons d rest ih =>
    obtain ⟨a, w⟩ := d
    simp only [Memory.put] at h
    split_ifs at h with h1 h2
    · rcases List.mem_cons.mp h with h | h
      · left; rw [h]
      · exact .inr h
    · rcases List.mem_cons.mp h with h | h
      · left; rw [h]
      · exact .inr (List.mem_cons_of_mem _ h)
    · rcases List.mem_cons.mp h with h | h
      · exact .inr (h ▸ List.mem_cons_self ..)
      · exact (ih h).imp id (List.mem_cons_of_mem _)

/-- A write keeps the canonical form. -/
theorem Memory.put_wf {m : Memory} (h : Memory.wf m) (i : Nat) (v : Byte) : Memory.wf (Memory.put m i v) := by
  induction m with
  | nil => simp [Memory.put, Memory.wf]
  | cons c rest ih =>
    obtain ⟨a, w⟩ := c
    have hr := List.pairwise_cons.mp h
    simp only [Memory.put]
    split_ifs with h1 h2
    · refine List.pairwise_cons.mpr ⟨?_, h⟩
      intro d hd
      rcases List.mem_cons.mp hd with hd | hd
      · simp [hd, h1]
      · exact h1.trans (hr.1 d hd)
    · subst h2
      exact List.pairwise_cons.mpr ⟨hr.1, hr.2⟩
    · refine List.pairwise_cons.mpr ⟨?_, ih hr.2⟩
      intro d hd
      rcases Memory.mem_put hd with hd | hd
      · simp only [hd]; omega
      · exact hr.1 d hd

/-! ### Sequences -/

/-- A sequence written to BUF changes BUF and nothing else. -/
theorem putBytes_eq (s : State) (addr : Nat) (bytes : List Byte) :
    s.putBytes addr bytes = { s with buf := (s.putBytes addr bytes).buf } := by
  induction bytes generalizing s addr with
  | nil => rfl
  | cons b rest ih => rw [State.putBytes, ih]

/-- BUF after a sequence is written depends on BUF before only. -/
theorem putBytes_buf_congr {s t : State} (h : s.buf = t.buf) (addr : Nat) (bytes : List Byte) :
    (s.putBytes addr bytes).buf = (t.putBytes addr bytes).buf := by
  induction bytes generalizing s t addr with
  | nil => exact h
  | cons b rest ih => rw [State.putBytes, State.putBytes]; exact ih (by simp [h]) _

theorem bufByte_congr {s t : State} (h : s.buf = t.buf) (he : s.epoch = t.epoch) : s.bufByte = t.bufByte := by
  funext i; simp [State.bufByte, h, he]

theorem bufByte_put (s : State) (i j : Nat) (v : Byte) :
    ({ s with buf := Memory.put s.buf i v } : State).bufByte j = if j = i then v else s.bufByte j := by
  by_cases h : j = i
  · subst h; simp [State.bufByte]
  · simp [State.bufByte, Memory.get_put_other _ _ _ _ h, h]

/-- A byte of BUF after a sequence is written: the sequence's where it lies, the old one elsewhere. -/
theorem bufByte_putBytes (s : State) (addr : Nat) (bytes : List Byte) (j : Nat) :
    (s.putBytes addr bytes).bufByte j =
      if addr ≤ j ∧ j < addr + bytes.length then byteAt bytes (j - addr) else s.bufByte j := by
  induction bytes generalizing s addr with
  | nil => simp [State.putBytes]
  | cons b rest ih =>
    rw [State.putBytes, ih]
    simp only [bufByte_put, List.length_cons]
    by_cases h1 : j = addr
    · subst h1; simp [byteAt]
    · by_cases h2 : addr + 1 ≤ j ∧ j < addr + 1 + rest.length
      · rw [if_pos h2, if_pos (by omega)]
        have : j - addr = (j - (addr + 1)) + 1 := by omega
        rw [this]; simp [byteAt]
      · rw [if_neg h2, if_neg h1, if_neg (by omega)]

/-- A sequence written within BUFSZ keeps BUF canonical and within its size. -/
theorem putBytes_bufOk {s : State} (h : s.BufOk) (addr : Nat) (bytes : List Byte)
    (hb : addr + bytes.length ≤ s.cfg.bufsz) : (s.putBytes addr bytes).BufOk := by
  induction bytes generalizing s addr with
  | nil => exact h
  | cons b rest ih =>
    rw [State.putBytes]
    apply ih
    · refine ⟨Memory.put_wf h.1 _ _, fun c hc => ?_⟩
      rcases Memory.mem_put hc with hc | hc
      · simp only [List.length_cons] at hb; simp only [hc]; omega
      · exact h.2 c hc
    · simp only [List.length_cons] at hb; simp only; omega

theorem putBytes_putBytes (s : State) (addr : Nat) (a b : List Byte) :
    (s.putBytes addr a).putBytes (addr + a.length) b = s.putBytes addr (a ++ b) := by
  induction a generalizing s addr with
  | nil => rfl
  | cons x rest ih =>
    simp only [State.putBytes, List.cons_append, List.length_cons]
    rw [← ih, show addr + (rest.length + 1) = addr + 1 + rest.length by omega]

@[simp] theorem bufBytes_length (s : State) (addr n : Nat) : (s.bufBytes addr n).length = n := by
  simp [State.bufBytes]

theorem byteAt_bufBytes (s : State) (addr n k : Nat) (h : k < n) : byteAt (s.bufBytes addr n) k = s.bufByte (addr + k) := by
  simp [byteAt, State.bufBytes, h]

/-- Reading back a sequence just written. -/
theorem bufBytes_putBytes (s : State) (addr : Nat) (bytes : List Byte) :
    (s.putBytes addr bytes).bufBytes addr bytes.length = bytes := by
  apply List.ext_getElem (by simp)
  intro k h1 h2
  simp only [State.bufBytes, List.getElem_map, List.getElem_range, bufByte_putBytes]
  rw [if_pos (by omega)]
  simp [byteAt, h2]

/-- What MemWrite does: written, or refused beyond BUFSZ with nothing written (R15, R82). -/
theorem memWrite_cases (addr : Nat) (bytes : List Byte) (s : State) :
    (addr + bytes.length ≤ s.cfg.bufsz ∧ memWrite addr bytes s = .done (s.putBytes addr bytes)) ∨
    (s.cfg.bufsz < addr + bytes.length ∧ memWrite addr bytes s = .raised (.refused .bufIndex) s) := by
  by_cases h : addr + bytes.length ≤ s.cfg.bufsz
  · exact .inl ⟨h, needBuf_of_le h _⟩
  · exact .inr ⟨by omega, needBuf_of_gt (by omega) _⟩

theorem memWrite_of_le {addr : Nat} {bytes : List Byte} {s : State} (h : addr + bytes.length ≤ s.cfg.bufsz) :
    memWrite addr bytes s = .done (s.putBytes addr bytes) :=
  needBuf_of_le h _

end Sys2Proof.Machine
end

