-- ==== Sys2Proof/Laws/Link.lean ====
section
/-! SUPPORT. The laws of the Bit Link: what WRBYTE and RDBYTE leave, as one closed form each, and the CHIP's byte stream. -/

namespace Sys2Proof.Machine

/-! ### The CHIP's stream -/

theorem dinBit_congr {s t : State} (h : t.din = s.din) (hd : t.draws = s.draws) : t.dinBit = s.dinBit := by
  funext k; simp [State.dinBit, h, hd]

theorem chip_congr {s t : State} (h : t.din = s.din) (hd : t.draws = s.draws) : t.chip = s.chip := by
  funext k; simp only [State.chip, dinBit_congr h hd]

theorem dinBit_afterBits (s : State) (k j : Nat) : (s.afterBits k).dinBit j = s.dinBit (k + j) := by
  simp only [State.dinBit, State.afterBits, List.getElem?_drop, List.length_drop]
  cases h : s.din[k + j]? with
  | some b => rfl
  | none =>
    have : s.din.length ≤ k + j := List.getElem?_eq_none_iff.mp h
    simp only
    congr 1
    omega

theorem afterBits_afterBits (s : State) (k j : Nat) : (s.afterBits k).afterBits j = s.afterBits (k + j) := by
  simp only [State.afterBits, List.drop_drop, List.length_drop]
  congr 1
  omega

theorem chip_afterBits (s : State) (k j : Nat) : (s.afterBits (8 * k)).chip j = s.chip (k + j) := by
  simp only [State.chip, dinBit_afterBits]
  congr 1
  funext i
  congr 1
  omega

@[simp] theorem afterBits_zero (s : State) : s.afterBits 0 = s := by
  simp [State.afterBits]

/-- After `k` bytes have been read, the CHIP's stream is that of before, `k` bytes on. -/
theorem chip_of_drop {s t : State} {k : Nat} (h : t.din = s.din.drop (8 * k))
    (hd : t.draws = s.draws + (8 * k - s.din.length)) (j : Nat) : t.chip j = s.chip (k + j) := by
  rw [← chip_afterBits]
  exact congrFun (chip_congr (by simp [h]) (by simp [hd])) j

@[simp] theorem chipBytes_length (s : State) (k n : Nat) : (s.chipBytes k n).length = n := by
  simp [State.chipBytes]

theorem chipBytes_succ (s : State) (k n : Nat) : s.chipBytes k (n + 1) = s.chip k :: s.chipBytes (k + 1) n := by
  simp only [State.chipBytes, List.range_succ_eq_map, List.map_cons, List.map_map, Nat.add_zero]
  congr 1
  apply List.map_congr_left
  intro j _
  simp only [Function.comp]
  congr 1
  omega

@[simp] theorem chipBytes_zero (s : State) (k : Nat) : s.chipBytes k 0 = [] := rfl

theorem chipBytes_add (s : State) (k m n : Nat) : s.chipBytes k (m + n) = s.chipBytes k m ++ s.chipBytes (k + m) n := by
  induction m generalizing k with
  | zero => simp
  | succ m ih =>
    rw [show m + 1 + n = m + n + 1 by omega, chipBytes_succ, ih, chipBytes_succ, List.cons_append,
      show k + 1 + m = k + (m + 1) by omega]

theorem byteAt_chipBytes (s : State) (k n j : Nat) (h : j < n) : byteAt (s.chipBytes k n) j = s.chip (k + j) := by
  simp [byteAt, State.chipBytes, h]

/-- The stream read in another state that is `d` bytes further on. -/
theorem chipBytes_of_shift {s t : State} {d : Nat} (h : ∀ j, t.chip j = s.chip (d + j)) (k n : Nat) :
    t.chipBytes k n = s.chipBytes (d + k) n := by
  simp only [State.chipBytes, h]
  apply List.map_congr_left
  intro j _
  congr 1
  omega

/-! ### WRBYTE and RDBYTE -/

theorem range_eight : List.range 8 = [0, 1, 2, 3, 4, 5, 6, 7] := by decide

/-- WRBYTE: what it leaves (R130). -/
theorem wrbyte_eq (v : Byte) (s : State) :
    wrbyte v s =
      ({ s with shr := v, bcnt := 8, clk := true, dout := v.getLsbD 7 } : State).emit (writeEvents v) := by
  simp [wrbyte, range_eight, writeCell, driveClk, driveDout, State.emit, writeEvents]

theorem setBits_eq_byteOfBits (b : Nat → Bool) :
    setBit (setBit (setBit (setBit (setBit (setBit (setBit (setBit 0 0 (b 0)) 1 (b 1)) 2 (b 2)) 3 (b 3)) 4 (b 4)) 5 (b 5)) 6
      (b 6)) 7 (b 7) = byteOfBits b := by
  unfold byteOfBits
  generalize b 0 = b0; generalize b 1 = b1; generalize b 2 = b2; generalize b 3 = b3
  generalize b 4 = b4; generalize b 5 = b5; generalize b 6 = b6; generalize b 7 = b7
  revert b0 b1 b2 b3 b4 b5 b6 b7
  decide +kernel

theorem byteOfBits_getLsbD (b : Nat → Bool) (i : Nat) (h : i < 8) : (byteOfBits b).getLsbD i = b i := by
  unfold byteOfBits
  rcases (by omega : i = 0 ∨ i = 1 ∨ i = 2 ∨ i = 3 ∨ i = 4 ∨ i = 5 ∨ i = 6 ∨ i = 7) with h | h | h | h | h | h | h | h <;>
    subst h <;>
    (generalize b 0 = b0; generalize b 1 = b1; generalize b 2 = b2; generalize b 3 = b3
     generalize b 4 = b4; generalize b 5 = b5; generalize b 6 = b6; generalize b 7 = b7
     revert b0 b1 b2 b3 b4 b5 b6 b7
     decide +kernel)

theorem chip_zero (s : State) : s.chip 0 = byteOfBits s.dinBit := by
  simp [State.chip]

theorem readEvents_chip (s : State) :
    readEvents s.cfg (s.chip 0) = (List.range 8).flatMap fun i => readCellEvents s.cfg (s.dinBit i) := by
  unfold readEvents
  apply List.flatMap_congr
  intro i hi
  rw [chip_zero, byteOfBits_getLsbD _ _ (by simpa using hi)]

/-- One read cell, whichever its order of events (R131, D7). -/
theorem readCell_eq (s : State) (i : Nat) :
    readCell s i =
      ({ s.afterBits 1 with shr := setBit s.shr i (s.dinBit 0), bcnt := i + 1, clk := true } : State).emit
        (readCellEvents s.cfg (s.dinBit 0)) := by
  unfold readCell readCellEvents
  split_ifs <;> rfl

theorem readCell_step (s : State) (k n : Nat) (v : Byte) (c : Bool) (e : List Event) :
    readCell (({ s.afterBits k with shr := v, bcnt := n, clk := c } : State).emit e) k =
      ({ s.afterBits (k + 1) with shr := setBit v k (s.dinBit k), bcnt := k + 1, clk := true } : State).emit
        (e ++ readCellEvents s.cfg (s.dinBit k)) := by
  have hb : (({ s.afterBits k with shr := v, bcnt := n, clk := c } : State).emit e).dinBit 0 = s.dinBit k :=
    dinBit_afterBits s k 0
  have ha := afterBits_afterBits s k 1
  simp only [State.afterBits, State.mk.injEq] at ha
  rw [readCell_eq, hb]
  simp [State.emit, State.afterBits, State.mk.injEq]
  omega

/-- RDBYTE: what it leaves (R131). -/
theorem rdbyte_eq (s : State) :
    rdbyte s =
      ({ s.afterBits 8 with shr := s.chip 0, bcnt := 8, clk := true } : State).emit (readEvents s.cfg (s.chip 0)) := by
  have h0 : ({ s with shr := 0, bcnt := 0 } : State) =
      ({ s.afterBits 0 with shr := 0, bcnt := 0, clk := s.clk } : State).emit [] := by
    simp
  rw [readEvents_chip, chip_zero, ← setBits_eq_byteOfBits]
  simp only [rdbyte, range_eight, List.foldl_cons, List.foldl_nil]
  rw [h0]
  iterate 8 rw [readCell_step]
  simp

theorem chip_rdbyte (s : State) (j : Nat) : (rdbyte s).chip j = s.chip (j + 1) := by
  rw [Nat.add_comm]
  exact chip_of_drop (k := 1) (by simp [rdbyte_eq]) (by simp [rdbyte_eq]) j

/-- A chip script is read back byte by byte (R75). -/
theorem wireBits_length (v : Byte) : (wireBits v).length = 8 := by simp [wireBits]

theorem byteOfBits_self (v : Byte) : byteOfBits (fun i => v.getLsbD i) = v := by
  apply BitVec.eq_of_getLsbD_eq
  intro i hi
  rw [byteOfBits_getLsbD _ _ hi]

theorem chip_script {s : State} {bytes : List Byte} {rest : List Bool} (h : s.din = script bytes ++ rest) (k : Nat)
    (hk : k < bytes.length) : s.chip k = bytes[k] := by
  induction k generalizing s bytes with
  | zero =>
    obtain ⟨v, tail, rfl⟩ : ∃ v tail, bytes = v :: tail := by
      cases bytes with
      | nil => simp at hk
      | cons v tail => exact ⟨v, tail, rfl⟩
    rw [chip_zero, List.getElem_cons_zero, ← byteOfBits_self v]
    have hw : ∀ i < 8, s.dinBit i = v.getLsbD i := by
      intro i hi
      have : s.din[i]? = some (v.getLsbD i) := by
        rw [h, script, List.flatMap_cons, List.append_assoc, List.getElem?_append_left (by simp [wireBits_length, hi])]
        simp [wireBits, hi]
      simp [State.dinBit, this]
    simp only [byteOfBits, hw 0 (by omega), hw 1 (by omega), hw 2 (by omega), hw 3 (by omega), hw 4 (by omega),
      hw 5 (by omega), hw 6 (by omega), hw 7 (by omega)]
  | succ k ih =>
    obtain ⟨v, tail, rfl⟩ : ∃ v tail, bytes = v :: tail := by
      cases bytes with
      | nil => simp at hk
      | cons v tail => exact ⟨v, tail, rfl⟩
    have ht : (s.afterBits 8).din = script tail ++ rest := by
      simp only [afterBits_din, h, script, List.flatMap_cons, List.append_assoc]
      rw [← wireBits_length v, List.drop_left]
    have e := chip_afterBits s 1 k
    rw [Nat.add_comm 1 k] at e
    rw [← e]
    exact ih ht (by simpa using hk)

end Sys2Proof.Machine
end

