-- ==== Sys2Proof/Laws/Transport.lean ====
section
/-! SUPPORT. The laws of the Transport Session: for each transaction, everything it can do, as closed forms. -/

namespace Sys2Proof.Machine

theorem select_eq (s : State) : select s = ({ s with sel := true } : State).emit (selectEvents s.cfg) := rfl

theorem deselect_eq (s : State) : deselect s = ({ s with sel := false } : State).emit [.sel false] := rfl

/-! ### WRFRAME -/

theorem sendBytes_eq (bs : List Byte) (b : Byte) (k : Nat) (s : State) :
    sendBytes (bs ++ [b]) k s =
      ({ s with idx := k + bs.length, shr := b, bcnt := 8, clk := true, dout := b.getLsbD 7 } : State).emit
        ((bs ++ [b]).flatMap writeEvents) := by
  induction bs generalizing k s with
  | nil => simp [sendBytes, wrbyte_eq]
  | cons x rest ih =>
    rw [List.cons_append, sendBytes, ih, wrbyte_eq]
    simp [State.emit]
    omega

theorem frameOf_length (c : Config) (cmd : List Byte) : (frameOf c cmd).length = cmd.length + 8 := by
  simp [frameOf]

/-- What sending the frame of `cmd` leaves. -/
def sentFrame (cmd : List Byte) (s : State) : State :=
  ({ s with
      cks := runningChecksum s.cfg cmd, idx := cmd.length + 7, shr := s.cfg.post, bcnt := 8, clk := true,
      dout := s.cfg.post.getLsbD 7, sel := false } : State).emit (frameEvents s.cfg cmd)

theorem badCommandLength_eq_false {n : Nat} {s : State} (h1 : 1 ≤ n) (h2 : n ≤ s.cfg.cmdmax) :
    badCommandLength n s = false := by
  simp [badCommandLength]
  omega

theorem badCommandLength_eq_true {n : Nat} {s : State} (h : n < 1 ∨ n > s.cfg.cmdmax) :
    badCommandLength n s = true := by
  simpa [badCommandLength] using h

/-- Everything WRFRAME can do: refused before any event, or the frame sent (R162). -/
theorem wrframe_cases (n : Nat) (s : State) :
    ((n < 1 ∨ n > s.cfg.cmdmax) ∧ wrframe n s = .raised (.refused .badOperand) s) ∨
    (s.cfg.bufsz < n ∧ wrframe n s = .raised (.refused .bufIndex) s) ∨
    (254 < n ∧ wrframe n s = .raised (.refused .badOperand) s) ∨
    (1 ≤ n ∧ n ≤ s.cfg.cmdmax ∧ n ≤ s.cfg.bufsz ∧ n ≤ 254 ∧ wrframe n s = .done (sentFrame (s.bufBytes 0 n) s)) := by
  by_cases h1 : n < 1 ∨ n > s.cfg.cmdmax
  · exact .inl ⟨h1, by simp [wrframe, badCommandLength_eq_true h1]⟩
  have hb : badCommandLength n s = false := badCommandLength_eq_false (by omega) (by omega)
  by_cases h2 : n ≤ s.cfg.bufsz
  swap
  · exact .inr (.inl ⟨by omega, by simp [wrframe, hb, needBuf_of_gt (show s.cfg.bufsz < n by omega)]⟩)
  by_cases h3 : n ≤ 254
  swap
  · refine .inr (.inr (.inl ⟨by omega, ?_⟩))
    have : encodable (s.bufBytes 0 n) = false := by simp [encodable]; omega
    simp [wrframe, hb, needBuf_of_le h2, encodeThen, this]
  · refine .inr (.inr (.inr ⟨by omega, by omega, h2, h3, ?_⟩))
    have : encodable (s.bufBytes 0 n) = true := by simp [encodable]; omega
    simp only [wrframe, hb, needBuf_of_le h2, encodeThen, this, if_true, Bool.false_eq_true, if_false]
    have hf : frameOf s.cfg (s.bufBytes 0 n) =
        ([s.cfg.pre, s.cfg.pre, s.cfg.start, lenOf (s.bufBytes 0 n), neg8 (lenOf (s.bufBytes 0 n)), s.cfg.dirH2C] ++
          s.bufBytes 0 n ++ [dcsOf s.cfg (s.bufBytes 0 n)]) ++ [s.cfg.post] := by
      simp [frameOf]
    rw [sentFrame, frameEvents, hf, sendBytes_eq, wrbyte_eq, select_eq, deselect_eq]
    simp [State.emit]

theorem wrframe_done {n : Nat} {s : State} (h1 : 1 ≤ n) (h2 : n ≤ s.cfg.cmdmax) (h3 : n ≤ s.cfg.bufsz) (h4 : n ≤ 254) :
    wrframe n s = .done (sentFrame (s.bufBytes 0 n) s) := by
  rcases wrframe_cases n s with h | h | h | h
  · omega
  · omega
  · omega
  · exact h.2.2.2.2

/-! ### STATUS and WAITRDY -/

/-- One poll: what STATUS leaves (R163). -/
theorem status_eq (s : State) :
    status s =
      ({ s.afterBits 8 with
          stat := s.chip 0, shr := s.chip 0, bcnt := 8, clk := true, dout := s.cfg.spiSR.getLsbD 7,
          sel := false } : State).emit (pollEvents s.cfg (s.chip 0)) := by
  have hc : (wrbyte s.cfg.spiSR (select s)).chip 0 = s.chip 0 :=
    congrFun (chip_congr (by simp [wrbyte_eq, select_eq]) (by simp [wrbyte_eq, select_eq])) 0
  simp only [status, rdbyte_eq, hc]
  simp [wrbyte_eq, select_eq, deselect_eq, State.emit, State.afterBits, pollEvents]

theorem chip_status (s : State) (j : Nat) : (status s).chip j = s.chip (1 + j) :=
  chip_of_drop (k := 1) (by simp [status_eq]) (by simp [status_eq]) j

/-- What `p + 1` polls leave, with the waits between them; `charged` intervals have been charged (R164). -/
def polled (p charged : Nat) (s : State) : State :=
  ({ s.afterBits (8 * (p + 1)) with
      stat := s.chip p, shr := s.chip p, bcnt := 8, clk := true, dout := s.cfg.spiSR.getLsbD 7, sel := false,
      elapsed := s.elapsed + charged * s.cfg.pollInterval } : State).emit (waitEvents s.cfg (s.chipBytes 0 (p + 1)))

theorem waitEvents_cons (c : Config) (v : Byte) (rest : List Byte) (h : rest ≠ []) :
    waitEvents c (v :: rest) = pollEvents c v ++ [.wait c.pollInterval] ++ waitEvents c rest := by
  cases rest with
  | nil => exact absurd rfl h
  | cons w rest => rfl

theorem polled_zero (s : State) : polled 0 0 s = status s := by
  simp [polled, status_eq, chipBytes_succ, waitEvents]

/-- The state after a poll that did not return READY, charged and waited for. -/
def polledOnce (s : State) : State :=
  waitUnits s.cfg.pollInterval { status s with elapsed := s.elapsed + s.cfg.pollInterval }

@[simp] theorem polledOnce_cfg (s : State) : (polledOnce s).cfg = s.cfg := by simp [polledOnce, status_eq]

@[simp] theorem polledOnce_budget (s : State) : (polledOnce s).budget = s.budget := by simp [polledOnce, status_eq]

@[simp] theorem polledOnce_elapsed (s : State) : (polledOnce s).elapsed = s.elapsed + s.cfg.pollInterval := rfl

theorem chip_polledOnce (s : State) (j : Nat) : (polledOnce s).chip j = s.chip (1 + j) :=
  (congrFun (chip_congr (s := status s) rfl rfl) j).trans (chip_status s j)

theorem polled_polledOnce (p charged : Nat) (s : State) :
    polled p charged (polledOnce s) = polled (p + 1) (charged + 1) s := by
  have hs : (polledOnce s).chipBytes 0 (p + 1) = s.chipBytes 1 (p + 1) :=
    chipBytes_of_shift (chip_polledOnce s) 0 (p + 1)
  have hw : waitEvents s.cfg (s.chipBytes 0 (p + 1 + 1)) =
      pollEvents s.cfg (s.chip 0) ++ [.wait s.cfg.pollInterval] ++ waitEvents s.cfg (s.chipBytes 1 (p + 1)) := by
    rw [chipBytes_succ, waitEvents_cons]
    simp [chipBytes_succ]
  rw [polled, polled, hs, hw, polledOnce_cfg, chip_polledOnce]
  simp only [polledOnce, status_eq, State.emit, State.afterBits, waitUnits, State.mk.injEq, List.drop_drop,
    List.length_drop, Nat.add_comm 1 p, List.reverse_append, List.append_assoc, List.reverse_cons, List.nil_append,
    List.cons_append, and_true, true_and]
  refine ⟨by ring, by rw [show 8 + 8 * (p + 1) = 8 * (p + 1 + 1) by ring], by omega⟩

theorem waitLoop_succ (stage : Byte) (k : Nat) (s : State) :
    waitLoop stage (k + 1) s =
      if s.chip 0 = s.cfg.ready then .done (status s)
      else if s.elapsed + s.cfg.pollInterval > s.budget.toNat then
        .raised (.timeout stage) { status s with elapsed := s.elapsed + s.cfg.pollInterval }
      else waitLoop stage k (polledOnce s) := by
  have h1 : (status s).stat = s.chip 0 := by simp [status_eq]
  have h2 : (status s).cfg = s.cfg := by simp [status_eq]
  have h3 : (status s).elapsed = s.elapsed := by simp [status_eq]
  have h4 : (status s).budget = s.budget := by simp [status_eq]
  simp only [waitLoop, h1, h2, h3, h4, polledOnce]

/-- A CHIP that is ready at the poll after `p`, while the budget lasts: the wait succeeds (R164). -/
theorem waitLoop_ready (stage : Byte) (k p : Nat) (s : State) (hk : p < k)
    (hb : p = 0 ∨ s.elapsed + p * s.cfg.pollInterval ≤ s.budget.toNat)
    (hn : ∀ j < p, s.chip j ≠ s.cfg.ready) (hr : s.chip p = s.cfg.ready) :
    waitLoop stage k s = .done (polled p p s) := by
  induction p generalizing k s with
  | zero =>
    obtain ⟨k, rfl⟩ : ∃ k', k = k' + 1 := ⟨k - 1, by omega⟩
    rw [waitLoop_succ, if_pos hr, polled_zero]
  | succ p ih =>
    obtain ⟨k, rfl⟩ : ∃ k', k = k' + 1 := ⟨k - 1, by omega⟩
    have hb' : s.elapsed + (p + 1) * s.cfg.pollInterval ≤ s.budget.toNat := by omega
    have hm : (p + 1) * s.cfg.pollInterval = p * s.cfg.pollInterval + s.cfg.pollInterval := by ring
    rw [waitLoop_succ, if_neg (hn 0 (by omega)), if_neg (by omega), ih k (polledOnce s) (by omega)]
    · rw [polled_polledOnce]
    · right; simp only [polledOnce_elapsed, polledOnce_cfg, polledOnce_budget]; omega
    · intro j hj
      rw [chip_polledOnce, polledOnce_cfg, Nat.add_comm]
      exact hn (j + 1) (by omega)
    · rw [chip_polledOnce, polledOnce_cfg, Nat.add_comm]
      exact hr

/-- A CHIP that is not ready at the first `p + 1` polls, with a budget that lasts for `p` waits and no more: Timeout right after
the last of them (R164). -/
theorem waitLoop_timeout (stage : Byte) (k p : Nat) (s : State) (hk : p < k)
    (hb : p = 0 ∨ s.elapsed + p * s.cfg.pollInterval ≤ s.budget.toNat)
    (he : s.budget.toNat < s.elapsed + (p + 1) * s.cfg.pollInterval)
    (hn : ∀ j < p + 1, s.chip j ≠ s.cfg.ready) :
    waitLoop stage k s = .raised (.timeout stage) (polled p (p + 1) s) := by
  induction p generalizing k s with
  | zero =>
    obtain ⟨k, rfl⟩ : ∃ k', k = k' + 1 := ⟨k - 1, by omega⟩
    rw [waitLoop_succ, if_neg (hn 0 (by omega)), if_pos (by omega), ← polled_zero]
    simp [polled, State.emit]
  | succ p ih =>
    obtain ⟨k, rfl⟩ : ∃ k', k = k' + 1 := ⟨k - 1, by omega⟩
    have hb' : s.elapsed + (p + 1) * s.cfg.pollInterval ≤ s.budget.toNat := by omega
    have hm : (p + 1) * s.cfg.pollInterval = p * s.cfg.pollInterval + s.cfg.pollInterval := by ring
    have hm' : (p + 1 + 1) * s.cfg.pollInterval = (p + 1) * s.cfg.pollInterval + s.cfg.pollInterval := by ring
    rw [waitLoop_succ, if_neg (hn 0 (by omega)), if_neg (by omega), ih k (polledOnce s) (by omega)]
    · rw [polled_polledOnce]
    · right; simp only [polledOnce_elapsed, polledOnce_cfg, polledOnce_budget]; omega
    · simp only [polledOnce_elapsed, polledOnce_cfg, polledOnce_budget]; omega
    · intro j hj
      rw [chip_polledOnce, polledOnce_cfg, Nat.add_comm]
      exact hn (j + 1) (by omega)

/-- Everything WAITRDY can do (R164): with P = ⌊BUDGET / POLL_INTERVAL⌋, the CHIP is ready at the poll after some p ≤ P, or it is not
ready at P + 1 polls and the wait times out. -/
theorem waitrdy_cases (stage : Byte) (s : State) (hp : 0 < s.cfg.pollInterval) :
    (∃ p, p ≤ s.budget.toNat / s.cfg.pollInterval ∧ (∀ j < p, s.chip j ≠ s.cfg.ready) ∧ s.chip p = s.cfg.ready ∧
      waitrdy stage s = .done (polled p p { s with elapsed := 0 })) ∨
    ((∀ j < s.budget.toNat / s.cfg.pollInterval + 1, s.chip j ≠ s.cfg.ready) ∧
      waitrdy stage s = .raised (.timeout stage)
        (polled (s.budget.toNat / s.cfg.pollInterval) (s.budget.toNat / s.cfg.pollInterval + 1) { s with elapsed := 0 })) := by
  by_cases h : ∃ p, p ≤ s.budget.toNat / s.cfg.pollInterval ∧ s.chip p = s.cfg.ready
  · left
    classical
    refine ⟨Nat.find h, (Nat.find_spec h).1, ?_, (Nat.find_spec h).2, ?_⟩
    · intro j hj hc
      exact Nat.find_min h hj ⟨by have := (Nat.find_spec h).1; omega, hc⟩
    · rw [waitrdy, waitLoop_ready stage _ (Nat.find h)]
      · have := (Nat.find_spec h).1; omega
      · right
        have := (Nat.find_spec h).1
        simp only [Nat.zero_add]
        exact (Nat.mul_le_mul_right _ this).trans (Nat.div_mul_le_self _ _)
      · intro j hj hc
        exact Nat.find_min h hj ⟨by have := (Nat.find_spec h).1; omega, hc⟩
      · exact (Nat.find_spec h).2
  · right
    have hn : ∀ j < s.budget.toNat / s.cfg.pollInterval + 1, s.chip j ≠ s.cfg.ready := fun j hj hc =>
      h ⟨j, by omega, hc⟩
    refine ⟨hn, ?_⟩
    rw [waitrdy, waitLoop_timeout stage _ (s.budget.toNat / s.cfg.pollInterval)]
    · omega
    · right; simpa using Nat.div_mul_le_self _ _
    · simpa [Nat.mul_comm] using Nat.lt_mul_div_succ s.budget.toNat hp
    · exact hn

/-- The number of polls a wait takes is fixed by the CHIP's stream. -/
theorem readyAfter_unique {s : State} {k p q : Nat} (hp : ReadyAfter s k p) (hq : ReadyAfter s k q) : p = q := by
  rcases lt_trichotomy p q with h | h | h
  · exact absurd hp.2.2 (hq.2.1 p h)
  · exact h
  · exact absurd hq.2.2 (hp.2.1 q h)

theorem not_readyAfter {s : State} {k p : Nat} (h : ∀ j ≤ s.maxWaits, s.chip (k + j) ≠ s.cfg.ready) : ¬ ReadyAfter s k p :=
  fun hp => h p hp.1 hp.2.2

theorem waitrdy_ready {stage : Byte} {s : State} {p : Nat} (h : ReadyAfter s 0 p) :
    waitrdy stage s = .done (polled p p { s with elapsed := 0 }) := by
  rw [waitrdy, waitLoop_ready stage _ p]
  · have := h.1; omega
  · right
    simp only [Nat.zero_add]
    exact (Nat.mul_le_mul_right _ h.1).trans (Nat.div_mul_le_self _ _)
  · intro j hj
    have := h.2.1 j hj
    rwa [Nat.zero_add] at this
  · have := h.2.2
    rwa [Nat.zero_add] at this

end Sys2Proof.Machine
end

