-- ==== Sys2Proof/Laws/Reads.lean ====
section
/-! SUPPORT. The laws of the data reads: RDACK, RDFIX, the header read and RDVAR. -/

namespace Sys2Proof.Machine

/-! ### RDACK -/

/-- The six bytes RDACK reads, as ACKR holds them. -/
def ackRead (s : State) : Vector Byte 6 := #v[s.chip 0, s.chip 1, s.chip 2, s.chip 3, s.chip 4, s.chip 5]

theorem ackRead_toList (s : State) : (ackRead s).toList = s.chipBytes 0 6 := by
  simp [ackRead, chipBytes_succ]

theorem readAckByte_step (s : State) (k i n : Nat) (a : Vector Byte 6) (v : Byte) (c : Bool) (e : List Event) :
    readAckByte (({ s.afterBits (8 * k) with ackr := a, shr := v, bcnt := n, clk := c } : State).emit e) i =
      ({ s.afterBits (8 * (k + 1)) with
          ackr := a.setIfInBounds i (s.chip k), shr := s.chip k, bcnt := 8, clk := true } : State).emit
        (e ++ readEvents s.cfg (s.chip k)) := by
  have hc : (({ s.afterBits (8 * k) with ackr := a, shr := v, bcnt := n, clk := c } : State).emit e).chip 0 = s.chip k :=
    chip_afterBits s k 0
  have ha := afterBits_afterBits s (8 * k) 8
  rw [show 8 * k + 8 = 8 * (k + 1) by ring] at ha
  simp only [State.afterBits, State.mk.injEq] at ha
  simp only [readAckByte, rdbyte_eq, hc]
  simp only [State.emit, State.afterBits, List.reverse_append, List.append_assoc, ha]

theorem setAll_ackr (a : Vector Byte 6) (b0 b1 b2 b3 b4 b5 : Byte) :
    (((((a.setIfInBounds 0 b0).setIfInBounds 1 b1).setIfInBounds 2 b2).setIfInBounds 3 b3).setIfInBounds 4 b4).setIfInBounds
      5 b5 = #v[b0, b1, b2, b3, b4, b5] := by
  ext i hi
  rcases (by omega : i = 0 ∨ i = 1 ∨ i = 2 ∨ i = 3 ∨ i = 4 ∨ i = 5) with h | h | h | h | h | h <;> subst h <;> simp

/-- What reading the acknowledgement leaves, whatever it is (R165). -/
def ackTaken (s : State) : State :=
  ({ s.afterBits 48 with
      ackr := ackRead s, shr := s.chip 5, bcnt := 8, clk := true, dout := s.cfg.spiDR.getLsbD 7,
      sel := false } : State).emit (readTransaction s.cfg (s.chipBytes 0 6))

@[simp] theorem ackTaken_cfg (s : State) : (ackTaken s).cfg = s.cfg := by simp [ackTaken]

theorem range_six : List.range 6 = [0, 1, 2, 3, 4, 5] := by decide

theorem readAck_eq (s : State) :
    (List.range 6).foldl readAckByte s =
      ({ s.afterBits 48 with ackr := ackRead s, shr := s.chip 5, bcnt := 8, clk := true } : State).emit
        ((s.chipBytes 0 6).flatMap (readEvents s.cfg)) := by
  have h0 : s = ({ s.afterBits (8 * 0) with ackr := s.ackr, shr := s.shr, bcnt := s.bcnt, clk := s.clk } : State).emit [] := by
    simp
  conv_lhs => rw [h0]
  simp only [range_six, List.foldl_cons, List.foldl_nil]
  iterate 6 rw [readAckByte_step]
  rw [setAll_ackr]
  simp [ackRead, chipBytes_succ]

/-- The read of RDACK before its comparison. -/
theorem ackTaken_eq (s : State) :
    deselect ((List.range 6).foldl readAckByte (wrbyte s.cfg.spiDR (select s))) = ackTaken s := by
  have hc : ∀ j, (wrbyte s.cfg.spiDR (select s)).chip j = s.chip j := fun j =>
    congrFun (chip_congr (by simp [wrbyte_eq, select_eq]) (by simp [wrbyte_eq, select_eq])) j
  have hb : (wrbyte s.cfg.spiDR (select s)).chipBytes 0 6 = s.chipBytes 0 6 := by simp [State.chipBytes, hc]
  have ha : ackRead (wrbyte s.cfg.spiDR (select s)) = ackRead s := by simp [ackRead, hc]
  rw [readAck_eq, hb, ha, hc, ackTaken]
  simp [wrbyte_eq, select_eq, deselect_eq, State.emit, State.afterBits, readTransaction]

theorem eq_of_firstDiff_none {a b : List Byte} (h : firstDiff a b = none) : a = b := by
  induction a generalizing b with
  | nil => cases b with
    | nil => rfl
    | cons y b => simp [firstDiff] at h
  | cons x a ih =>
    cases b with
    | nil => simp [firstDiff] at h
    | cons y b =>
      simp only [firstDiff] at h
      split_ifs at h with hxy
      rw [hxy, ih (by simpa using h)]

/-- Everything RDACK can do (R165): the six bytes are ACK, or AckMismatch at the first that differs. -/
theorem rdack_cases (s : State) :
    (s.chipBytes 0 6 = s.cfg.ack.toList ∧ rdack s = .done (ackTaken s)) ∨
    (∃ j, firstDiff (s.chipBytes 0 6) s.cfg.ack.toList = some j ∧ rdack s = .raised (.ackMismatch j) (ackTaken s)) := by
  have hl : (ackTaken s).ackr.toList = s.chipBytes 0 6 := by
    simp only [ackTaken, emit_ackr]
    exact ackRead_toList s
  cases h : firstDiff (s.chipBytes 0 6) s.cfg.ack.toList with
  | none => exact .inl ⟨eq_of_firstDiff_none h, by rw [rdack, ackTaken_eq, checkAck, hl, ackTaken_cfg, h]⟩
  | some j => exact .inr ⟨j, rfl, by rw [rdack, ackTaken_eq, checkAck, hl, ackTaken_cfg, h]⟩

theorem firstDiff_self (a : List Byte) : firstDiff a a = none := by
  induction a with
  | nil => rfl
  | cons x a ih => simp [firstDiff, ih]

theorem rdack_matches {s : State} (h : s.chipBytes 0 6 = s.cfg.ack.toList) : rdack s = .done (ackTaken s) := by
  rcases rdack_cases s with hc | ⟨j, hj, _⟩
  · exact hc.2
  · rw [h, firstDiff_self] at hj; exact absurd hj (by simp)

/-- What `firstDiff` names: the least index at which two sequences of one length differ (R231). -/
theorem firstDiff_spec {a b : List Byte} {j : Nat} (hl : a.length = b.length) (h : firstDiff a b = some j) :
    j < a.length ∧ byteAt a j ≠ byteAt b j ∧ ∀ i < j, byteAt a i = byteAt b i := by
  induction a generalizing b j with
  | nil => cases b with
    | nil => simp [firstDiff] at h
    | cons y b => simp at hl
  | cons x a ih =>
    cases b with
    | nil => simp at hl
    | cons y b =>
      simp only [firstDiff] at h
      split_ifs at h with hxy
      · obtain ⟨k, hk, rfl⟩ := Option.map_eq_some_iff.mp h
        obtain ⟨h1, h2, h3⟩ := ih (by simpa using hl) hk
        refine ⟨by simpa using h1, by simpa [byteAt] using h2, ?_⟩
        intro i hi
        cases i with
        | zero => simpa [byteAt] using hxy
        | succ i => simpa [byteAt] using h3 i (by omega)
      · obtain rfl : 0 = j := by simpa using h
        exact ⟨by simp, by simpa [byteAt] using hxy, by simp⟩

/-- The least index at which six bytes of the CHIP differ from ACK (R165). -/
theorem firstDiff_ack {s : State} {k : Nat} {j : Fin 6} (hj : s.chip (k + j) ≠ s.cfg.ack[j])
    (hlt : ∀ i : Fin 6, i < j → s.chip (k + i) = s.cfg.ack[i]) :
    firstDiff (s.chipBytes k 6) s.cfg.ack.toList = some j.val := by
  have e : ∀ i : Fin 6, byteAt (s.chipBytes k 6) i = s.chip (k + i) := fun i => byteAt_chipBytes _ _ _ _ i.isLt
  have e2 : ∀ i : Fin 6, byteAt s.cfg.ack.toList i = s.cfg.ack[i] := fun i => by simp [byteAt]
  cases h : firstDiff (s.chipBytes k 6) s.cfg.ack.toList with
  | none =>
    exact absurd (by rw [← e, ← e2, eq_of_firstDiff_none h]) hj
  | some m =>
    obtain ⟨l1, l2, l3⟩ := firstDiff_spec (by simp) h
    rw [chipBytes_length] at l1
    congr 1
    rcases lt_trichotomy m j with hm | hm | hm
    · exact absurd (by rw [e ⟨m, l1⟩, e2 ⟨m, l1⟩]; exact hlt ⟨m, l1⟩ hm) l2
    · exact hm
    · exact absurd (by rw [← e, ← e2]; exact l3 j hm) hj

/-! ### Reads into BUF -/

/-- What reading `n` bytes into BUF from index `i` leaves. -/
def filled (track : Bool) (n i : Nat) (s : State) : State :=
  ({ s.afterBits (8 * n) with
      shr := if n = 0 then s.shr else s.chip (n - 1)
      bcnt := if n = 0 then s.bcnt else 8
      clk := if n = 0 then s.clk else true
      idx := if track ∧ n ≠ 0 then i + n - 1 else s.idx
      buf := (s.putBytes i (s.chipBytes 0 n)).buf } : State).emit ((s.chipBytes 0 n).flatMap (readEvents s.cfg))

theorem filled_zero (track : Bool) (i : Nat) (s : State) : filled track 0 i s = s := by
  simp [filled, State.putBytes]

theorem filled_one (track : Bool) (i : Nat) (s : State) :
    (rdbyte (if track then { s with idx := i } else s)).putBytes i
      [(rdbyte (if track then { s with idx := i } else s)).shr] = filled track 1 i s := by
  cases track
  · simp [rdbyte_eq, filled, State.putBytes, chipBytes_succ, State.emit, State.afterBits]
  · have hc : ({ s with idx := i } : State).chip 0 = s.chip 0 := rfl
    simp [rdbyte_eq, filled, State.putBytes, chipBytes_succ, State.emit, State.afterBits, hc]

theorem filled_trace (track : Bool) (n i : Nat) (s : State) :
    (filled track n i s).trace = ((s.chipBytes 0 n).flatMap (readEvents s.cfg)).reverse ++ s.trace := rfl

theorem filled_buf (track : Bool) (n i : Nat) (s : State) :
    (filled track n i s).buf = (s.putBytes i (s.chipBytes 0 n)).buf := rfl

theorem filled_filled (track : Bool) (n i : Nat) (s : State) :
    filled track n (i + 1) (filled track 1 i s) = filled track (n + 1) i s := by
  have hch : ∀ j, (filled track 1 i s).chip j = s.chip (1 + j) := fun j =>
    chip_of_drop (k := 1) (by simp [filled]) (by simp [filled]) j
  have hb : (filled track 1 i s).chipBytes 0 n = s.chipBytes 1 n := chipBytes_of_shift hch 0 n
  have hev : (s.chipBytes 0 (n + 1)).flatMap (readEvents s.cfg) = readEvents s.cfg (s.chip 0) ++ (s.chipBytes 1 n).flatMap (readEvents s.cfg) := by
    simp [chipBytes_succ]
  have ha := afterBits_afterBits s 8 (8 * n)
  rw [show 8 + 8 * n = 8 * (n + 1) by ring] at ha
  have hdin : (filled track 1 i s).din.drop (8 * n) = s.din.drop (8 * (n + 1)) := congrArg State.din ha
  have hdr : (filled track 1 i s).draws + (8 * n - (filled track 1 i s).din.length) =
      s.draws + (8 * (n + 1) - s.din.length) := congrArg State.draws ha
  apply State.ext
  case trace =>
    have hc : (filled track 1 i s).cfg = s.cfg := rfl
    rw [filled_trace, filled_trace, filled_trace, hb, hev, hc]
    simp [chipBytes_succ]
  case buf =>
    rw [filled_buf, filled_buf, hb, chipBytes_succ, ← List.singleton_append, ← putBytes_putBytes]
    exact putBytes_buf_congr (by simp [filled, chipBytes_succ]) _ _
  case din => exact hdin
  case draws => exact hdr
  case shr =>
    show (if n = 0 then (filled track 1 i s).shr else (filled track 1 i s).chip (n - 1)) = _
    rw [hch]
    cases n <;> simp [filled, Nat.add_comm]
  case idx => cases n <;> cases track <;> simp [filled]; omega
  all_goals cases n <;> simp [filled]

/-- Reading into BUF where all of it fits. -/
theorem readInto_eq (track : Bool) (n i : Nat) (s : State) (h : i + n ≤ s.cfg.bufsz) :
    readInto track n i s = .done (filled track n i s) := by
  induction n generalizing i s with
  | zero => rw [filled_zero]; rfl
  | succ n ih =>
    have hcfg : ∀ t : State, t.cfg = s.cfg → (rdbyte t).cfg = s.cfg := fun t ht => by simp [rdbyte_eq, ht]
    have hm : memWrite i [(rdbyte (if track then { s with idx := i } else s)).shr]
        (rdbyte (if track then { s with idx := i } else s)) = .done (filled track 1 i s) := by
      rw [memWrite_of_le, filled_one]
      rw [hcfg _ (by cases track <;> rfl)]
      simp only [List.length_cons, List.length_nil]
      omega
    simp only [readInto, hm, Run.andThen_done]
    rw [ih (i + 1) (filled track 1 i s) (by simp only [filled, emit_cfg, afterBits_cfg]; omega), filled_filled]

/-- What RDFIX r leaves (R166). -/
def fixedRead (r : Nat) (s : State) : State :=
  ({ s.afterBits (8 * r) with
      shr := if r = 0 then s.cfg.spiDR else s.chip (r - 1)
      bcnt := 8, clk := true, dout := s.cfg.spiDR.getLsbD 7, sel := false
      idx := if r = 0 then s.idx else r - 1
      buf := (s.putBytes 0 (s.chipBytes 0 r)).buf
      rcount := r, readDone := true } : State).emit (readTransaction s.cfg (s.chipBytes 0 r))

theorem chip_readStart (s : State) (j : Nat) : (wrbyte s.cfg.spiDR (select s)).chip j = s.chip j :=
  congrFun (chip_congr (by simp [wrbyte_eq, select_eq]) (by simp [wrbyte_eq, select_eq])) j

theorem chipBytes_readStart (s : State) (k n : Nat) :
    (wrbyte s.cfg.spiDR (select s)).chipBytes k n = s.chipBytes k n := by
  simp [State.chipBytes, chip_readStart]

/-- Everything RDFIX can do (R166): refused before any event, or r bytes read. -/
theorem rdfix_cases (r : Nat) (s : State) :
    (s.cfg.bufsz < r ∧ rdfix r s = .raised (.refused .badOperand) s) ∨
    (r ≤ s.cfg.bufsz ∧ rdfix r s = .done (fixedRead r s)) := by
  by_cases h : r > s.cfg.bufsz
  · exact .inl ⟨h, by simp [rdfix, h]⟩
  · refine .inr ⟨by omega, ?_⟩
    have hbuf : ((wrbyte s.cfg.spiDR (select s)).putBytes 0 (s.chipBytes 0 r)).buf =
        (s.putBytes 0 (s.chipBytes 0 r)).buf := putBytes_buf_congr (by simp [wrbyte_eq, select_eq]) _ _
    have hc : r ≤ (wrbyte s.cfg.spiDR (select s)).cfg.bufsz := by simp [wrbyte_eq, select_eq]; omega
    rw [rdfix, if_neg h, readInto_eq _ _ _ _ (by omega), Run.andThen_done, filled, chipBytes_readStart, hbuf, chip_readStart]
    cases r with
    | zero =>
      simp [fixedRead, completeRead, deselect_eq, wrbyte_eq, select_eq, State.emit, State.afterBits, readTransaction]
    | succ r =>
      simp [fixedRead, completeRead, deselect_eq, wrbyte_eq, select_eq, State.emit, State.afterBits, readTransaction]

theorem rdfix_done {r : Nat} {s : State} (h : r ≤ s.cfg.bufsz) : rdfix r s = .done (fixedRead r s) := by
  rcases rdfix_cases r s with hc | hc
  · omega
  · exact hc.2

/-- What the header read of RDVAR leaves: five bytes in BUF, SEL still asserted (R167). -/
def headerRead (s : State) : State :=
  ({ s.afterBits 40 with
      shr := s.chip 4, bcnt := 8, clk := true, dout := s.cfg.spiDR.getLsbD 7, sel := true
      buf := (s.putBytes 0 (s.chipBytes 0 5)).buf } : State).emit
    (selectEvents s.cfg ++ writeEvents s.cfg.spiDR ++ (s.chipBytes 0 5).flatMap (readEvents s.cfg))

theorem headerRead_eq {s : State} (h : 5 ≤ s.cfg.bufsz) :
    readInto false 5 0 (wrbyte s.cfg.spiDR (select s)) = .done (headerRead s) := by
  have hbuf : ((wrbyte s.cfg.spiDR (select s)).putBytes 0 (s.chipBytes 0 5)).buf =
      (s.putBytes 0 (s.chipBytes 0 5)).buf := putBytes_buf_congr (by simp [wrbyte_eq, select_eq]) _ _
  rw [readInto_eq _ _ _ _ (by simp [wrbyte_eq, select_eq]; omega), filled, chipBytes_readStart, hbuf, chip_readStart]
  simp [headerRead, wrbyte_eq, select_eq, State.emit, State.afterBits]

theorem headerRead_bytes (s : State) : (headerRead s).bufBytes 0 5 = s.chipBytes 0 5 := by
  have hb : (headerRead s).bufByte = (s.putBytes 0 (s.chipBytes 0 5)).bufByte :=
    bufByte_congr rfl (by rw [putBytes_eq]; rfl)
  have : (headerRead s).bufBytes 0 5 = (s.putBytes 0 (s.chipBytes 0 5)).bufBytes 0 (s.chipBytes 0 5).length := by
    simp [State.bufBytes, hb]
  rw [this, bufBytes_putBytes]

/-- What RDVAR leaves when it has read a whole frame of `n` bytes, `n` at least 5 (R167). -/
def variableRead (n : Nat) (short : Bool) (s : State) : State :=
  ({ s.afterBits (8 * n) with
      shr := s.chip (n - 1), bcnt := 8, clk := true, dout := s.cfg.spiDR.getLsbD 7, sel := false
      idx := if n = 5 then s.idx else n - 1, tlen := n, short := short
      buf := (s.putBytes 0 (s.chipBytes 0 n)).buf } : State).emit (readTransaction s.cfg (s.chipBytes 0 n))

theorem variableRead_eq (n : Nat) (short : Bool) (s : State) (h5 : 5 ≤ n) :
    deselect (filled true (n - 5) 5 { headerRead s with short := short, tlen := n }) = variableRead n short s := by
  obtain ⟨m, rfl⟩ : ∃ m, n = 5 + m := ⟨n - 5, by omega⟩
  have hch : ∀ j, ({ headerRead s with short := short, tlen := 5 + m } : State).chip j = s.chip (5 + j) := fun j =>
    chip_of_drop (k := 5) (by simp [headerRead]) (by simp [headerRead]) j
  have hb : ({ headerRead s with short := short, tlen := 5 + m } : State).chipBytes 0 m = s.chipBytes 5 m :=
    chipBytes_of_shift hch 0 m
  have hbuf : (({ headerRead s with short := short, tlen := 5 + m } : State).putBytes 5 (s.chipBytes 5 m)).buf =
      (s.putBytes 0 (s.chipBytes 0 (5 + m))).buf := by
    rw [chipBytes_add, Nat.zero_add]
    have := putBytes_putBytes s 0 (s.chipBytes 0 5) (s.chipBytes 5 m)
    rw [chipBytes_length, Nat.zero_add] at this
    rw [← this]
    exact putBytes_buf_congr (by simp [headerRead]) _ _
  rw [show 5 + m - 5 = m by omega, filled, hb, hbuf, hch, variableRead, readTransaction, chipBytes_add]
  cases m with
  | zero => simp [headerRead, deselect_eq, State.emit, State.afterBits]
  | succ m =>
    simp [headerRead, deselect_eq, State.emit, State.afterBits, State.mk.injEq]
    refine ⟨by rw [show 40 + 8 * (m + 1) = 8 * (5 + (m + 1)) by ring], by omega⟩

/-- The bytes RDVAR has read are what BUF then holds from index 0. -/
theorem variableRead_bytes (n : Nat) (short : Bool) (s : State) :
    (variableRead n short s).bufBytes 0 n = s.chipBytes 0 n := by
  have hb : (variableRead n short s).bufByte = (s.putBytes 0 (s.chipBytes 0 n)).bufByte :=
    bufByte_congr rfl (by rw [putBytes_eq]; rfl)
  have : (variableRead n short s).bufBytes 0 n =
      (s.putBytes 0 (s.chipBytes 0 n)).bufBytes 0 (s.chipBytes 0 n).length := by
    simp [State.bufBytes, hb]
  rw [this, bufBytes_putBytes]

/-- RDVAR once DECLEN has given a length that fits BUF: a whole read, then the STRICT check (R167). -/
theorem rdvar_tail {n : Nat} (short : Bool) {s : State} (h5 : 5 ≤ n) (hn : n ≤ s.cfg.bufsz) :
    (readInto true (n - 5) 5 { headerRead s with short := short, tlen := n }).andThen rdvarEnd =
      if s.strict ∧ ¬ validFrame (s.chipBytes 0 n) short then
        .raised (.responseMismatch .badChecksum) (variableRead n short s)
      else .done (completeRead n (variableRead n short s)) := by
  rw [readInto_eq _ _ _ _ (by simp only [headerRead, emit_cfg, afterBits_cfg]; omega), Run.andThen_done, rdvarEnd,
    variableRead_eq n short s h5]
  have h1 : (variableRead n short s).strict = s.strict := rfl
  have h2 : (variableRead n short s).tlen = n := rfl
  have h3 : (variableRead n short s).short = short := rfl
  simp only [h1, h2, h3, variableRead_bytes]

/-- Everything RDVAR can do on a BUF of at least five bytes (R167). -/
theorem rdvar_eq {s : State} (hb : 5 ≤ s.cfg.bufsz) :
    rdvar s = match responseLayout s.cfg s.quirk (s.chipBytes 0 5) with
      | none => .raised (.responseMismatch .badHeader) (headerRead s)
      | some (short, n) =>
        if s.cfg.bufsz < n then .raised (.responseMismatch .tooLong) { headerRead s with short := short, tlen := n }
        else if s.strict ∧ ¬ validFrame (s.chipBytes 0 n) short then
          .raised (.responseMismatch .badChecksum) (variableRead n short s)
        else .done (completeRead n (variableRead n short s)) := by
  have hq : (headerRead s).quirk = s.quirk := rfl
  have hcfg : (headerRead s).cfg = s.cfg := rfl
  rw [rdvar, headerRead_eq hb, Run.andThen_done, headerRead_bytes, declen_layout, hq, hcfg]
  cases hl : responseLayout s.cfg s.quirk (s.chipBytes 0 5) with
  | none => rfl
  | some p =>
    obtain ⟨short, n⟩ := p
    have hn := responseLayout_bounds hl
    dsimp only [Run.andThen_done]
    by_cases ht : s.cfg.bufsz < n
    · rw [if_pos ht, if_pos ht]
      rfl
    · rw [if_neg ht, if_neg ht]
      exact rdvar_tail short (by omega) (by omega)

end Sys2Proof.Machine
end

