-- ==== Sys2Proof/Laws/Exchange.lean ====
section
/-! SUPPORT. The laws of the exchange: SENDCMD, XCHGF and XCHGV as closed forms, with everything each can do. -/

namespace Sys2Proof.Machine

/-- The six bytes from byte `k` of the CHIP's stream on, as ACKR holds them. -/
def ackAt (s : State) (k : Nat) : Vector Byte 6 :=
  #v[s.chip k, s.chip (k + 1), s.chip (k + 2), s.chip (k + 3), s.chip (k + 4), s.chip (k + 5)]

theorem ackAt_toList (s : State) (k : Nat) : (ackAt s k).toList = s.chipBytes k 6 := by
  simp [ackAt, chipBytes_succ]

theorem ackAt_of_matches {s : State} {k : Nat} (h : s.chipBytes k 6 = s.cfg.ack.toList) : ackAt s k = s.cfg.ack := by
  rw [← ackAt_toList] at h
  exact Vector.toList_inj.mp h

/-! ### The phases of SENDCMD -/

/-- After the frame and `p + 1` polls, `charged` of them charged: in AwaitingReady1 (R168). -/
def firstWait (cmd : List Byte) (p charged : Nat) (s : State) : State :=
  ({ s.afterBits (8 * (p + 1)) with
      cks := runningChecksum s.cfg cmd, idx := cmd.length + 7, shr := s.chip p, bcnt := 8, clk := true,
      dout := s.cfg.spiSR.getLsbD 7, sel := false, stat := s.chip p, elapsed := charged * s.cfg.pollInterval,
      tstate := .awaitingReady1 } : State).emit (frameEvents s.cfg cmd ++ waitEvents s.cfg (s.chipBytes 0 (p + 1)))

/-- After the acknowledgement has been read: in AckRead (R168). -/
def ackPhase (cmd : List Byte) (p : Nat) (s : State) : State :=
  ({ s.afterBits (8 * (p + 7)) with
      cks := runningChecksum s.cfg cmd, idx := cmd.length + 7, shr := s.chip (p + 6), bcnt := 8, clk := true,
      dout := s.cfg.spiDR.getLsbD 7, sel := false, stat := s.chip p, elapsed := p * s.cfg.pollInterval,
      ackr := ackAt s (p + 1), tstate := .ackRead } : State).emit
    (frameEvents s.cfg cmd ++ waitEvents s.cfg (s.chipBytes 0 (p + 1)) ++
      readTransaction s.cfg (s.chipBytes (p + 1) 6))

/-- After the second wait's `q + 1` polls: in AwaitingReady2 (R168). -/
def secondWait (cmd : List Byte) (p q charged : Nat) (s : State) : State :=
  ({ s.afterBits (8 * (p + q + 8)) with
      cks := runningChecksum s.cfg cmd, idx := cmd.length + 7, shr := s.chip (p + 7 + q), bcnt := 8, clk := true,
      dout := s.cfg.spiSR.getLsbD 7, sel := false, stat := s.chip (p + 7 + q), elapsed := charged * s.cfg.pollInterval,
      ackr := ackAt s (p + 1), tstate := .awaitingReady2 } : State).emit (sendEvents s cmd 0 p q)

theorem chip_sentFrame (cmd : List Byte) (s : State) (j : Nat) : (sentFrame cmd s).chip j = s.chip j :=
  congrFun (chip_congr rfl rfl) j

theorem polled_sentFrame (cmd : List Byte) (p charged : Nat) (s : State) :
    polled p charged { setTState .awaitingReady1 (sentFrame cmd (setTState .selecting s)) with elapsed := 0 } =
      firstWait cmd p charged s := by
  have hc : ∀ j, ({ setTState .awaitingReady1 (sentFrame cmd (setTState .selecting s)) with elapsed := 0 } : State).chip j =
      s.chip j := fun j => congrFun (chip_congr rfl rfl) j
  have hb : ({ setTState .awaitingReady1 (sentFrame cmd (setTState .selecting s)) with elapsed := 0 } : State).chipBytes 0
      (p + 1) = s.chipBytes 0 (p + 1) := by simp only [State.chipBytes, hc]
  rw [polled, hb, hc]
  simp [firstWait, sentFrame, setTState, State.emit, State.afterBits]

theorem chip_firstWait (cmd : List Byte) (p charged : Nat) (s : State) (t : TState) (j : Nat) :
    (setTState t (firstWait cmd p charged s)).chip j = s.chip (p + 1 + j) :=
  chip_of_drop rfl rfl j

theorem ackTaken_firstWait (cmd : List Byte) (p : Nat) (s : State) :
    ackTaken (setTState .ackRead (firstWait cmd p p s)) = ackPhase cmd p s := by
  have hc := chip_firstWait cmd p p s .ackRead
  have hb : (setTState .ackRead (firstWait cmd p p s)).chipBytes 0 6 = s.chipBytes (p + 1) 6 := chipBytes_of_shift hc 0 6
  have hk : ackRead (setTState .ackRead (firstWait cmd p p s)) = ackAt s (p + 1) := by simp [ackRead, ackAt, hc]
  have ha := afterBits_afterBits s (8 * (p + 1)) 48
  rw [show 8 * (p + 1) + 48 = 8 * (p + 7) by ring] at ha
  rw [ackTaken, hb, hk, hc]
  apply State.ext
  case din => exact (congrArg State.din ha :)
  case draws => exact (congrArg State.draws ha :)
  all_goals simp [ackPhase, firstWait, setTState]

theorem chip_ackPhase (cmd : List Byte) (p : Nat) (s : State) (t : TState) (j : Nat) :
    (setTState t (ackPhase cmd p s)).chip j = s.chip (p + 7 + j) :=
  chip_of_drop rfl rfl j

theorem polled_ackPhase (cmd : List Byte) (p q charged : Nat) (s : State) :
    polled q charged { setTState .awaitingReady2 (ackPhase cmd p s) with elapsed := 0 } = secondWait cmd p q charged s := by
  have hc : ∀ j, ({ setTState .awaitingReady2 (ackPhase cmd p s) with elapsed := 0 } : State).chip j = s.chip (p + 7 + j) :=
    fun j => chip_of_drop rfl rfl j
  have hb : ({ setTState .awaitingReady2 (ackPhase cmd p s) with elapsed := 0 } : State).chipBytes 0 (q + 1) =
      s.chipBytes (p + 7) (q + 1) := chipBytes_of_shift hc 0 (q + 1)
  have ha := afterBits_afterBits s (8 * (p + 7)) (8 * (q + 1))
  rw [show 8 * (p + 7) + 8 * (q + 1) = 8 * (p + q + 8) by ring] at ha
  rw [polled, hb, hc]
  apply State.ext
  case din => exact (congrArg State.din ha :)
  case draws => exact (congrArg State.draws ha :)
  all_goals simp [secondWait, ackPhase, setTState, sendEvents]

/-! ### SENDCMD -/

theorem readyAfter_firstWait {cmd : List Byte} {s : State} {p : Nat} :
    ReadyAfter (setTState .awaitingReady1 (sentFrame cmd (setTState .selecting s))) 0 p ↔ ReadyAfter s 0 p := by
  have hc : (setTState .awaitingReady1 (sentFrame cmd (setTState .selecting s))).chip = s.chip := chip_congr rfl rfl
  unfold ReadyAfter
  rw [hc]
  rfl

/-- Everything SENDCMD can do with a command length it accepts (R168): Timeout(1), AckMismatch, Timeout(2), or done in
AwaitingReady2. -/
theorem sendcmd_cases {n : Nat} {s : State} (h1 : 1 ≤ n) (h2 : n ≤ s.cfg.cmdmax) (h3 : n ≤ s.cfg.bufsz) (h4 : n ≤ 254)
    (hp : 0 < s.cfg.pollInterval) :
    ((∀ j < s.maxWaits + 1, s.chip j ≠ s.cfg.ready) ∧
      sendcmd n s = .raised (.timeout 1) (firstWait (s.bufBytes 0 n) s.maxWaits (s.maxWaits + 1) s)) ∨
    (∃ p, ReadyAfter s 0 p ∧ ∃ j, firstDiff (s.chipBytes (p + 1) 6) s.cfg.ack.toList = some j ∧
      sendcmd n s = .raised (.ackMismatch j) (ackPhase (s.bufBytes 0 n) p s)) ∨
    (∃ p, ReadyAfter s 0 p ∧ s.chipBytes (p + 1) 6 = s.cfg.ack.toList ∧
      (∀ j < s.maxWaits + 1, s.chip (p + 7 + j) ≠ s.cfg.ready) ∧
      sendcmd n s = .raised (.timeout 2) (secondWait (s.bufBytes 0 n) p s.maxWaits (s.maxWaits + 1) s)) ∨
    (∃ p q, Answered s 0 p q ∧ sendcmd n s = .done (secondWait (s.bufBytes 0 n) p q q s)) := by
  have hb : badCommandLength n s = false := badCommandLength_eq_false h1 h2
  have hw : wrframe n (setTState .selecting s) = .done (sentFrame (s.bufBytes 0 n) (setTState .selecting s)) :=
    wrframe_done h1 h2 h3 h4
  generalize hcmd : s.bufBytes 0 n = cmd at *
  have hs : sendcmd n s = (waitrdy 1 (setTState .awaitingReady1 (sentFrame cmd (setTState .selecting s)))).andThen fun s =>
      (rdack (setTState .ackRead s)).andThen fun s => waitrdy 2 (setTState .awaitingReady2 s) := by
    rw [sendcmd, hb, hw]
    rfl
  have hc1 : ∀ j, (setTState .awaitingReady1 (sentFrame cmd (setTState .selecting s))).chip j = s.chip j :=
    fun j => congrFun (chip_congr rfl rfl) j
  rcases waitrdy_cases 1 (setTState .awaitingReady1 (sentFrame cmd (setTState .selecting s))) hp with
    ⟨p, hp1, hp2, hp3, hw1⟩ | ⟨hn, hw1⟩
  · have hr : ReadyAfter s 0 p := by
      refine ⟨hp1, fun j hj => ?_, ?_⟩
      · rw [Nat.zero_add, ← hc1]; exact hp2 j hj
      · rw [Nat.zero_add, ← hc1]; exact hp3
    rw [hw1, polled_sentFrame, Run.andThen_done] at hs
    rcases rdack_cases (setTState .ackRead (firstWait cmd p p s)) with ⟨hm, ha⟩ | ⟨j, hj, ha⟩
    · rw [chipBytes_of_shift (chip_firstWait cmd p p s .ackRead) 0 6] at hm
      rw [ha, ackTaken_firstWait, Run.andThen_done] at hs
      have hc2 := chip_ackPhase cmd p s .awaitingReady2
      rcases waitrdy_cases 2 (setTState .awaitingReady2 (ackPhase cmd p s)) hp with ⟨q, hq1, hq2, hq3, hw2⟩ | ⟨hn, hw2⟩
      · rw [hw2, polled_ackPhase] at hs
        refine .inr (.inr (.inr ⟨p, q, ⟨hr, by rw [Nat.zero_add]; exact hm, hq1, fun j hj => ?_, ?_⟩, hs⟩))
        · rw [Nat.zero_add, ← hc2]; exact hq2 j hj
        · rw [Nat.zero_add, ← hc2]; exact hq3
      · rw [hw2, polled_ackPhase] at hs
        refine .inr (.inr (.inl ⟨p, hr, hm, fun j hj => ?_, hs⟩))
        rw [← hc2]; exact hn j hj
    · rw [chipBytes_of_shift (chip_firstWait cmd p p s .ackRead) 0 6] at hj
      rw [ha, ackTaken_firstWait, Run.andThen_raised] at hs
      exact .inr (.inl ⟨p, hr, j, hj, hs⟩)
  · rw [hw1, polled_sentFrame, Run.andThen_raised] at hs
    exact .inl ⟨fun j hj => by rw [← hc1]; exact hn j hj, hs⟩

/-- SENDCMD of a command the CHIP answers (R168). -/
theorem sendcmd_answered {n p q : Nat} {s : State} (h1 : 1 ≤ n) (h2 : n ≤ s.cfg.cmdmax) (h3 : n ≤ s.cfg.bufsz) (h4 : n ≤ 254)
    (h : Answered s 0 p q) : sendcmd n s = .done (secondWait (s.bufBytes 0 n) p q q s) := by
  have hb : badCommandLength n s = false := badCommandLength_eq_false h1 h2
  have hw : wrframe n (setTState .selecting s) = .done (sentFrame (s.bufBytes 0 n) (setTState .selecting s)) :=
    wrframe_done h1 h2 h3 h4
  generalize hcmd : s.bufBytes 0 n = cmd at *
  have hs : sendcmd n s = (waitrdy 1 (setTState .awaitingReady1 (sentFrame cmd (setTState .selecting s)))).andThen fun s =>
      (rdack (setTState .ackRead s)).andThen fun s => waitrdy 2 (setTState .awaitingReady2 s) := by
    rw [sendcmd, hb, hw]
    rfl
  have hm : (setTState .ackRead (firstWait cmd p p s)).chipBytes 0 6 = (setTState .ackRead (firstWait cmd p p s)).cfg.ack.toList := by
    rw [chipBytes_of_shift (chip_firstWait cmd p p s .ackRead) 0 6]
    have := h.2.1
    rw [Nat.zero_add] at this
    exact this
  have hr : ReadyAfter (setTState .awaitingReady2 (ackPhase cmd p s)) 0 q := by
    have hc := chip_ackPhase cmd p s .awaitingReady2
    refine ⟨h.2.2.1, fun j hj => ?_, ?_⟩
    · rw [Nat.zero_add, hc]
      have := h.2.2.2.1 j hj
      rw [Nat.zero_add] at this
      exact this
    · rw [Nat.zero_add, hc]
      have := h.2.2.2.2
      rw [Nat.zero_add] at this
      exact this
  rw [hs, waitrdy_ready (readyAfter_firstWait.mpr h.1), polled_sentFrame, Run.andThen_done, rdack_matches hm,
    ackTaken_firstWait, Run.andThen_done, waitrdy_ready hr, polled_ackPhase]

/-- SENDCMD of a command whose first wait times out (R168). -/
theorem sendcmd_timeout1 {n : Nat} {s : State} (h1 : 1 ≤ n) (h2 : n ≤ s.cfg.cmdmax) (h3 : n ≤ s.cfg.bufsz) (h4 : n ≤ 254)
    (hp : 0 < s.cfg.pollInterval) (hn : ∀ j ≤ s.maxWaits, s.chip j ≠ s.cfg.ready) :
    sendcmd n s = .raised (.timeout 1) (firstWait (s.bufBytes 0 n) s.maxWaits (s.maxWaits + 1) s) := by
  have hr : ∀ p, ¬ ReadyAfter s 0 p := fun p => not_readyAfter (by simpa using hn)
  rcases sendcmd_cases h1 h2 h3 h4 hp with ⟨_, h⟩ | ⟨p, hr1, _⟩ | ⟨p, hr1, _⟩ | ⟨p, q, ha, _⟩
  · exact h
  · exact absurd hr1 (hr p)
  · exact absurd hr1 (hr p)
  · exact absurd ha.1 (hr p)

/-- SENDCMD of a command whose acknowledgement differs from ACK first at index `j` (R168). -/
theorem sendcmd_mismatch {n p j : Nat} {s : State} (h1 : 1 ≤ n) (h2 : n ≤ s.cfg.cmdmax) (h3 : n ≤ s.cfg.bufsz) (h4 : n ≤ 254)
    (hp : 0 < s.cfg.pollInterval) (hr : ReadyAfter s 0 p)
    (hj : firstDiff (s.chipBytes (p + 1) 6) s.cfg.ack.toList = some j) :
    sendcmd n s = .raised (.ackMismatch j) (ackPhase (s.bufBytes 0 n) p s) := by
  have hne : s.chipBytes (p + 1) 6 ≠ s.cfg.ack.toList := fun h => by
    rw [h, firstDiff_self] at hj
    exact absurd hj (by simp)
  rcases sendcmd_cases h1 h2 h3 h4 hp with ⟨hn, _⟩ | ⟨p', hr', j', hj', h⟩ | ⟨p', hr', hm, _⟩ | ⟨p', q, ha, _⟩
  · exact absurd hr (not_readyAfter fun j hj => by rw [Nat.zero_add]; exact hn j (by omega))
  · obtain rfl := readyAfter_unique hr hr'
    obtain rfl : j = j' := Option.some.inj (hj ▸ hj')
    exact h
  · obtain rfl := readyAfter_unique hr hr'
    exact absurd hm hne
  · obtain rfl := readyAfter_unique hr ha.1
    have := ha.2.1
    rw [Nat.zero_add] at this
    exact absurd this hne

/-- SENDCMD of a command that is acknowledged and whose second wait times out (R168). -/
theorem sendcmd_timeout2 {n p : Nat} {s : State} (h1 : 1 ≤ n) (h2 : n ≤ s.cfg.cmdmax) (h3 : n ≤ s.cfg.bufsz) (h4 : n ≤ 254)
    (hp : 0 < s.cfg.pollInterval) (hr : ReadyAfter s 0 p) (hm : s.chipBytes (p + 1) 6 = s.cfg.ack.toList)
    (hn : ∀ j ≤ s.maxWaits, s.chip (p + 7 + j) ≠ s.cfg.ready) :
    sendcmd n s = .raised (.timeout 2) (secondWait (s.bufBytes 0 n) p s.maxWaits (s.maxWaits + 1) s) := by
  rcases sendcmd_cases h1 h2 h3 h4 hp with ⟨hn', _⟩ | ⟨p', hr', j', hj', _⟩ | ⟨p', hr', _, _, h⟩ | ⟨p', q, ha, _⟩
  · exact absurd hr (not_readyAfter fun j hj => by rw [Nat.zero_add]; exact hn' j (by omega))
  · obtain rfl := readyAfter_unique hr hr'
    rw [hm, firstDiff_self] at hj'
    exact absurd hj' (by simp)
  · obtain rfl := readyAfter_unique hr hr'
    exact h
  · obtain rfl := readyAfter_unique hr ha.1
    have := ha.2.2
    rw [Nat.zero_add] at this
    exact absurd this (not_readyAfter hn)

/-- SENDCMD refuses a length before any event (R103, R168). -/
theorem sendcmd_refused {n : Nat} {s : State} (h : n < 1 ∨ n > s.cfg.cmdmax) :
    sendcmd n s = .raised (.refused .badOperand) s := by
  simp [sendcmd, badCommandLength_eq_true h]

/-! ### XCHGF -/

/-- What an exchange the CHIP answers leaves (R169). -/
def exchanged (cmd : List Byte) (r p q : Nat) (s : State) : State :=
  ({ s.afterBits (8 * (p + q + 8 + r)) with
      cks := runningChecksum s.cfg cmd, idx := if r = 0 then cmd.length + 7 else r - 1,
      shr := if r = 0 then s.cfg.spiDR else s.chip (p + q + 8 + (r - 1)), bcnt := 8, clk := true,
      dout := s.cfg.spiDR.getLsbD 7, sel := false, stat := s.chip (p + 7 + q), elapsed := q * s.cfg.pollInterval,
      ackr := ackAt s (p + 1), tstate := .success, buf := (s.putBytes 0 (s.chipBytes (p + q + 8) r)).buf,
      rcount := r, readDone := true } : State).emit (exchangeEvents s cmd 0 p q r)

theorem chip_secondWait (cmd : List Byte) (p q charged : Nat) (s : State) (t : TState) (j : Nat) :
    (setTState t (secondWait cmd p q charged s)).chip j = s.chip (p + q + 8 + j) :=
  chip_of_drop rfl rfl j

theorem fixedRead_secondWait (cmd : List Byte) (r p q : Nat) (s : State) :
    setTState .success (fixedRead r (setTState .responseRead (secondWait cmd p q q s))) = exchanged cmd r p q s := by
  have hc := chip_secondWait cmd p q q s .responseRead
  have hb : (setTState .responseRead (secondWait cmd p q q s)).chipBytes 0 r = s.chipBytes (p + q + 8) r :=
    chipBytes_of_shift hc 0 r
  have ha := afterBits_afterBits s (8 * (p + q + 8)) (8 * r)
  rw [show 8 * (p + q + 8) + 8 * r = 8 * (p + q + 8 + r) by ring] at ha
  have hbuf : ((setTState .responseRead (secondWait cmd p q q s)).putBytes 0 (s.chipBytes (p + q + 8) r)).buf =
      (s.putBytes 0 (s.chipBytes (p + q + 8) r)).buf := putBytes_buf_congr (by rfl) _ _
  rw [fixedRead, hb, hc, hbuf]
  apply State.ext
  case din => exact (congrArg State.din ha :)
  case draws => exact (congrArg State.draws ha :)
  case trace => simp [exchanged, secondWait, setTState, exchangeEvents]
  all_goals simp [exchanged, secondWait, setTState]

/-- XCHGF of a command the CHIP answers (R169). -/
theorem xchgf_answered {n r p q : Nat} {s : State} (h1 : 1 ≤ n) (h2 : n ≤ s.cfg.cmdmax) (h3 : n ≤ s.cfg.bufsz)
    (h4 : n ≤ 254) (hr : r ≤ s.cfg.bufsz) (h : Answered s 0 p q) :
    xchgf n r s = .done (exchanged (s.bufBytes 0 n) r p q s) := by
  have hn : ¬ (badCommandLength n s = true ∨ r > s.cfg.bufsz) := by
    rw [badCommandLength_eq_false h1 h2]; simp; omega
  rw [xchgf, if_neg hn, sendcmd_answered h1 h2 h3 h4 h, Run.andThen_done, rdfix_done (by exact hr), Run.andThen_done,
    fixedRead_secondWait]

/-- XCHGF refuses its operands before any event (R103, R169). -/
theorem xchgf_refused {n r : Nat} {s : State} (h : n < 1 ∨ n > s.cfg.cmdmax ∨ r > s.cfg.bufsz) :
    xchgf n r s = .raised (.refused .badOperand) s := by
  have hn : badCommandLength n s = true ∨ r > s.cfg.bufsz := by simp [badCommandLength]; omega
  rw [xchgf, if_pos hn]

/-- A failure of SENDCMD ends XCHGF (R169, R206). -/
theorem xchgf_sendcmd {n r : Nat} {s : State} (h1 : 1 ≤ n) (h2 : n ≤ s.cfg.cmdmax) (hr : r ≤ s.cfg.bufsz) :
    xchgf n r s = (sendcmd n s).andThen fun s =>
      (rdfix r (setTState .responseRead s)).andThen fun s => .done (setTState .success s) := by
  have hn : ¬ (badCommandLength n s = true ∨ r > s.cfg.bufsz) := by
    rw [badCommandLength_eq_false h1 h2]; simp; omega
  rw [xchgf, if_neg hn]

/-- Everything XCHGF can do with operands it accepts (R169). -/
theorem xchgf_cases {n r : Nat} {s : State} (h1 : 1 ≤ n) (h2 : n ≤ s.cfg.cmdmax) (h3 : n ≤ s.cfg.bufsz) (h4 : n ≤ 254)
    (hr : r ≤ s.cfg.bufsz) (hp : 0 < s.cfg.pollInterval) :
    ((∀ j < s.maxWaits + 1, s.chip j ≠ s.cfg.ready) ∧
      xchgf n r s = .raised (.timeout 1) (firstWait (s.bufBytes 0 n) s.maxWaits (s.maxWaits + 1) s)) ∨
    (∃ p, ReadyAfter s 0 p ∧ ∃ j, firstDiff (s.chipBytes (p + 1) 6) s.cfg.ack.toList = some j ∧
      xchgf n r s = .raised (.ackMismatch j) (ackPhase (s.bufBytes 0 n) p s)) ∨
    (∃ p, ReadyAfter s 0 p ∧ s.chipBytes (p + 1) 6 = s.cfg.ack.toList ∧
      (∀ j < s.maxWaits + 1, s.chip (p + 7 + j) ≠ s.cfg.ready) ∧
      xchgf n r s = .raised (.timeout 2) (secondWait (s.bufBytes 0 n) p s.maxWaits (s.maxWaits + 1) s)) ∨
    (∃ p q, Answered s 0 p q ∧ xchgf n r s = .done (exchanged (s.bufBytes 0 n) r p q s)) := by
  have hx := xchgf_sendcmd (n := n) (r := r) h1 h2 hr
  rcases sendcmd_cases h1 h2 h3 h4 hp with ⟨hn, h⟩ | ⟨p, hr1, j, hj, h⟩ | ⟨p, hr1, hm, hn, h⟩ | ⟨p, q, ha, h⟩
  · exact .inl ⟨hn, by rw [hx, h, Run.andThen_raised]⟩
  · exact .inr (.inl ⟨p, hr1, j, hj, by rw [hx, h, Run.andThen_raised]⟩)
  · exact .inr (.inr (.inl ⟨p, hr1, hm, hn, by rw [hx, h, Run.andThen_raised]⟩))
  · exact .inr (.inr (.inr ⟨p, q, ha, xchgf_answered h1 h2 h3 h4 hr ha⟩))

/-- The response bytes an exchange leaves in BUF. -/
theorem bufByte_exchanged (cmd : List Byte) (r p q : Nat) (s : State) (j : Nat) :
    (exchanged cmd r p q s).bufByte j = if j < r then s.chip (p + q + 8 + j) else s.bufByte j := by
  have hb : (exchanged cmd r p q s).bufByte = (s.putBytes 0 (s.chipBytes (p + q + 8) r)).bufByte :=
    bufByte_congr rfl (by rw [putBytes_eq]; rfl)
  rw [hb, bufByte_putBytes]
  simp only [Nat.zero_le, true_and, chipBytes_length, Nat.zero_add, Nat.sub_zero]
  split_ifs with hj
  · exact byteAt_chipBytes _ _ _ _ hj
  · rfl

/-! ### XCHGV -/

theorem xchgv_sendcmd {n : Nat} {s : State} (h1 : 1 ≤ n) (h2 : n ≤ s.cfg.cmdmax) :
    xchgv n s = (sendcmd n s).andThen fun s =>
      (rdvar (setTState .responseRead s)).andThen fun s => .done (setTState .success s) := by
  rw [xchgv, badCommandLength_eq_false h1 h2]
  rfl

theorem xchgv_refused {n : Nat} {s : State} (h : n < 1 ∨ n > s.cfg.cmdmax) :
    xchgv n s = .raised (.refused .badOperand) s := by
  simp [xchgv, badCommandLength_eq_true h]

/-- XCHGV of a command the CHIP answers: RDVAR on what SENDCMD leaves (R171). -/
theorem xchgv_answered {n p q : Nat} {s : State} (h1 : 1 ≤ n) (h2 : n ≤ s.cfg.cmdmax) (h3 : n ≤ s.cfg.bufsz) (h4 : n ≤ 254)
    (h : Answered s 0 p q) :
    xchgv n s = (rdvar (setTState .responseRead (secondWait (s.bufBytes 0 n) p q q s))).andThen fun s =>
      .done (setTState .success s) := by
  rw [xchgv_sendcmd h1 h2, sendcmd_answered h1 h2 h3 h4 h, Run.andThen_done]

/-! ### The exchange of a catalog operation -/

theorem bufBytes_congr {s t : State} (h : t.bufByte = s.bufByte) (a n : Nat) : t.bufBytes a n = s.bufBytes a n := by
  simp only [State.bufBytes, h]

/-- The build step, then XCHGF (R190). -/
theorem exchange_eq {cmd : List Byte} {r : Nat} {s : State} (h3 : cmd.length ≤ s.cfg.bufsz) :
    exchange cmd r s = xchgf cmd.length r (s.putBytes 0 cmd) := by
  rw [exchange, memWrite_of_le (by omega), Run.andThen_done]

theorem chip_putBytes (s : State) (a : Nat) (bytes : List Byte) : (s.putBytes a bytes).chip = s.chip :=
  chip_congr (by rw [putBytes_eq]) (by rw [putBytes_eq])

theorem answered_putBytes {s : State} {a : Nat} {bytes : List Byte} {k p q : Nat} :
    Answered (s.putBytes a bytes) k p q ↔ Answered s k p q := by
  rw [putBytes_eq]
  rfl

/-- A catalog operation's exchange that the CHIP answers (R190). -/
theorem exchange_answered {cmd : List Byte} {r p q : Nat} {s : State} (h1 : 1 ≤ cmd.length) (h2 : cmd.length ≤ s.cfg.cmdmax)
    (h3 : cmd.length ≤ s.cfg.bufsz) (h4 : cmd.length ≤ 254) (hr : r ≤ s.cfg.bufsz) (h : Answered s 0 p q) :
    exchange cmd r s = .done (exchanged cmd r p q (s.putBytes 0 cmd)) := by
  have hc : (s.putBytes 0 cmd).cfg = s.cfg := by rw [putBytes_eq]
  rw [exchange_eq h3, xchgf_answered h1 (by rw [hc]; exact h2) (by rw [hc]; exact h3) h4 (by rw [hc]; exact hr)
    (answered_putBytes.mpr h), bufBytes_putBytes]

/-- A byte of BUF after such an exchange: the response, then what is left of the command, then what was there (R60, R62). -/
theorem bufByte_exchange (cmd : List Byte) (r p q : Nat) (s : State) (j : Nat) :
    (exchanged cmd r p q (s.putBytes 0 cmd)).bufByte j =
      if j < r then s.chip (p + q + 8 + j) else if j < cmd.length then byteAt cmd j else s.bufByte j := by
  rw [bufByte_exchanged, chip_putBytes, bufByte_putBytes]
  simp

end Sys2Proof.Machine
end

