-- ==== Sys2Proof/Laws/Forms.lean ====
section
/-! SUPPORT. One lemma per field for each closed form of the Transport Session, each by rfl, so that no proof unfolds a whole state. -/

namespace Sys2Proof.Machine

@[simp] theorem sentFrame_cfg (cmd : List Byte) (s : State) : (sentFrame cmd s).cfg = s.cfg := rfl
@[simp] theorem sentFrame_clk (cmd : List Byte) (s : State) : (sentFrame cmd s).clk = true := rfl
@[simp] theorem sentFrame_dout (cmd : List Byte) (s : State) : (sentFrame cmd s).dout = s.cfg.post.getLsbD 7 := rfl
@[simp] theorem sentFrame_sel (cmd : List Byte) (s : State) : (sentFrame cmd s).sel = false := rfl
@[simp] theorem sentFrame_shr (cmd : List Byte) (s : State) : (sentFrame cmd s).shr = s.cfg.post := rfl
@[simp] theorem sentFrame_bcnt (cmd : List Byte) (s : State) : (sentFrame cmd s).bcnt = 8 := rfl
@[simp] theorem sentFrame_cks (cmd : List Byte) (s : State) : (sentFrame cmd s).cks = runningChecksum s.cfg cmd := rfl
@[simp] theorem sentFrame_idx (cmd : List Byte) (s : State) : (sentFrame cmd s).idx = cmd.length + 7 := rfl
@[simp] theorem sentFrame_tlen (cmd : List Byte) (s : State) : (sentFrame cmd s).tlen = s.tlen := rfl
@[simp] theorem sentFrame_ackr (cmd : List Byte) (s : State) : (sentFrame cmd s).ackr = s.ackr := rfl
@[simp] theorem sentFrame_elapsed (cmd : List Byte) (s : State) : (sentFrame cmd s).elapsed = s.elapsed := rfl
@[simp] theorem sentFrame_op (cmd : List Byte) (s : State) : (sentFrame cmd s).op = s.op := rfl
@[simp] theorem sentFrame_busy (cmd : List Byte) (s : State) : (sentFrame cmd s).busy = s.busy := rfl
@[simp] theorem sentFrame_tstate (cmd : List Byte) (s : State) : (sentFrame cmd s).tstate = s.tstate := rfl
@[simp] theorem sentFrame_args (cmd : List Byte) (s : State) : (sentFrame cmd s).args = s.args := rfl
@[simp] theorem sentFrame_ok (cmd : List Byte) (s : State) : (sentFrame cmd s).ok = s.ok := rfl
@[simp] theorem sentFrame_err (cmd : List Byte) (s : State) : (sentFrame cmd s).err = s.err := rfl
@[simp] theorem sentFrame_errinfo (cmd : List Byte) (s : State) : (sentFrame cmd s).errinfo = s.errinfo := rfl
@[simp] theorem sentFrame_short (cmd : List Byte) (s : State) : (sentFrame cmd s).short = s.short := rfl
@[simp] theorem sentFrame_stat (cmd : List Byte) (s : State) : (sentFrame cmd s).stat = s.stat := rfl
@[simp] theorem sentFrame_budget (cmd : List Byte) (s : State) : (sentFrame cmd s).budget = s.budget := rfl
@[simp] theorem sentFrame_mode (cmd : List Byte) (s : State) : (sentFrame cmd s).mode = s.mode := rfl
@[simp] theorem sentFrame_buf (cmd : List Byte) (s : State) : (sentFrame cmd s).buf = s.buf := rfl
@[simp] theorem sentFrame_res32 (cmd : List Byte) (s : State) : (sentFrame cmd s).res32 = s.res32 := rfl
@[simp] theorem sentFrame_outblk (cmd : List Byte) (s : State) : (sentFrame cmd s).outblk = s.outblk := rfl
@[simp] theorem sentFrame_sens (cmd : List Byte) (s : State) : (sentFrame cmd s).sens = s.sens := rfl
@[simp] theorem sentFrame_selr (cmd : List Byte) (s : State) : (sentFrame cmd s).selr = s.selr := rfl
@[simp] theorem sentFrame_idlen (cmd : List Byte) (s : State) : (sentFrame cmd s).idlen = s.idlen := rfl
@[simp] theorem sentFrame_regval (cmd : List Byte) (s : State) : (sentFrame cmd s).regval = s.regval := rfl
@[simp] theorem sentFrame_rcount (cmd : List Byte) (s : State) : (sentFrame cmd s).rcount = s.rcount := rfl
@[simp] theorem sentFrame_trace (cmd : List Byte) (s : State) : (sentFrame cmd s).trace = (frameEvents s.cfg cmd).reverse ++ s.trace := rfl
@[simp] theorem sentFrame_readDone (cmd : List Byte) (s : State) : (sentFrame cmd s).readDone = s.readDone := rfl
@[simp] theorem sentFrame_ret (cmd : List Byte) (s : State) : (sentFrame cmd s).ret = s.ret := rfl
@[simp] theorem sentFrame_epoch (cmd : List Byte) (s : State) : (sentFrame cmd s).epoch = s.epoch := rfl
@[simp] theorem sentFrame_din (cmd : List Byte) (s : State) : (sentFrame cmd s).din = s.din := rfl
@[simp] theorem sentFrame_draws (cmd : List Byte) (s : State) : (sentFrame cmd s).draws = s.draws := rfl
@[simp] theorem sentFrame_host (cmd : List Byte) (s : State) : (sentFrame cmd s).host = s.host := rfl
@[simp] theorem sentFrame_hostData (cmd : List Byte) (s : State) : (sentFrame cmd s).hostData = s.hostData := rfl

@[simp] theorem polled_cfg (p charged : Nat) (s : State) : (polled p charged s).cfg = s.cfg := rfl
@[simp] theorem polled_clk (p charged : Nat) (s : State) : (polled p charged s).clk = true := rfl
@[simp] theorem polled_dout (p charged : Nat) (s : State) : (polled p charged s).dout = s.cfg.spiSR.getLsbD 7 := rfl
@[simp] theorem polled_sel (p charged : Nat) (s : State) : (polled p charged s).sel = false := rfl
@[simp] theorem polled_shr (p charged : Nat) (s : State) : (polled p charged s).shr = s.chip p := rfl
@[simp] theorem polled_bcnt (p charged : Nat) (s : State) : (polled p charged s).bcnt = 8 := rfl
@[simp] theorem polled_cks (p charged : Nat) (s : State) : (polled p charged s).cks = s.cks := rfl
@[simp] theorem polled_idx (p charged : Nat) (s : State) : (polled p charged s).idx = s.idx := rfl
@[simp] theorem polled_tlen (p charged : Nat) (s : State) : (polled p charged s).tlen = s.tlen := rfl
@[simp] theorem polled_ackr (p charged : Nat) (s : State) : (polled p charged s).ackr = s.ackr := rfl
@[simp] theorem polled_elapsed (p charged : Nat) (s : State) : (polled p charged s).elapsed = s.elapsed + charged * s.cfg.pollInterval := rfl
@[simp] theorem polled_op (p charged : Nat) (s : State) : (polled p charged s).op = s.op := rfl
@[simp] theorem polled_busy (p charged : Nat) (s : State) : (polled p charged s).busy = s.busy := rfl
@[simp] theorem polled_tstate (p charged : Nat) (s : State) : (polled p charged s).tstate = s.tstate := rfl
@[simp] theorem polled_args (p charged : Nat) (s : State) : (polled p charged s).args = s.args := rfl
@[simp] theorem polled_ok (p charged : Nat) (s : State) : (polled p charged s).ok = s.ok := rfl
@[simp] theorem polled_err (p charged : Nat) (s : State) : (polled p charged s).err = s.err := rfl
@[simp] theorem polled_errinfo (p charged : Nat) (s : State) : (polled p charged s).errinfo = s.errinfo := rfl
@[simp] theorem polled_short (p charged : Nat) (s : State) : (polled p charged s).short = s.short := rfl
@[simp] theorem polled_stat (p charged : Nat) (s : State) : (polled p charged s).stat = s.chip p := rfl
@[simp] theorem polled_budget (p charged : Nat) (s : State) : (polled p charged s).budget = s.budget := rfl
@[simp] theorem polled_mode (p charged : Nat) (s : State) : (polled p charged s).mode = s.mode := rfl
@[simp] theorem polled_buf (p charged : Nat) (s : State) : (polled p charged s).buf = s.buf := rfl
@[simp] theorem polled_res32 (p charged : Nat) (s : State) : (polled p charged s).res32 = s.res32 := rfl
@[simp] theorem polled_outblk (p charged : Nat) (s : State) : (polled p charged s).outblk = s.outblk := rfl
@[simp] theorem polled_sens (p charged : Nat) (s : State) : (polled p charged s).sens = s.sens := rfl
@[simp] theorem polled_selr (p charged : Nat) (s : State) : (polled p charged s).selr = s.selr := rfl
@[simp] theorem polled_idlen (p charged : Nat) (s : State) : (polled p charged s).idlen = s.idlen := rfl
@[simp] theorem polled_regval (p charged : Nat) (s : State) : (polled p charged s).regval = s.regval := rfl
@[simp] theorem polled_rcount (p charged : Nat) (s : State) : (polled p charged s).rcount = s.rcount := rfl
@[simp] theorem polled_trace (p charged : Nat) (s : State) : (polled p charged s).trace = (waitEvents s.cfg (s.chipBytes 0 (p + 1))).reverse ++ s.trace := rfl
@[simp] theorem polled_readDone (p charged : Nat) (s : State) : (polled p charged s).readDone = s.readDone := rfl
@[simp] theorem polled_ret (p charged : Nat) (s : State) : (polled p charged s).ret = s.ret := rfl
@[simp] theorem polled_epoch (p charged : Nat) (s : State) : (polled p charged s).epoch = s.epoch := rfl
@[simp] theorem polled_din (p charged : Nat) (s : State) : (polled p charged s).din = s.din.drop (8 * (p + 1)) := rfl
@[simp] theorem polled_draws (p charged : Nat) (s : State) : (polled p charged s).draws = s.draws + (8 * (p + 1) - s.din.length) := rfl
@[simp] theorem polled_host (p charged : Nat) (s : State) : (polled p charged s).host = s.host := rfl
@[simp] theorem polled_hostData (p charged : Nat) (s : State) : (polled p charged s).hostData = s.hostData := rfl

@[simp] theorem ackTaken_clk (s : State) : (ackTaken s).clk = true := rfl
@[simp] theorem ackTaken_dout (s : State) : (ackTaken s).dout = s.cfg.spiDR.getLsbD 7 := rfl
@[simp] theorem ackTaken_sel (s : State) : (ackTaken s).sel = false := rfl
@[simp] theorem ackTaken_shr (s : State) : (ackTaken s).shr = s.chip 5 := rfl
@[simp] theorem ackTaken_bcnt (s : State) : (ackTaken s).bcnt = 8 := rfl
@[simp] theorem ackTaken_cks (s : State) : (ackTaken s).cks = s.cks := rfl
@[simp] theorem ackTaken_idx (s : State) : (ackTaken s).idx = s.idx := rfl
@[simp] theorem ackTaken_tlen (s : State) : (ackTaken s).tlen = s.tlen := rfl
@[simp] theorem ackTaken_ackr (s : State) : (ackTaken s).ackr = ackRead s := rfl
@[simp] theorem ackTaken_elapsed (s : State) : (ackTaken s).elapsed = s.elapsed := rfl
@[simp] theorem ackTaken_op (s : State) : (ackTaken s).op = s.op := rfl
@[simp] theorem ackTaken_busy (s : State) : (ackTaken s).busy = s.busy := rfl
@[simp] theorem ackTaken_tstate (s : State) : (ackTaken s).tstate = s.tstate := rfl
@[simp] theorem ackTaken_args (s : State) : (ackTaken s).args = s.args := rfl
@[simp] theorem ackTaken_ok (s : State) : (ackTaken s).ok = s.ok := rfl
@[simp] theorem ackTaken_err (s : State) : (ackTaken s).err = s.err := rfl
@[simp] theorem ackTaken_errinfo (s : State) : (ackTaken s).errinfo = s.errinfo := rfl
@[simp] theorem ackTaken_short (s : State) : (ackTaken s).short = s.short := rfl
@[simp] theorem ackTaken_stat (s : State) : (ackTaken s).stat = s.stat := rfl
@[simp] theorem ackTaken_budget (s : State) : (ackTaken s).budget = s.budget := rfl
@[simp] theorem ackTaken_mode (s : State) : (ackTaken s).mode = s.mode := rfl
@[simp] theorem ackTaken_buf (s : State) : (ackTaken s).buf = s.buf := rfl
@[simp] theorem ackTaken_res32 (s : State) : (ackTaken s).res32 = s.res32 := rfl
@[simp] theorem ackTaken_outblk (s : State) : (ackTaken s).outblk = s.outblk := rfl
@[simp] theorem ackTaken_sens (s : State) : (ackTaken s).sens = s.sens := rfl
@[simp] theorem ackTaken_selr (s : State) : (ackTaken s).selr = s.selr := rfl
@[simp] theorem ackTaken_idlen (s : State) : (ackTaken s).idlen = s.idlen := rfl
@[simp] theorem ackTaken_regval (s : State) : (ackTaken s).regval = s.regval := rfl
@[simp] theorem ackTaken_rcount (s : State) : (ackTaken s).rcount = s.rcount := rfl
@[simp] theorem ackTaken_trace (s : State) : (ackTaken s).trace = (readTransaction s.cfg (s.chipBytes 0 6)).reverse ++ s.trace := rfl
@[simp] theorem ackTaken_readDone (s : State) : (ackTaken s).readDone = s.readDone := rfl
@[simp] theorem ackTaken_ret (s : State) : (ackTaken s).ret = s.ret := rfl
@[simp] theorem ackTaken_epoch (s : State) : (ackTaken s).epoch = s.epoch := rfl
@[simp] theorem ackTaken_din (s : State) : (ackTaken s).din = s.din.drop (48) := rfl
@[simp] theorem ackTaken_draws (s : State) : (ackTaken s).draws = s.draws + (48 - s.din.length) := rfl
@[simp] theorem ackTaken_host (s : State) : (ackTaken s).host = s.host := rfl
@[simp] theorem ackTaken_hostData (s : State) : (ackTaken s).hostData = s.hostData := rfl

@[simp] theorem fixedRead_cfg (r : Nat) (s : State) : (fixedRead r s).cfg = s.cfg := rfl
@[simp] theorem fixedRead_clk (r : Nat) (s : State) : (fixedRead r s).clk = true := rfl
@[simp] theorem fixedRead_dout (r : Nat) (s : State) : (fixedRead r s).dout = s.cfg.spiDR.getLsbD 7 := rfl
@[simp] theorem fixedRead_sel (r : Nat) (s : State) : (fixedRead r s).sel = false := rfl
@[simp] theorem fixedRead_shr (r : Nat) (s : State) : (fixedRead r s).shr = if r = 0 then s.cfg.spiDR else s.chip (r - 1) := rfl
@[simp] theorem fixedRead_bcnt (r : Nat) (s : State) : (fixedRead r s).bcnt = 8 := rfl
@[simp] theorem fixedRead_cks (r : Nat) (s : State) : (fixedRead r s).cks = s.cks := rfl
@[simp] theorem fixedRead_idx (r : Nat) (s : State) : (fixedRead r s).idx = if r = 0 then s.idx else r - 1 := rfl
@[simp] theorem fixedRead_tlen (r : Nat) (s : State) : (fixedRead r s).tlen = s.tlen := rfl
@[simp] theorem fixedRead_ackr (r : Nat) (s : State) : (fixedRead r s).ackr = s.ackr := rfl
@[simp] theorem fixedRead_elapsed (r : Nat) (s : State) : (fixedRead r s).elapsed = s.elapsed := rfl
@[simp] theorem fixedRead_op (r : Nat) (s : State) : (fixedRead r s).op = s.op := rfl
@[simp] theorem fixedRead_busy (r : Nat) (s : State) : (fixedRead r s).busy = s.busy := rfl
@[simp] theorem fixedRead_tstate (r : Nat) (s : State) : (fixedRead r s).tstate = s.tstate := rfl
@[simp] theorem fixedRead_args (r : Nat) (s : State) : (fixedRead r s).args = s.args := rfl
@[simp] theorem fixedRead_ok (r : Nat) (s : State) : (fixedRead r s).ok = s.ok := rfl
@[simp] theorem fixedRead_err (r : Nat) (s : State) : (fixedRead r s).err = s.err := rfl
@[simp] theorem fixedRead_errinfo (r : Nat) (s : State) : (fixedRead r s).errinfo = s.errinfo := rfl
@[simp] theorem fixedRead_short (r : Nat) (s : State) : (fixedRead r s).short = s.short := rfl
@[simp] theorem fixedRead_stat (r : Nat) (s : State) : (fixedRead r s).stat = s.stat := rfl
@[simp] theorem fixedRead_budget (r : Nat) (s : State) : (fixedRead r s).budget = s.budget := rfl
@[simp] theorem fixedRead_mode (r : Nat) (s : State) : (fixedRead r s).mode = s.mode := rfl
@[simp] theorem fixedRead_buf (r : Nat) (s : State) : (fixedRead r s).buf = (s.putBytes 0 (s.chipBytes 0 r)).buf := rfl
@[simp] theorem fixedRead_res32 (r : Nat) (s : State) : (fixedRead r s).res32 = s.res32 := rfl
@[simp] theorem fixedRead_outblk (r : Nat) (s : State) : (fixedRead r s).outblk = s.outblk := rfl
@[simp] theorem fixedRead_sens (r : Nat) (s : State) : (fixedRead r s).sens = s.sens := rfl
@[simp] theorem fixedRead_selr (r : Nat) (s : State) : (fixedRead r s).selr = s.selr := rfl
@[simp] theorem fixedRead_idlen (r : Nat) (s : State) : (fixedRead r s).idlen = s.idlen := rfl
@[simp] theorem fixedRead_regval (r : Nat) (s : State) : (fixedRead r s).regval = s.regval := rfl
@[simp] theorem fixedRead_rcount (r : Nat) (s : State) : (fixedRead r s).rcount = r := rfl
@[simp] theorem fixedRead_trace (r : Nat) (s : State) : (fixedRead r s).trace = (readTransaction s.cfg (s.chipBytes 0 r)).reverse ++ s.trace := rfl
@[simp] theorem fixedRead_readDone (r : Nat) (s : State) : (fixedRead r s).readDone = true := rfl
@[simp] theorem fixedRead_ret (r : Nat) (s : State) : (fixedRead r s).ret = s.ret := rfl
@[simp] theorem fixedRead_epoch (r : Nat) (s : State) : (fixedRead r s).epoch = s.epoch := rfl
@[simp] theorem fixedRead_din (r : Nat) (s : State) : (fixedRead r s).din = s.din.drop (8 * r) := rfl
@[simp] theorem fixedRead_draws (r : Nat) (s : State) : (fixedRead r s).draws = s.draws + (8 * r - s.din.length) := rfl
@[simp] theorem fixedRead_host (r : Nat) (s : State) : (fixedRead r s).host = s.host := rfl
@[simp] theorem fixedRead_hostData (r : Nat) (s : State) : (fixedRead r s).hostData = s.hostData := rfl

@[simp] theorem headerRead_cfg (s : State) : (headerRead s).cfg = s.cfg := rfl
@[simp] theorem headerRead_clk (s : State) : (headerRead s).clk = true := rfl
@[simp] theorem headerRead_dout (s : State) : (headerRead s).dout = s.cfg.spiDR.getLsbD 7 := rfl
@[simp] theorem headerRead_sel (s : State) : (headerRead s).sel = true := rfl
@[simp] theorem headerRead_shr (s : State) : (headerRead s).shr = s.chip 4 := rfl
@[simp] theorem headerRead_bcnt (s : State) : (headerRead s).bcnt = 8 := rfl
@[simp] theorem headerRead_cks (s : State) : (headerRead s).cks = s.cks := rfl
@[simp] theorem headerRead_idx (s : State) : (headerRead s).idx = s.idx := rfl
@[simp] theorem headerRead_tlen (s : State) : (headerRead s).tlen = s.tlen := rfl
@[simp] theorem headerRead_ackr (s : State) : (headerRead s).ackr = s.ackr := rfl
@[simp] theorem headerRead_elapsed (s : State) : (headerRead s).elapsed = s.elapsed := rfl
@[simp] theorem headerRead_op (s : State) : (headerRead s).op = s.op := rfl
@[simp] theorem headerRead_busy (s : State) : (headerRead s).busy = s.busy := rfl
@[simp] theorem headerRead_tstate (s : State) : (headerRead s).tstate = s.tstate := rfl
@[simp] theorem headerRead_args (s : State) : (headerRead s).args = s.args := rfl
@[simp] theorem headerRead_ok (s : State) : (headerRead s).ok = s.ok := rfl
@[simp] theorem headerRead_err (s : State) : (headerRead s).err = s.err := rfl
@[simp] theorem headerRead_errinfo (s : State) : (headerRead s).errinfo = s.errinfo := rfl
@[simp] theorem headerRead_short (s : State) : (headerRead s).short = s.short := rfl
@[simp] theorem headerRead_stat (s : State) : (headerRead s).stat = s.stat := rfl
@[simp] theorem headerRead_budget (s : State) : (headerRead s).budget = s.budget := rfl
@[simp] theorem headerRead_mode (s : State) : (headerRead s).mode = s.mode := rfl
@[simp] theorem headerRead_buf (s : State) : (headerRead s).buf = (s.putBytes 0 (s.chipBytes 0 5)).buf := rfl
@[simp] theorem headerRead_res32 (s : State) : (headerRead s).res32 = s.res32 := rfl
@[simp] theorem headerRead_outblk (s : State) : (headerRead s).outblk = s.outblk := rfl
@[simp] theorem headerRead_sens (s : State) : (headerRead s).sens = s.sens := rfl
@[simp] theorem headerRead_selr (s : State) : (headerRead s).selr = s.selr := rfl
@[simp] theorem headerRead_idlen (s : State) : (headerRead s).idlen = s.idlen := rfl
@[simp] theorem headerRead_regval (s : State) : (headerRead s).regval = s.regval := rfl
@[simp] theorem headerRead_rcount (s : State) : (headerRead s).rcount = s.rcount := rfl
@[simp] theorem headerRead_trace (s : State) : (headerRead s).trace = (selectEvents s.cfg ++ writeEvents s.cfg.spiDR ++ (s.chipBytes 0 5).flatMap (readEvents s.cfg)).reverse ++ s.trace := rfl
@[simp] theorem headerRead_readDone (s : State) : (headerRead s).readDone = s.readDone := rfl
@[simp] theorem headerRead_ret (s : State) : (headerRead s).ret = s.ret := rfl
@[simp] theorem headerRead_epoch (s : State) : (headerRead s).epoch = s.epoch := rfl
@[simp] theorem headerRead_din (s : State) : (headerRead s).din = s.din.drop (40) := rfl
@[simp] theorem headerRead_draws (s : State) : (headerRead s).draws = s.draws + (40 - s.din.length) := rfl
@[simp] theorem headerRead_host (s : State) : (headerRead s).host = s.host := rfl
@[simp] theorem headerRead_hostData (s : State) : (headerRead s).hostData = s.hostData := rfl

@[simp] theorem variableRead_cfg (n : Nat) (short : Bool) (s : State) : (variableRead n short s).cfg = s.cfg := rfl
@[simp] theorem variableRead_clk (n : Nat) (short : Bool) (s : State) : (variableRead n short s).clk = true := rfl
@[simp] theorem variableRead_dout (n : Nat) (short : Bool) (s : State) : (variableRead n short s).dout = s.cfg.spiDR.getLsbD 7 := rfl
@[simp] theorem variableRead_sel (n : Nat) (short : Bool) (s : State) : (variableRead n short s).sel = false := rfl
@[simp] theorem variableRead_shr (n : Nat) (short : Bool) (s : State) : (variableRead n short s).shr = s.chip (n - 1) := rfl
@[simp] theorem variableRead_bcnt (n : Nat) (short : Bool) (s : State) : (variableRead n short s).bcnt = 8 := rfl
@[simp] theorem variableRead_cks (n : Nat) (short : Bool) (s : State) : (variableRead n short s).cks = s.cks := rfl
@[simp] theorem variableRead_idx (n : Nat) (short : Bool) (s : State) : (variableRead n short s).idx = if n = 5 then s.idx else n - 1 := rfl
@[simp] theorem variableRead_tlen (n : Nat) (short : Bool) (s : State) : (variableRead n short s).tlen = n := rfl
@[simp] theorem variableRead_ackr (n : Nat) (short : Bool) (s : State) : (variableRead n short s).ackr = s.ackr := rfl
@[simp] theorem variableRead_elapsed (n : Nat) (short : Bool) (s : State) : (variableRead n short s).elapsed = s.elapsed := rfl
@[simp] theorem variableRead_op (n : Nat) (short : Bool) (s : State) : (variableRead n short s).op = s.op := rfl
@[simp] theorem variableRead_busy (n : Nat) (short : Bool) (s : State) : (variableRead n short s).busy = s.busy := rfl
@[simp] theorem variableRead_tstate (n : Nat) (short : Bool) (s : State) : (variableRead n short s).tstate = s.tstate := rfl
@[simp] theorem variableRead_args (n : Nat) (short : Bool) (s : State) : (variableRead n short s).args = s.args := rfl
@[simp] theorem variableRead_ok (n : Nat) (short : Bool) (s : State) : (variableRead n short s).ok = s.ok := rfl
@[simp] theorem variableRead_err (n : Nat) (short : Bool) (s : State) : (variableRead n short s).err = s.err := rfl
@[simp] theorem variableRead_errinfo (n : Nat) (short : Bool) (s : State) : (variableRead n short s).errinfo = s.errinfo := rfl
@[simp] theorem variableRead_short (n : Nat) (short : Bool) (s : State) : (variableRead n short s).short = short := rfl
@[simp] theorem variableRead_stat (n : Nat) (short : Bool) (s : State) : (variableRead n short s).stat = s.stat := rfl
@[simp] theorem variableRead_budget (n : Nat) (short : Bool) (s : State) : (variableRead n short s).budget = s.budget := rfl
@[simp] theorem variableRead_mode (n : Nat) (short : Bool) (s : State) : (variableRead n short s).mode = s.mode := rfl
@[simp] theorem variableRead_buf (n : Nat) (short : Bool) (s : State) : (variableRead n short s).buf = (s.putBytes 0 (s.chipBytes 0 n)).buf := rfl
@[simp] theorem variableRead_res32 (n : Nat) (short : Bool) (s : State) : (variableRead n short s).res32 = s.res32 := rfl
@[simp] theorem variableRead_outblk (n : Nat) (short : Bool) (s : State) : (variableRead n short s).outblk = s.outblk := rfl
@[simp] theorem variableRead_sens (n : Nat) (short : Bool) (s : State) : (variableRead n short s).sens = s.sens := rfl
@[simp] theorem variableRead_selr (n : Nat) (short : Bool) (s : State) : (variableRead n short s).selr = s.selr := rfl
@[simp] theorem variableRead_idlen (n : Nat) (short : Bool) (s : State) : (variableRead n short s).idlen = s.idlen := rfl
@[simp] theorem variableRead_regval (n : Nat) (short : Bool) (s : State) : (variableRead n short s).regval = s.regval := rfl
@[simp] theorem variableRead_rcount (n : Nat) (short : Bool) (s : State) : (variableRead n short s).rcount = s.rcount := rfl
@[simp] theorem variableRead_trace (n : Nat) (short : Bool) (s : State) : (variableRead n short s).trace = (readTransaction s.cfg (s.chipBytes 0 n)).reverse ++ s.trace := rfl
@[simp] theorem variableRead_readDone (n : Nat) (short : Bool) (s : State) : (variableRead n short s).readDone = s.readDone := rfl
@[simp] theorem variableRead_ret (n : Nat) (short : Bool) (s : State) : (variableRead n short s).ret = s.ret := rfl
@[simp] theorem variableRead_epoch (n : Nat) (short : Bool) (s : State) : (variableRead n short s).epoch = s.epoch := rfl
@[simp] theorem variableRead_din (n : Nat) (short : Bool) (s : State) : (variableRead n short s).din = s.din.drop (8 * n) := rfl
@[simp] theorem variableRead_draws (n : Nat) (short : Bool) (s : State) : (variableRead n short s).draws = s.draws + (8 * n - s.din.length) := rfl
@[simp] theorem variableRead_host (n : Nat) (short : Bool) (s : State) : (variableRead n short s).host = s.host := rfl
@[simp] theorem variableRead_hostData (n : Nat) (short : Bool) (s : State) : (variableRead n short s).hostData = s.hostData := rfl

@[simp] theorem firstWait_cfg (cmd : List Byte) (p charged : Nat) (s : State) : (firstWait cmd p charged s).cfg = s.cfg := rfl
@[simp] theorem firstWait_clk (cmd : List Byte) (p charged : Nat) (s : State) : (firstWait cmd p charged s).clk = true := rfl
@[simp] theorem firstWait_dout (cmd : List Byte) (p charged : Nat) (s : State) : (firstWait cmd p charged s).dout = s.cfg.spiSR.getLsbD 7 := rfl
@[simp] theorem firstWait_sel (cmd : List Byte) (p charged : Nat) (s : State) : (firstWait cmd p charged s).sel = false := rfl
@[simp] theorem firstWait_shr (cmd : List Byte) (p charged : Nat) (s : State) : (firstWait cmd p charged s).shr = s.chip p := rfl
@[simp] theorem firstWait_bcnt (cmd : List Byte) (p charged : Nat) (s : State) : (firstWait cmd p charged s).bcnt = 8 := rfl
@[simp] theorem firstWait_cks (cmd : List Byte) (p charged : Nat) (s : State) : (firstWait cmd p charged s).cks = runningChecksum s.cfg cmd := rfl
@[simp] theorem firstWait_idx (cmd : List Byte) (p charged : Nat) (s : State) : (firstWait cmd p charged s).idx = cmd.length + 7 := rfl
@[simp] theorem firstWait_tlen (cmd : List Byte) (p charged : Nat) (s : State) : (firstWait cmd p charged s).tlen = s.tlen := rfl
@[simp] theorem firstWait_ackr (cmd : List Byte) (p charged : Nat) (s : State) : (firstWait cmd p charged s).ackr = s.ackr := rfl
@[simp] theorem firstWait_elapsed (cmd : List Byte) (p charged : Nat) (s : State) : (firstWait cmd p charged s).elapsed = charged * s.cfg.pollInterval := rfl
@[simp] theorem firstWait_op (cmd : List Byte) (p charged : Nat) (s : State) : (firstWait cmd p charged s).op = s.op := rfl
@[simp] theorem firstWait_busy (cmd : List Byte) (p charged : Nat) (s : State) : (firstWait cmd p charged s).busy = s.busy := rfl
@[simp] theorem firstWait_tstate (cmd : List Byte) (p charged : Nat) (s : State) : (firstWait cmd p charged s).tstate = .awaitingReady1 := rfl
@[simp] theorem firstWait_args (cmd : List Byte) (p charged : Nat) (s : State) : (firstWait cmd p charged s).args = s.args := rfl
@[simp] theorem firstWait_ok (cmd : List Byte) (p charged : Nat) (s : State) : (firstWait cmd p charged s).ok = s.ok := rfl
@[simp] theorem firstWait_err (cmd : List Byte) (p charged : Nat) (s : State) : (firstWait cmd p charged s).err = s.err := rfl
@[simp] theorem firstWait_errinfo (cmd : List Byte) (p charged : Nat) (s : State) : (firstWait cmd p charged s).errinfo = s.errinfo := rfl
@[simp] theorem firstWait_short (cmd : List Byte) (p charged : Nat) (s : State) : (firstWait cmd p charged s).short = s.short := rfl
@[simp] theorem firstWait_stat (cmd : List Byte) (p charged : Nat) (s : State) : (firstWait cmd p charged s).stat = s.chip p := rfl
@[simp] theorem firstWait_budget (cmd : List Byte) (p charged : Nat) (s : State) : (firstWait cmd p charged s).budget = s.budget := rfl
@[simp] theorem firstWait_mode (cmd : List Byte) (p charged : Nat) (s : State) : (firstWait cmd p charged s).mode = s.mode := rfl
@[simp] theorem firstWait_buf (cmd : List Byte) (p charged : Nat) (s : State) : (firstWait cmd p charged s).buf = s.buf := rfl
@[simp] theorem firstWait_res32 (cmd : List Byte) (p charged : Nat) (s : State) : (firstWait cmd p charged s).res32 = s.res32 := rfl
@[simp] theorem firstWait_outblk (cmd : List Byte) (p charged : Nat) (s : State) : (firstWait cmd p charged s).outblk = s.outblk := rfl
@[simp] theorem firstWait_sens (cmd : List Byte) (p charged : Nat) (s : State) : (firstWait cmd p charged s).sens = s.sens := rfl
@[simp] theorem firstWait_selr (cmd : List Byte) (p charged : Nat) (s : State) : (firstWait cmd p charged s).selr = s.selr := rfl
@[simp] theorem firstWait_idlen (cmd : List Byte) (p charged : Nat) (s : State) : (firstWait cmd p charged s).idlen = s.idlen := rfl
@[simp] theorem firstWait_regval (cmd : List Byte) (p charged : Nat) (s : State) : (firstWait cmd p charged s).regval = s.regval := rfl
@[simp] theorem firstWait_rcount (cmd : List Byte) (p charged : Nat) (s : State) : (firstWait cmd p charged s).rcount = s.rcount := rfl
@[simp] theorem firstWait_trace (cmd : List Byte) (p charged : Nat) (s : State) : (firstWait cmd p charged s).trace = (frameEvents s.cfg cmd ++ waitEvents s.cfg (s.chipBytes 0 (p + 1))).reverse ++ s.trace := rfl
@[simp] theorem firstWait_readDone (cmd : List Byte) (p charged : Nat) (s : State) : (firstWait cmd p charged s).readDone = s.readDone := rfl
@[simp] theorem firstWait_ret (cmd : List Byte) (p charged : Nat) (s : State) : (firstWait cmd p charged s).ret = s.ret := rfl
@[simp] theorem firstWait_epoch (cmd : List Byte) (p charged : Nat) (s : State) : (firstWait cmd p charged s).epoch = s.epoch := rfl
@[simp] theorem firstWait_din (cmd : List Byte) (p charged : Nat) (s : State) : (firstWait cmd p charged s).din = s.din.drop (8 * (p + 1)) := rfl
@[simp] theorem firstWait_draws (cmd : List Byte) (p charged : Nat) (s : State) : (firstWait cmd p charged s).draws = s.draws + (8 * (p + 1) - s.din.length) := rfl
@[simp] theorem firstWait_host (cmd : List Byte) (p charged : Nat) (s : State) : (firstWait cmd p charged s).host = s.host := rfl
@[simp] theorem firstWait_hostData (cmd : List Byte) (p charged : Nat) (s : State) : (firstWait cmd p charged s).hostData = s.hostData := rfl

@[simp] theorem ackPhase_cfg (cmd : List Byte) (p : Nat) (s : State) : (ackPhase cmd p s).cfg = s.cfg := rfl
@[simp] theorem ackPhase_clk (cmd : List Byte) (p : Nat) (s : State) : (ackPhase cmd p s).clk = true := rfl
@[simp] theorem ackPhase_dout (cmd : List Byte) (p : Nat) (s : State) : (ackPhase cmd p s).dout = s.cfg.spiDR.getLsbD 7 := rfl
@[simp] theorem ackPhase_sel (cmd : List Byte) (p : Nat) (s : State) : (ackPhase cmd p s).sel = false := rfl
@[simp] theorem ackPhase_shr (cmd : List Byte) (p : Nat) (s : State) : (ackPhase cmd p s).shr = s.chip (p + 6) := rfl
@[simp] theorem ackPhase_bcnt (cmd : List Byte) (p : Nat) (s : State) : (ackPhase cmd p s).bcnt = 8 := rfl
@[simp] theorem ackPhase_cks (cmd : List Byte) (p : Nat) (s : State) : (ackPhase cmd p s).cks = runningChecksum s.cfg cmd := rfl
@[simp] theorem ackPhase_idx (cmd : List Byte) (p : Nat) (s : State) : (ackPhase cmd p s).idx = cmd.length + 7 := rfl
@[simp] theorem ackPhase_tlen (cmd : List Byte) (p : Nat) (s : State) : (ackPhase cmd p s).tlen = s.tlen := rfl
@[simp] theorem ackPhase_ackr (cmd : List Byte) (p : Nat) (s : State) : (ackPhase cmd p s).ackr = ackAt s (p + 1) := rfl
@[simp] theorem ackPhase_elapsed (cmd : List Byte) (p : Nat) (s : State) : (ackPhase cmd p s).elapsed = p * s.cfg.pollInterval := rfl
@[simp] theorem ackPhase_op (cmd : List Byte) (p : Nat) (s : State) : (ackPhase cmd p s).op = s.op := rfl
@[simp] theorem ackPhase_busy (cmd : List Byte) (p : Nat) (s : State) : (ackPhase cmd p s).busy = s.busy := rfl
@[simp] theorem ackPhase_tstate (cmd : List Byte) (p : Nat) (s : State) : (ackPhase cmd p s).tstate = .ackRead := rfl
@[simp] theorem ackPhase_args (cmd : List Byte) (p : Nat) (s : State) : (ackPhase cmd p s).args = s.args := rfl
@[simp] theorem ackPhase_ok (cmd : List Byte) (p : Nat) (s : State) : (ackPhase cmd p s).ok = s.ok := rfl
@[simp] theorem ackPhase_err (cmd : List Byte) (p : Nat) (s : State) : (ackPhase cmd p s).err = s.err := rfl
@[simp] theorem ackPhase_errinfo (cmd : List Byte) (p : Nat) (s : State) : (ackPhase cmd p s).errinfo = s.errinfo := rfl
@[simp] theorem ackPhase_short (cmd : List Byte) (p : Nat) (s : State) : (ackPhase cmd p s).short = s.short := rfl
@[simp] theorem ackPhase_stat (cmd : List Byte) (p : Nat) (s : State) : (ackPhase cmd p s).stat = s.chip p := rfl
@[simp] theorem ackPhase_budget (cmd : List Byte) (p : Nat) (s : State) : (ackPhase cmd p s).budget = s.budget := rfl
@[simp] theorem ackPhase_mode (cmd : List Byte) (p : Nat) (s : State) : (ackPhase cmd p s).mode = s.mode := rfl
@[simp] theorem ackPhase_buf (cmd : List Byte) (p : Nat) (s : State) : (ackPhase cmd p s).buf = s.buf := rfl
@[simp] theorem ackPhase_res32 (cmd : List Byte) (p : Nat) (s : State) : (ackPhase cmd p s).res32 = s.res32 := rfl
@[simp] theorem ackPhase_outblk (cmd : List Byte) (p : Nat) (s : State) : (ackPhase cmd p s).outblk = s.outblk := rfl
@[simp] theorem ackPhase_sens (cmd : List Byte) (p : Nat) (s : State) : (ackPhase cmd p s).sens = s.sens := rfl
@[simp] theorem ackPhase_selr (cmd : List Byte) (p : Nat) (s : State) : (ackPhase cmd p s).selr = s.selr := rfl
@[simp] theorem ackPhase_idlen (cmd : List Byte) (p : Nat) (s : State) : (ackPhase cmd p s).idlen = s.idlen := rfl
@[simp] theorem ackPhase_regval (cmd : List Byte) (p : Nat) (s : State) : (ackPhase cmd p s).regval = s.regval := rfl
@[simp] theorem ackPhase_rcount (cmd : List Byte) (p : Nat) (s : State) : (ackPhase cmd p s).rcount = s.rcount := rfl
@[simp] theorem ackPhase_trace (cmd : List Byte) (p : Nat) (s : State) : (ackPhase cmd p s).trace = (frameEvents s.cfg cmd ++ waitEvents s.cfg (s.chipBytes 0 (p + 1)) ++ readTransaction s.cfg (s.chipBytes (p + 1) 6)).reverse ++ s.trace := rfl
@[simp] theorem ackPhase_readDone (cmd : List Byte) (p : Nat) (s : State) : (ackPhase cmd p s).readDone = s.readDone := rfl
@[simp] theorem ackPhase_ret (cmd : List Byte) (p : Nat) (s : State) : (ackPhase cmd p s).ret = s.ret := rfl
@[simp] theorem ackPhase_epoch (cmd : List Byte) (p : Nat) (s : State) : (ackPhase cmd p s).epoch = s.epoch := rfl
@[simp] theorem ackPhase_din (cmd : List Byte) (p : Nat) (s : State) : (ackPhase cmd p s).din = s.din.drop (8 * (p + 7)) := rfl
@[simp] theorem ackPhase_draws (cmd : List Byte) (p : Nat) (s : State) : (ackPhase cmd p s).draws = s.draws + (8 * (p + 7) - s.din.length) := rfl
@[simp] theorem ackPhase_host (cmd : List Byte) (p : Nat) (s : State) : (ackPhase cmd p s).host = s.host := rfl
@[simp] theorem ackPhase_hostData (cmd : List Byte) (p : Nat) (s : State) : (ackPhase cmd p s).hostData = s.hostData := rfl

@[simp] theorem secondWait_cfg (cmd : List Byte) (p q charged : Nat) (s : State) : (secondWait cmd p q charged s).cfg = s.cfg := rfl
@[simp] theorem secondWait_clk (cmd : List Byte) (p q charged : Nat) (s : State) : (secondWait cmd p q charged s).clk = true := rfl
@[simp] theorem secondWait_dout (cmd : List Byte) (p q charged : Nat) (s : State) : (secondWait cmd p q charged s).dout = s.cfg.spiSR.getLsbD 7 := rfl
@[simp] theorem secondWait_sel (cmd : List Byte) (p q charged : Nat) (s : State) : (secondWait cmd p q charged s).sel = false := rfl
@[simp] theorem secondWait_shr (cmd : List Byte) (p q charged : Nat) (s : State) : (secondWait cmd p q charged s).shr = s.chip (p + 7 + q) := rfl
@[simp] theorem secondWait_bcnt (cmd : List Byte) (p q charged : Nat) (s : State) : (secondWait cmd p q charged s).bcnt = 8 := rfl
@[simp] theorem secondWait_cks (cmd : List Byte) (p q charged : Nat) (s : State) : (secondWait cmd p q charged s).cks = runningChecksum s.cfg cmd := rfl
@[simp] theorem secondWait_idx (cmd : List Byte) (p q charged : Nat) (s : State) : (secondWait cmd p q charged s).idx = cmd.length + 7 := rfl
@[simp] theorem secondWait_tlen (cmd : List Byte) (p q charged : Nat) (s : State) : (secondWait cmd p q charged s).tlen = s.tlen := rfl
@[simp] theorem secondWait_ackr (cmd : List Byte) (p q charged : Nat) (s : State) : (secondWait cmd p q charged s).ackr = ackAt s (p + 1) := rfl
@[simp] theorem secondWait_elapsed (cmd : List Byte) (p q charged : Nat) (s : State) : (secondWait cmd p q charged s).elapsed = charged * s.cfg.pollInterval := rfl
@[simp] theorem secondWait_op (cmd : List Byte) (p q charged : Nat) (s : State) : (secondWait cmd p q charged s).op = s.op := rfl
@[simp] theorem secondWait_busy (cmd : List Byte) (p q charged : Nat) (s : State) : (secondWait cmd p q charged s).busy = s.busy := rfl
@[simp] theorem secondWait_tstate (cmd : List Byte) (p q charged : Nat) (s : State) : (secondWait cmd p q charged s).tstate = .awaitingReady2 := rfl
@[simp] theorem secondWait_args (cmd : List Byte) (p q charged : Nat) (s : State) : (secondWait cmd p q charged s).args = s.args := rfl
@[simp] theorem secondWait_ok (cmd : List Byte) (p q charged : Nat) (s : State) : (secondWait cmd p q charged s).ok = s.ok := rfl
@[simp] theorem secondWait_err (cmd : List Byte) (p q charged : Nat) (s : State) : (secondWait cmd p q charged s).err = s.err := rfl
@[simp] theorem secondWait_errinfo (cmd : List Byte) (p q charged : Nat) (s : State) : (secondWait cmd p q charged s).errinfo = s.errinfo := rfl
@[simp] theorem secondWait_short (cmd : List Byte) (p q charged : Nat) (s : State) : (secondWait cmd p q charged s).short = s.short := rfl
@[simp] theorem secondWait_stat (cmd : List Byte) (p q charged : Nat) (s : State) : (secondWait cmd p q charged s).stat = s.chip (p + 7 + q) := rfl
@[simp] theorem secondWait_budget (cmd : List Byte) (p q charged : Nat) (s : State) : (secondWait cmd p q charged s).budget = s.budget := rfl
@[simp] theorem secondWait_mode (cmd : List Byte) (p q charged : Nat) (s : State) : (secondWait cmd p q charged s).mode = s.mode := rfl
@[simp] theorem secondWait_buf (cmd : List Byte) (p q charged : Nat) (s : State) : (secondWait cmd p q charged s).buf = s.buf := rfl
@[simp] theorem secondWait_res32 (cmd : List Byte) (p q charged : Nat) (s : State) : (secondWait cmd p q charged s).res32 = s.res32 := rfl
@[simp] theorem secondWait_outblk (cmd : List Byte) (p q charged : Nat) (s : State) : (secondWait cmd p q charged s).outblk = s.outblk := rfl
@[simp] theorem secondWait_sens (cmd : List Byte) (p q charged : Nat) (s : State) : (secondWait cmd p q charged s).sens = s.sens := rfl
@[simp] theorem secondWait_selr (cmd : List Byte) (p q charged : Nat) (s : State) : (secondWait cmd p q charged s).selr = s.selr := rfl
@[simp] theorem secondWait_idlen (cmd : List Byte) (p q charged : Nat) (s : State) : (secondWait cmd p q charged s).idlen = s.idlen := rfl
@[simp] theorem secondWait_regval (cmd : List Byte) (p q charged : Nat) (s : State) : (secondWait cmd p q charged s).regval = s.regval := rfl
@[simp] theorem secondWait_rcount (cmd : List Byte) (p q charged : Nat) (s : State) : (secondWait cmd p q charged s).rcount = s.rcount := rfl
@[simp] theorem secondWait_trace (cmd : List Byte) (p q charged : Nat) (s : State) : (secondWait cmd p q charged s).trace = (sendEvents s cmd 0 p q).reverse ++ s.trace := rfl
@[simp] theorem secondWait_readDone (cmd : List Byte) (p q charged : Nat) (s : State) : (secondWait cmd p q charged s).readDone = s.readDone := rfl
@[simp] theorem secondWait_ret (cmd : List Byte) (p q charged : Nat) (s : State) : (secondWait cmd p q charged s).ret = s.ret := rfl
@[simp] theorem secondWait_epoch (cmd : List Byte) (p q charged : Nat) (s : State) : (secondWait cmd p q charged s).epoch = s.epoch := rfl
@[simp] theorem secondWait_din (cmd : List Byte) (p q charged : Nat) (s : State) : (secondWait cmd p q charged s).din = s.din.drop (8 * (p + q + 8)) := rfl
@[simp] theorem secondWait_draws (cmd : List Byte) (p q charged : Nat) (s : State) : (secondWait cmd p q charged s).draws = s.draws + (8 * (p + q + 8) - s.din.length) := rfl
@[simp] theorem secondWait_host (cmd : List Byte) (p q charged : Nat) (s : State) : (secondWait cmd p q charged s).host = s.host := rfl
@[simp] theorem secondWait_hostData (cmd : List Byte) (p q charged : Nat) (s : State) : (secondWait cmd p q charged s).hostData = s.hostData := rfl

@[simp] theorem exchanged_cfg (cmd : List Byte) (r p q : Nat) (s : State) : (exchanged cmd r p q s).cfg = s.cfg := rfl
@[simp] theorem exchanged_clk (cmd : List Byte) (r p q : Nat) (s : State) : (exchanged cmd r p q s).clk = true := rfl
@[simp] theorem exchanged_dout (cmd : List Byte) (r p q : Nat) (s : State) : (exchanged cmd r p q s).dout = s.cfg.spiDR.getLsbD 7 := rfl
@[simp] theorem exchanged_sel (cmd : List Byte) (r p q : Nat) (s : State) : (exchanged cmd r p q s).sel = false := rfl
@[simp] theorem exchanged_shr (cmd : List Byte) (r p q : Nat) (s : State) : (exchanged cmd r p q s).shr = if r = 0 then s.cfg.spiDR else s.chip (p + q + 8 + (r - 1)) := rfl
@[simp] theorem exchanged_bcnt (cmd : List Byte) (r p q : Nat) (s : State) : (exchanged cmd r p q s).bcnt = 8 := rfl
@[simp] theorem exchanged_cks (cmd : List Byte) (r p q : Nat) (s : State) : (exchanged cmd r p q s).cks = runningChecksum s.cfg cmd := rfl
@[simp] theorem exchanged_idx (cmd : List Byte) (r p q : Nat) (s : State) : (exchanged cmd r p q s).idx = if r = 0 then cmd.length + 7 else r - 1 := rfl
@[simp] theorem exchanged_tlen (cmd : List Byte) (r p q : Nat) (s : State) : (exchanged cmd r p q s).tlen = s.tlen := rfl
@[simp] theorem exchanged_ackr (cmd : List Byte) (r p q : Nat) (s : State) : (exchanged cmd r p q s).ackr = ackAt s (p + 1) := rfl
@[simp] theorem exchanged_elapsed (cmd : List Byte) (r p q : Nat) (s : State) : (exchanged cmd r p q s).elapsed = q * s.cfg.pollInterval := rfl
@[simp] theorem exchanged_op (cmd : List Byte) (r p q : Nat) (s : State) : (exchanged cmd r p q s).op = s.op := rfl
@[simp] theorem exchanged_busy (cmd : List Byte) (r p q : Nat) (s : State) : (exchanged cmd r p q s).busy = s.busy := rfl
@[simp] theorem exchanged_tstate (cmd : List Byte) (r p q : Nat) (s : State) : (exchanged cmd r p q s).tstate = .success := rfl
@[simp] theorem exchanged_args (cmd : List Byte) (r p q : Nat) (s : State) : (exchanged cmd r p q s).args = s.args := rfl
@[simp] theorem exchanged_ok (cmd : List Byte) (r p q : Nat) (s : State) : (exchanged cmd r p q s).ok = s.ok := rfl
@[simp] theorem exchanged_err (cmd : List Byte) (r p q : Nat) (s : State) : (exchanged cmd r p q s).err = s.err := rfl
@[simp] theorem exchanged_errinfo (cmd : List Byte) (r p q : Nat) (s : State) : (exchanged cmd r p q s).errinfo = s.errinfo := rfl
@[simp] theorem exchanged_short (cmd : List Byte) (r p q : Nat) (s : State) : (exchanged cmd r p q s).short = s.short := rfl
@[simp] theorem exchanged_stat (cmd : List Byte) (r p q : Nat) (s : State) : (exchanged cmd r p q s).stat = s.chip (p + 7 + q) := rfl
@[simp] theorem exchanged_budget (cmd : List Byte) (r p q : Nat) (s : State) : (exchanged cmd r p q s).budget = s.budget := rfl
@[simp] theorem exchanged_mode (cmd : List Byte) (r p q : Nat) (s : State) : (exchanged cmd r p q s).mode = s.mode := rfl
@[simp] theorem exchanged_buf (cmd : List Byte) (r p q : Nat) (s : State) : (exchanged cmd r p q s).buf = (s.putBytes 0 (s.chipBytes (p + q + 8) r)).buf := rfl
@[simp] theorem exchanged_res32 (cmd : List Byte) (r p q : Nat) (s : State) : (exchanged cmd r p q s).res32 = s.res32 := rfl
@[simp] theorem exchanged_outblk (cmd : List Byte) (r p q : Nat) (s : State) : (exchanged cmd r p q s).outblk = s.outblk := rfl
@[simp] theorem exchanged_sens (cmd : List Byte) (r p q : Nat) (s : State) : (exchanged cmd r p q s).sens = s.sens := rfl
@[simp] theorem exchanged_selr (cmd : List Byte) (r p q : Nat) (s : State) : (exchanged cmd r p q s).selr = s.selr := rfl
@[simp] theorem exchanged_idlen (cmd : List Byte) (r p q : Nat) (s : State) : (exchanged cmd r p q s).idlen = s.idlen := rfl
@[simp] theorem exchanged_regval (cmd : List Byte) (r p q : Nat) (s : State) : (exchanged cmd r p q s).regval = s.regval := rfl
@[simp] theorem exchanged_rcount (cmd : List Byte) (r p q : Nat) (s : State) : (exchanged cmd r p q s).rcount = r := rfl
@[simp] theorem exchanged_trace (cmd : List Byte) (r p q : Nat) (s : State) : (exchanged cmd r p q s).trace = (exchangeEvents s cmd 0 p q r).reverse ++ s.trace := rfl
@[simp] theorem exchanged_readDone (cmd : List Byte) (r p q : Nat) (s : State) : (exchanged cmd r p q s).readDone = true := rfl
@[simp] theorem exchanged_ret (cmd : List Byte) (r p q : Nat) (s : State) : (exchanged cmd r p q s).ret = s.ret := rfl
@[simp] theorem exchanged_epoch (cmd : List Byte) (r p q : Nat) (s : State) : (exchanged cmd r p q s).epoch = s.epoch := rfl
@[simp] theorem exchanged_din (cmd : List Byte) (r p q : Nat) (s : State) : (exchanged cmd r p q s).din = s.din.drop (8 * (p + q + 8 + r)) := rfl
@[simp] theorem exchanged_draws (cmd : List Byte) (r p q : Nat) (s : State) : (exchanged cmd r p q s).draws = s.draws + (8 * (p + q + 8 + r) - s.din.length) := rfl
@[simp] theorem exchanged_host (cmd : List Byte) (r p q : Nat) (s : State) : (exchanged cmd r p q s).host = s.host := rfl
@[simp] theorem exchanged_hostData (cmd : List Byte) (r p q : Nat) (s : State) : (exchanged cmd r p q s).hostData = s.hostData := rfl

@[simp] theorem putBytes_cfg (s : State) (a : Nat) (bytes : List Byte) : (s.putBytes a bytes).cfg = s.cfg := by rw [putBytes_eq]
@[simp] theorem putBytes_clk (s : State) (a : Nat) (bytes : List Byte) : (s.putBytes a bytes).clk = s.clk := by rw [putBytes_eq]
@[simp] theorem putBytes_dout (s : State) (a : Nat) (bytes : List Byte) : (s.putBytes a bytes).dout = s.dout := by rw [putBytes_eq]
@[simp] theorem putBytes_sel (s : State) (a : Nat) (bytes : List Byte) : (s.putBytes a bytes).sel = s.sel := by rw [putBytes_eq]
@[simp] theorem putBytes_shr (s : State) (a : Nat) (bytes : List Byte) : (s.putBytes a bytes).shr = s.shr := by rw [putBytes_eq]
@[simp] theorem putBytes_bcnt (s : State) (a : Nat) (bytes : List Byte) : (s.putBytes a bytes).bcnt = s.bcnt := by rw [putBytes_eq]
@[simp] theorem putBytes_cks (s : State) (a : Nat) (bytes : List Byte) : (s.putBytes a bytes).cks = s.cks := by rw [putBytes_eq]
@[simp] theorem putBytes_idx (s : State) (a : Nat) (bytes : List Byte) : (s.putBytes a bytes).idx = s.idx := by rw [putBytes_eq]
@[simp] theorem putBytes_tlen (s : State) (a : Nat) (bytes : List Byte) : (s.putBytes a bytes).tlen = s.tlen := by rw [putBytes_eq]
@[simp] theorem putBytes_ackr (s : State) (a : Nat) (bytes : List Byte) : (s.putBytes a bytes).ackr = s.ackr := by rw [putBytes_eq]
@[simp] theorem putBytes_elapsed (s : State) (a : Nat) (bytes : List Byte) : (s.putBytes a bytes).elapsed = s.elapsed := by rw [putBytes_eq]
@[simp] theorem putBytes_op (s : State) (a : Nat) (bytes : List Byte) : (s.putBytes a bytes).op = s.op := by rw [putBytes_eq]
@[simp] theorem putBytes_busy (s : State) (a : Nat) (bytes : List Byte) : (s.putBytes a bytes).busy = s.busy := by rw [putBytes_eq]
@[simp] theorem putBytes_tstate (s : State) (a : Nat) (bytes : List Byte) : (s.putBytes a bytes).tstate = s.tstate := by rw [putBytes_eq]
@[simp] theorem putBytes_args (s : State) (a : Nat) (bytes : List Byte) : (s.putBytes a bytes).args = s.args := by rw [putBytes_eq]
@[simp] theorem putBytes_ok (s : State) (a : Nat) (bytes : List Byte) : (s.putBytes a bytes).ok = s.ok := by rw [putBytes_eq]
@[simp] theorem putBytes_err (s : State) (a : Nat) (bytes : List Byte) : (s.putBytes a bytes).err = s.err := by rw [putBytes_eq]
@[simp] theorem putBytes_errinfo (s : State) (a : Nat) (bytes : List Byte) : (s.putBytes a bytes).errinfo = s.errinfo := by rw [putBytes_eq]
@[simp] theorem putBytes_short (s : State) (a : Nat) (bytes : List Byte) : (s.putBytes a bytes).short = s.short := by rw [putBytes_eq]
@[simp] theorem putBytes_stat (s : State) (a : Nat) (bytes : List Byte) : (s.putBytes a bytes).stat = s.stat := by rw [putBytes_eq]
@[simp] theorem putBytes_budget (s : State) (a : Nat) (bytes : List Byte) : (s.putBytes a bytes).budget = s.budget := by rw [putBytes_eq]
@[simp] theorem putBytes_mode (s : State) (a : Nat) (bytes : List Byte) : (s.putBytes a bytes).mode = s.mode := by rw [putBytes_eq]
@[simp] theorem putBytes_res32 (s : State) (a : Nat) (bytes : List Byte) : (s.putBytes a bytes).res32 = s.res32 := by rw [putBytes_eq]
@[simp] theorem putBytes_outblk (s : State) (a : Nat) (bytes : List Byte) : (s.putBytes a bytes).outblk = s.outblk := by rw [putBytes_eq]
@[simp] theorem putBytes_sens (s : State) (a : Nat) (bytes : List Byte) : (s.putBytes a bytes).sens = s.sens := by rw [putBytes_eq]
@[simp] theorem putBytes_selr (s : State) (a : Nat) (bytes : List Byte) : (s.putBytes a bytes).selr = s.selr := by rw [putBytes_eq]
@[simp] theorem putBytes_idlen (s : State) (a : Nat) (bytes : List Byte) : (s.putBytes a bytes).idlen = s.idlen := by rw [putBytes_eq]
@[simp] theorem putBytes_regval (s : State) (a : Nat) (bytes : List Byte) : (s.putBytes a bytes).regval = s.regval := by rw [putBytes_eq]
@[simp] theorem putBytes_rcount (s : State) (a : Nat) (bytes : List Byte) : (s.putBytes a bytes).rcount = s.rcount := by rw [putBytes_eq]
@[simp] theorem putBytes_trace (s : State) (a : Nat) (bytes : List Byte) : (s.putBytes a bytes).trace = s.trace := by rw [putBytes_eq]
@[simp] theorem putBytes_readDone (s : State) (a : Nat) (bytes : List Byte) : (s.putBytes a bytes).readDone = s.readDone := by rw [putBytes_eq]
@[simp] theorem putBytes_ret (s : State) (a : Nat) (bytes : List Byte) : (s.putBytes a bytes).ret = s.ret := by rw [putBytes_eq]
@[simp] theorem putBytes_epoch (s : State) (a : Nat) (bytes : List Byte) : (s.putBytes a bytes).epoch = s.epoch := by rw [putBytes_eq]
@[simp] theorem putBytes_din (s : State) (a : Nat) (bytes : List Byte) : (s.putBytes a bytes).din = s.din := by rw [putBytes_eq]
@[simp] theorem putBytes_draws (s : State) (a : Nat) (bytes : List Byte) : (s.putBytes a bytes).draws = s.draws := by rw [putBytes_eq]
@[simp] theorem putBytes_host (s : State) (a : Nat) (bytes : List Byte) : (s.putBytes a bytes).host = s.host := by rw [putBytes_eq]
@[simp] theorem putBytes_hostData (s : State) (a : Nat) (bytes : List Byte) : (s.putBytes a bytes).hostData = s.hostData := by rw [putBytes_eq]

end Sys2Proof.Machine
end

