-- ==== Sys2Proof/Laws/Exits.lean ====
section
/-! SUPPORT. The laws of the exits: what an operation the HOST started leaves on success and on failure, and the states of Safety
that a whole exchange ends in. -/

namespace Sys2Proof.Machine

/-! ### Starting and ending -/

theorem runStarted_done {i : Instr} {body : State → Run} {s t : State} (hb : s.busy = false)
    (h : body (latch i s) = .done t) : runStarted i body s = successExit t := by
  simp [runStarted, hb, h]

/-- An operation that cannot raise. -/
theorem runStarted_pure {i : Instr} {body : State → State} {s : State} (hb : s.busy = false) :
    runStarted i (fun s => .done (body s)) s = successExit (body (latch i s)) := by
  simp [runStarted, hb]

theorem runStarted_raised {i : Instr} {body : State → Run} {s t : State} {e : Raise} (hb : s.busy = false)
    (h : body (latch i s) = .raised e t) : runStarted i body s = failExit e t := by
  simp [runStarted, hb, h]

/-- A START while BUSY = 1 (R28). -/
theorem runStarted_busy {i : Instr} {body : State → Run} {s : State} (hb : s.busy = true) : runStarted i body s = s := by
  simp [runStarted, hb]

/-- The failure exit as one update (R240). -/
theorem failExitOf_eq (top : Option OpName) (e : Raise) (s : State) :
    failExitOf top e s =
      ({ s with
          sel := false, ok := false, err := e.code, errinfo := e.info
          res32 := if top = some .getfw ∨ top = some .listpt then 0 else s.res32
          rcount := if s.readDone then s.rcount else 0
          tstate := if s.tstate.inFlight then (if e.code = .timeout then .timedOut else .failed) else s.tstate
          busy := false } : State).emit (if s.sel then [.sel false] else []) := by
  by_cases hop : top = some .getfw ∨ top = some .listpt <;> by_cases hc : e.code = .timeout <;>
    cases hsel : s.sel <;> cases hr : s.readDone <;> cases ht : s.tstate.inFlight <;>
    simp only [failExitOf, driveSel, State.emit, hop, hc, hsel, hr, ht, if_true, if_false, Bool.false_eq_true,
      List.reverse_nil, List.reverse_cons, List.nil_append, List.cons_append]

theorem failExit_eq (e : Raise) (s : State) :
    failExit e s =
      ({ s with
          sel := false, ok := false, err := e.code, errinfo := e.info
          res32 := if s.op = some .getfw ∨ s.op = some .listpt then 0 else s.res32
          rcount := if s.readDone then s.rcount else 0
          tstate := if s.tstate.inFlight then (if e.code = .timeout then .timedOut else .failed) else s.tstate
          busy := false } : State).emit (if s.sel then [.sel false] else []) :=
  failExitOf_eq s.op e s

@[simp] theorem failExit_cfg (e : Raise) (s : State) : (failExit e s).cfg = s.cfg := by rw [failExit_eq]; rfl
@[simp] theorem failExit_clk (e : Raise) (s : State) : (failExit e s).clk = s.clk := by rw [failExit_eq]; rfl
@[simp] theorem failExit_dout (e : Raise) (s : State) : (failExit e s).dout = s.dout := by rw [failExit_eq]; rfl
@[simp] theorem failExit_shr (e : Raise) (s : State) : (failExit e s).shr = s.shr := by rw [failExit_eq]; rfl
@[simp] theorem failExit_bcnt (e : Raise) (s : State) : (failExit e s).bcnt = s.bcnt := by rw [failExit_eq]; rfl
@[simp] theorem failExit_cks (e : Raise) (s : State) : (failExit e s).cks = s.cks := by rw [failExit_eq]; rfl
@[simp] theorem failExit_idx (e : Raise) (s : State) : (failExit e s).idx = s.idx := by rw [failExit_eq]; rfl
@[simp] theorem failExit_tlen (e : Raise) (s : State) : (failExit e s).tlen = s.tlen := by rw [failExit_eq]; rfl
@[simp] theorem failExit_ackr (e : Raise) (s : State) : (failExit e s).ackr = s.ackr := by rw [failExit_eq]; rfl
@[simp] theorem failExit_elapsed (e : Raise) (s : State) : (failExit e s).elapsed = s.elapsed := by rw [failExit_eq]; rfl
@[simp] theorem failExit_op (e : Raise) (s : State) : (failExit e s).op = s.op := by rw [failExit_eq]; rfl
@[simp] theorem failExit_args (e : Raise) (s : State) : (failExit e s).args = s.args := by rw [failExit_eq]; rfl
@[simp] theorem failExit_short (e : Raise) (s : State) : (failExit e s).short = s.short := by rw [failExit_eq]; rfl
@[simp] theorem failExit_stat (e : Raise) (s : State) : (failExit e s).stat = s.stat := by rw [failExit_eq]; rfl
@[simp] theorem failExit_budget (e : Raise) (s : State) : (failExit e s).budget = s.budget := by rw [failExit_eq]; rfl
@[simp] theorem failExit_mode (e : Raise) (s : State) : (failExit e s).mode = s.mode := by rw [failExit_eq]; rfl
@[simp] theorem failExit_buf (e : Raise) (s : State) : (failExit e s).buf = s.buf := by rw [failExit_eq]; rfl
@[simp] theorem failExit_outblk (e : Raise) (s : State) : (failExit e s).outblk = s.outblk := by rw [failExit_eq]; rfl
@[simp] theorem failExit_sens (e : Raise) (s : State) : (failExit e s).sens = s.sens := by rw [failExit_eq]; rfl
@[simp] theorem failExit_selr (e : Raise) (s : State) : (failExit e s).selr = s.selr := by rw [failExit_eq]; rfl
@[simp] theorem failExit_idlen (e : Raise) (s : State) : (failExit e s).idlen = s.idlen := by rw [failExit_eq]; rfl
@[simp] theorem failExit_regval (e : Raise) (s : State) : (failExit e s).regval = s.regval := by rw [failExit_eq]; rfl
@[simp] theorem failExit_readDone (e : Raise) (s : State) : (failExit e s).readDone = s.readDone := by rw [failExit_eq]; rfl
@[simp] theorem failExit_ret (e : Raise) (s : State) : (failExit e s).ret = s.ret := by rw [failExit_eq]; rfl
@[simp] theorem failExit_epoch (e : Raise) (s : State) : (failExit e s).epoch = s.epoch := by rw [failExit_eq]; rfl
@[simp] theorem failExit_din (e : Raise) (s : State) : (failExit e s).din = s.din := by rw [failExit_eq]; rfl
@[simp] theorem failExit_draws (e : Raise) (s : State) : (failExit e s).draws = s.draws := by rw [failExit_eq]; rfl
@[simp] theorem failExit_host (e : Raise) (s : State) : (failExit e s).host = s.host := by rw [failExit_eq]; rfl
@[simp] theorem failExit_hostData (e : Raise) (s : State) : (failExit e s).hostData = s.hostData := by rw [failExit_eq]; rfl
@[simp] theorem failExit_sel (e : Raise) (s : State) : (failExit e s).sel = false := by rw [failExit_eq]; rfl
@[simp] theorem failExit_busy (e : Raise) (s : State) : (failExit e s).busy = false := by rw [failExit_eq]; rfl
@[simp] theorem failExit_ok (e : Raise) (s : State) : (failExit e s).ok = false := by rw [failExit_eq]; rfl
@[simp] theorem failExit_err (e : Raise) (s : State) : (failExit e s).err = e.code := by rw [failExit_eq]; rfl
@[simp] theorem failExit_errinfo (e : Raise) (s : State) : (failExit e s).errinfo = e.info := by rw [failExit_eq]; rfl


theorem failExit_bufByte (e : Raise) (s : State) : (failExit e s).bufByte = s.bufByte := bufByte_congr (by simp) (by simp)

theorem successExit_bufByte (s : State) : (successExit s).bufByte = s.bufByte := bufByte_congr rfl rfl

theorem setTState_bufByte (t : TState) (s : State) : (setTState t s).bufByte = s.bufByte := bufByte_congr rfl rfl

theorem chip_latch (i : Instr) (s : State) : (latch i s).chip = s.chip := chip_congr rfl rfl

theorem chipBytes_latch (i : Instr) (s : State) (k n : Nat) : (latch i s).chipBytes k n = s.chipBytes k n := by
  simp only [State.chipBytes, chip_latch]

theorem bufByte_latch (i : Instr) (s : State) : (latch i s).bufByte = s.bufByte := bufByte_congr rfl rfl

theorem bufBytes_latch (i : Instr) (s : State) (a n : Nat) : (latch i s).bufBytes a n = s.bufBytes a n :=
  bufBytes_congr (bufByte_latch i s) a n

theorem answered_latch {i : Instr} {s : State} {k p q : Nat} : Answered (latch i s) k p q ↔ Answered s k p q := Iff.rfl

theorem readyAfter_latch {i : Instr} {s : State} {k p : Nat} : ReadyAfter (latch i s) k p ↔ ReadyAfter s k p := Iff.rfl

/-! ### The states a whole exchange ends in -/

theorem ready_of_answered {s : State} {p q : Nat} (h : Answered s 0 p q) : s.chip (p + 7 + q) = s.cfg.ready := by
  have := h.2.2.2.2
  rwa [Nat.zero_add] at this

theorem ack_of_answered {s : State} {p q : Nat} (h : Answered s 0 p q) : ackAt s (p + 1) = s.cfg.ack := by
  have := h.2.1
  rw [Nat.zero_add] at this
  exact ackAt_of_matches this

/-- An exchange the CHIP answers leaves, BUF apart, what `State.afterExchange` says. -/
theorem exchanged_eq {cmd : List Byte} {r p q : Nat} {s : State} (h : Answered s 0 p q) :
    exchanged cmd r p q s =
      { s.afterExchange cmd r p q with buf := (s.putBytes 0 (s.chipBytes (p + q + 8) r)).buf } := by
  rw [exchanged, ready_of_answered h, ack_of_answered h]
  rfl

/-- SENDCMD of a command the CHIP answers, ended as Success, leaves what `State.afterSend` says. -/
theorem secondWait_eq {cmd : List Byte} {p q : Nat} {s : State} (h : Answered s 0 p q) :
    setTState .success (secondWait cmd p q q s) = { s.afterSend cmd p q with readDone := s.readDone } := by
  rw [secondWait, ready_of_answered h, ack_of_answered h]
  rfl

/-! ### The states a failed exchange ends in: RCOUNT stays where an earlier read of the operation has completed (R240) -/

/-- The failure exit after a first wait that timed out (R239, R240). -/
theorem failExit_firstWait {cmd : List Byte} {s : State} :
    failExit (.timeout 1) (firstWait cmd s.maxWaits (s.maxWaits + 1) s) =
      { s.afterTimeout1 cmd with
        ok := false, err := .timeout, errinfo := 1, busy := false
        res32 := if s.op = some .getfw ∨ s.op = some .listpt then 0 else s.res32
        rcount := if s.readDone then s.rcount else 0, readDone := s.readDone } := by
  rw [failExit_eq]
  simp [firstWait, State.afterTimeout1, State.emit, State.afterBits, TState.inFlight, Raise.code, Raise.info]

/-- The failure exit after an acknowledgement that is not ACK (R239, R240). -/
theorem failExit_ackPhase {cmd : List Byte} {p j : Nat} {s : State} (hp : ReadyAfter s 0 p) :
    failExit (.ackMismatch j) (ackPhase cmd p s) =
      { s.afterAckMismatch cmd p with
        ok := false, err := .ackMismatch, errinfo := BitVec.ofNat 8 j, busy := false
        res32 := if s.op = some .getfw ∨ s.op = some .listpt then 0 else s.res32
        rcount := if s.readDone then s.rcount else 0, readDone := s.readDone } := by
  have h := hp.2.2
  rw [Nat.zero_add] at h
  rw [failExit_eq]
  simp [ackPhase, State.afterAckMismatch, State.emit, State.afterBits, TState.inFlight, Raise.code, Raise.info, h, ackAt]

/-- The failure exit after a second wait that timed out (R239, R240). -/
theorem failExit_secondWait {cmd : List Byte} {p : Nat} {s : State}
    (hm : s.chipBytes (p + 1) 6 = s.cfg.ack.toList) :
    failExit (.timeout 2) (secondWait cmd p s.maxWaits (s.maxWaits + 1) s) =
      { s.afterTimeout2 cmd p with
        ok := false, err := .timeout, errinfo := 2, busy := false
        res32 := if s.op = some .getfw ∨ s.op = some .listpt then 0 else s.res32
        rcount := if s.readDone then s.rcount else 0, readDone := s.readDone } := by
  rw [failExit_eq]
  simp [secondWait, State.afterTimeout2, State.emit, State.afterBits, TState.inFlight, Raise.code, Raise.info,
    ackAt_of_matches hm]

theorem chip_afterExchange (cmd : List Byte) (r p q : Nat) (s : State) (j : Nat) :
    (s.afterExchange cmd r p q).chip j = s.chip (p + q + 8 + r + j) :=
  chip_of_drop rfl rfl j

/-- A catalog operation that completes its exchange and whose decode step is `decodeStep`, on what that step sees. -/
theorem exchange_latched {i : Instr} {cmd : List Byte} {r p q : Nat} {s : State} (hl : 1 ≤ cmd.length)
    (h2 : cmd.length ≤ s.cfg.cmdmax) (h3 : cmd.length ≤ s.cfg.bufsz) (h4 : cmd.length ≤ 254) (hr : r ≤ s.cfg.bufsz)
    (h : Answered s 0 p q) :
    ∃ t, exchange cmd r (latch i s) = .done t ∧ (∀ j, t.bufByte j = s.bufAfter cmd r (p + q + 8) j) ∧
      t = { (latch i s).afterExchange cmd r p q with buf := t.buf } := by
  refine ⟨_, exchange_answered (s := latch i s) hl h2 h3 h4 hr h, fun j => ?_, ?_⟩
  · rw [bufByte_exchange, chip_latch, bufByte_latch]
    rfl
  · rw [exchanged_eq (answered_putBytes.mpr (answered_latch.mpr h)), putBytes_eq]
    rfl

end Sys2Proof.Machine
end

