-- ==== Sys2Proof/Laws/Catalog.lean ====
section
/-! SUPPORT. The laws of the Command Catalog: the decode tests, and an exchange that ends in a decode step or in a failure. -/

namespace Sys2Proof.Machine

/-! ### Decode tests (R208) -/

theorem expectByte_eq (k : Nat) (v : Byte) {s : State} (h : k < s.cfg.bufsz) :
    expectByte k v s = if s.bufByte k = v then .done s else .raised (.operationRejected (s.bufByte k)) s := by
  rw [expectByte, needBuf_of_le (by omega)]

theorem expectExchangeEcho_eq {s : State} (h : 8 ≤ s.cfg.bufsz) :
    expectExchangeEcho s =
      if s.bufByte 6 = s.cfg.echoDataex then
        if s.bufByte 7 = 0 then .done s else .raised (.operationRejected (s.bufByte 7)) s
      else .raised (.operationRejected (s.bufByte 6)) s := by
  rw [expectExchangeEcho, expectByte_eq _ _ (by omega)]
  split_ifs with h1 h2
  · rw [Run.andThen_done, expectByte_eq _ _ (by omega), if_pos h2]
  · rw [Run.andThen_done, expectByte_eq _ _ (by omega), if_neg h2]
  · rw [Run.andThen_raised]

theorem copyBlock_eq {s : State} (h : 24 ≤ s.cfg.bufsz) :
    copyBlock s = .done { s with outblk := Vector.ofFn fun i => s.bufByte (8 + i.val) } := by
  rw [copyBlock, needBuf_of_le h]

/-- A response byte in BUF after an exchange. -/
theorem bufAfter_of_lt {s : State} {cmd : List Byte} {r k j : Nat} (h : j < r) : s.bufAfter cmd r k j = s.chip (k + j) := by
  rw [State.bufAfter, if_pos h]

/-- The block OUTBLK takes from a response that covers it. -/
theorem outblk_of_bufAfter {s t : State} {cmd : List Byte} {r k : Nat} (ht : ∀ j, t.bufByte j = s.bufAfter cmd r k j)
    (h : 24 ≤ r) : (Vector.ofFn fun i : Fin 16 => t.bufByte (8 + i.val)) = Vector.ofFn fun i : Fin 16 => s.chip (k + 8 + i) := by
  congr 1
  funext i
  rw [ht, bufAfter_of_lt (by omega), Nat.add_assoc]

/-- The bytes of a response that covers them, read from BUF. -/
theorem bufBytes_of_bufAfter {s t : State} {cmd : List Byte} {r k n : Nat} (ht : ∀ j, t.bufByte j = s.bufAfter cmd r k j)
    (h : n ≤ r) : t.bufBytes 0 n = s.chipBytes k n := by
  simp only [State.bufBytes, State.chipBytes]
  apply List.map_congr_left
  intro j hj
  have : j < n := by simpa using hj
  rw [ht, Nat.zero_add, bufAfter_of_lt (by omega)]

/-- The target ID as a number, the first byte the most significant (R195). -/
theorem idOf_eq (b : Nat → Byte) (n : Nat) :
    idOf ((List.range n).map b) = BitVec.ofNat 32 ((List.range n).foldl (fun id i => 256 * id + (b i).toNat) 0) := by
  have gen : ∀ (l : List Nat) (w : Word) (m : Nat), w = BitVec.ofNat 32 m →
      (l.map b).foldl shl8_32 w = BitVec.ofNat 32 (l.foldl (fun id i => 256 * id + (b i).toNat) m) := by
    intro l
    induction l with
    | nil => exact fun w m h => h
    | cons x l ih =>
      intro w m h
      refine ih _ _ (BitVec.eq_of_toNat_eq ?_)
      simp [h, shl8_32]
      omega
  exact gen _ 0 0 rfl

/-! ### Exits after an exchange -/

/-- The failure exit of a decode step that rejects a response: SEL is down, TSTATE is Success, the read has completed (R191). -/
theorem failExit_answered {e : Raise} {s : State} (hsel : s.sel = false) (ht : s.tstate = .success) (hr : s.readDone = true) :
    failExit e s =
      { s with
        ok := false, err := e.code, errinfo := e.info, busy := false
        res32 := if s.op = some .getfw ∨ s.op = some .listpt then 0 else s.res32 } := by
  rw [failExit_eq]
  apply State.ext <;> simp [hsel, ht, hr, TState.inFlight]

/-- A catalog operation whose first wait times out (R206). -/
theorem exchange_timeout1 {cmd : List Byte} {r : Nat} {s : State} (h1 : 1 ≤ cmd.length) (h2 : cmd.length ≤ s.cfg.cmdmax)
    (h3 : cmd.length ≤ s.cfg.bufsz) (h4 : cmd.length ≤ 254) (hr : r ≤ s.cfg.bufsz) (hp : 0 < s.cfg.pollInterval)
    (hn : ∀ j ≤ s.maxWaits, s.chip j ≠ s.cfg.ready) :
    exchange cmd r s = .raised (.timeout 1) (firstWait cmd s.maxWaits (s.maxWaits + 1) (s.putBytes 0 cmd)) := by
  have hs := sendcmd_timeout1 (s := s.putBytes 0 cmd) h1 (by simpa using h2) (by simpa using h3) h4 (by simpa using hp)
    (fun j hj => by rw [chip_putBytes, putBytes_cfg]; exact hn j (by simpa [State.maxWaits] using hj))
  rw [exchange_eq h3, xchgf_sendcmd h1 (by simpa using h2) (by simpa using hr), hs, Run.andThen_raised, bufBytes_putBytes]
  simp [State.maxWaits]

/-- A catalog operation whose acknowledgement is not ACK (R206). -/
theorem exchange_mismatch {cmd : List Byte} {r p j : Nat} {s : State} (h1 : 1 ≤ cmd.length) (h2 : cmd.length ≤ s.cfg.cmdmax)
    (h3 : cmd.length ≤ s.cfg.bufsz) (h4 : cmd.length ≤ 254) (hr : r ≤ s.cfg.bufsz) (hp : 0 < s.cfg.pollInterval)
    (ha : ReadyAfter s 0 p) (hj : firstDiff (s.chipBytes (p + 1) 6) s.cfg.ack.toList = some j) :
    exchange cmd r s = .raised (.ackMismatch j) (ackPhase cmd p (s.putBytes 0 cmd)) := by
  have ha' : ReadyAfter (s.putBytes 0 cmd) 0 p := by rw [putBytes_eq]; exact ha
  have hs := sendcmd_mismatch (s := s.putBytes 0 cmd) (j := j) h1 (by simpa using h2) (by simpa using h3) h4 (by simpa using hp)
    ha' (by rw [putBytes_eq]; exact hj)
  rw [exchange_eq h3, xchgf_sendcmd h1 (by simpa using h2) (by simpa using hr), hs, Run.andThen_raised, bufBytes_putBytes]

/-- A catalog operation whose second wait times out (R206). -/
theorem exchange_timeout2 {cmd : List Byte} {r p : Nat} {s : State} (h1 : 1 ≤ cmd.length) (h2 : cmd.length ≤ s.cfg.cmdmax)
    (h3 : cmd.length ≤ s.cfg.bufsz) (h4 : cmd.length ≤ 254) (hr : r ≤ s.cfg.bufsz) (hp : 0 < s.cfg.pollInterval)
    (ha : ReadyAfter s 0 p) (hm : s.chipBytes (p + 1) 6 = s.cfg.ack.toList)
    (hn : ∀ j ≤ s.maxWaits, s.chip (p + 7 + j) ≠ s.cfg.ready) :
    exchange cmd r s = .raised (.timeout 2) (secondWait cmd p s.maxWaits (s.maxWaits + 1) (s.putBytes 0 cmd)) := by
  have ha' : ReadyAfter (s.putBytes 0 cmd) 0 p := by rw [putBytes_eq]; exact ha
  have hs := sendcmd_timeout2 (s := s.putBytes 0 cmd) h1 (by simpa using h2) (by simpa using h3) h4 (by simpa using hp) ha'
    (by rw [putBytes_eq]; exact hm)
    (fun j hj => by rw [chip_putBytes, putBytes_cfg]; exact hn j (by simpa [State.maxWaits] using hj))
  rw [exchange_eq h3, xchgf_sendcmd h1 (by simpa using h2) (by simpa using hr), hs, Run.andThen_raised, bufBytes_putBytes]
  simp [State.maxWaits]

/-- The receive leg of P2PTRS when the CHIP accepts it (R203). -/
theorem receiveLeg_accepted {data : List Byte} {s : State} {p q : Nat} (hc : s.cfg.Ok) (ha : Answered s 0 p q)
    (h7 : s.chip (p + q + 15) = 0) :
    ∃ t, receiveLeg (latch (.p2ptrs data) s) = .done t ∧
      (∀ j, t.bufByte j = s.bufAfter [s.cfg.opcTgget] s.cfg.rlenTgget (p + q + 8) j) ∧
      t = { (latch (.p2ptrs data) s).afterExchange [s.cfg.opcTgget] s.cfg.rlenTgget p q with
        buf := t.buf, outblk := Vector.ofFn fun k => s.chip (p + q + 16 + k) } := by
  have h1 : 1 ≤ s.cfg.cmdmax ∧ 1 ≤ s.cfg.bufsz := by have := hc.1; omega
  have hr : 24 ≤ s.cfg.rlenTgget ∧ s.cfg.rlenTgget ≤ s.cfg.bufsz := hc.2.1.2.2.2.2.2.2.2.2.2.1
  obtain ⟨t, hx, hb, ht⟩ :=
    exchange_latched (i := .p2ptrs data) (cmd := [s.cfg.opcTgget]) (Nat.le_refl 1) h1.1 h1.2 (by simp) hr.2 ha
  have hcfg : t.cfg = s.cfg := by rw [ht]; rfl
  refine ⟨{ t with outblk := Vector.ofFn fun k => s.chip (p + q + 16 + k) }, ?_, hb, ?_⟩
  · show (exchange [s.cfg.opcTgget] s.cfg.rlenTgget _).andThen _ = _
    rw [hx, Run.andThen_done, expectByte_eq _ _ (by rw [hcfg]; omega), if_pos (by rw [hb, bufAfter_of_lt (by omega)]; exact h7),
      Run.andThen_done, copyBlock_eq (by rw [hcfg]; omega), outblk_of_bufAfter hb hr.1]
  · conv_lhs => rw [ht]

/-! ### The operations -/

/-- Every command of the catalog has a length that SENDCMD accepts (R101, R103). -/
theorem catalogCommand_length {c : Config} (hc : c.Ok) {i : Instr} (hw : i.wf = true) {cmd : List Byte}
    (h : catalogCommand c i = some cmd) : 1 ≤ cmd.length ∧ cmd.length ≤ c.cmdmax := by
  obtain ⟨⟨h1, h2, h3, h4⟩, -⟩ := hc
  cases i <;> simp only [catalogCommand, Option.some.injEq, reduceCtorEq] at h <;> subst h <;>
    simp [Instr.wf, halfBytes, wordBytes] at hw ⊢ <;> omega

/-- An error of a catalog operation's first exchange, or of WRREG's SENDCMD, ends the operation (R206). -/
theorem catalog_raised {s t : State} {i : Instr} {cmd : List Byte} {e : Raise} (hb : s.busy = false) (hc : s.cfg.Ok)
    (hcmd : catalogCommand s.cfg i = some cmd) (h : ∀ r ≤ s.cfg.bufsz, exchange cmd r (latch i s) = .raised e t)
    (hw : (memWrite 0 cmd (latch i s)).andThen (sendcmd cmd.length) = .raised e t) :
    exec i s = .next (failExit e t) := by
  obtain ⟨-, ⟨⟨-, _⟩, ⟨-, _⟩, ⟨-, _⟩, ⟨-, _⟩, ⟨-, _⟩, ⟨-, _⟩, ⟨-, _⟩, ⟨-, _⟩, ⟨-, _⟩, ⟨-, _⟩, -, ⟨-, _⟩⟩, -⟩ := hc
  have fin : ∀ (body : State → Run), (∃ r k, r ≤ s.cfg.bufsz ∧ body (latch i s) = (exchange cmd r (latch i s)).andThen k) →
      runStarted i body s = failExit e t := by
    rintro body ⟨r, k, hr, hbd⟩
    exact runStarted_raised hb (by rw [hbd, h r hr, Run.andThen_raised])
  cases i <;> simp only [catalogCommand, Option.some.injEq, reduceCtorEq] at hcmd <;> subst hcmd
  case wrreg addr v =>
    refine congrArg Host.Outcome.next (runStarted_raised hb ?_)
    show (memWrite 0 _ (latch (.wrreg addr v) s)).andThen (fun s => (sendcmd _ s).andThen fun s => .done (setTState .success s)) = _
    rw [← Run.andThen_assoc]
    exact (congrArg (Run.andThen · _) hw).trans (Run.andThen_raised ..)
  case p2ptrs data =>
    refine congrArg Host.Outcome.next (fin _
      ⟨s.cfg.rlenTgget, fun s => ((expectByte 7 0 s).andThen copyBlock).andThen (sendLeg data), by assumption, ?_⟩)
    exact Run.andThen_assoc ..
  all_goals exact congrArg Host.Outcome.next (fin _ ⟨_, _, by assumption, rfl⟩)

end Sys2Proof.Machine
end

