-- ==== Sys2Proof/Laws/Encoding.lean ====
section
/-! SUPPORT. The laws of the host port's encoding: byte order, the readers of an operand record, the selectors. -/

namespace Sys2Proof

/-! ### Byte order (R68) -/

theorem be16_halves (a : Half) : be16 (a.extractLsb' 8 8) (a.extractLsb' 0 8) = a := by
  apply BitVec.eq_of_toNat_eq
  simp [be16, BitVec.extractLsb'_toNat, Nat.shiftRight_eq_div_pow]
  omega

theorem halfBytes_be16 (a b : Byte) : halfBytes (be16 a b) = [a, b] := by
  have ha := a.isLt
  have hb := b.isLt
  simp only [halfBytes, be16, List.cons.injEq, and_true]
  constructor <;> apply BitVec.eq_of_toNat_eq <;>
    simp [BitVec.extractLsb'_toNat, Nat.shiftRight_eq_div_pow] <;> omega

theorem be32_quarters (a : Word) :
    be32 (a.extractLsb' 24 8) (a.extractLsb' 16 8) (a.extractLsb' 8 8) (a.extractLsb' 0 8) = a := by
  apply BitVec.eq_of_toNat_eq
  simp [be32, BitVec.extractLsb'_toNat, Nat.shiftRight_eq_div_pow]
  omega

theorem wordBytes_be32 (a b c d : Byte) : wordBytes (be32 a b c d) = [a, b, c, d] := by
  have ha := a.isLt
  have hb := b.isLt
  have hc := c.isLt
  have hd := d.isLt
  simp only [wordBytes, be32, List.cons.injEq, and_true]
  refine ⟨?_, ?_, ?_, ?_⟩ <;> apply BitVec.eq_of_toNat_eq <;>
    simp [BitVec.extractLsb'_toNat, Nat.shiftRight_eq_div_pow] <;> omega

/-- `be16` and `be32` put their bytes side by side, the first the most significant. -/
theorem be16_eq_append (a b : Byte) : be16 a b = a ++ b := by
  have ha := a.isLt
  have hb := b.isLt
  apply BitVec.eq_of_toNat_eq
  rw [BitVec.toNat_append, ← Nat.shiftLeft_add_eq_or_of_lt hb, Nat.shiftLeft_eq]
  simp [be16]
  omega

theorem be32_eq_append (a b c d : Byte) : be32 a b c d = a ++ b ++ c ++ d := by
  have ha := a.isLt
  have hb := b.isLt
  have hc := c.isLt
  have hd := d.isLt
  apply BitVec.eq_of_toNat_eq
  simp only [BitVec.toNat_append]
  rw [← Nat.shiftLeft_add_eq_or_of_lt hd, ← Nat.shiftLeft_add_eq_or_of_lt hc, ← Nat.shiftLeft_add_eq_or_of_lt hb]
  simp only [Nat.shiftLeft_eq]
  simp [be32]
  omega

/-! ### Selectors (R90, R91) -/

@[simp] theorem OpName.ofOpsel_opsel (n : OpName) : OpName.ofOpsel n.opsel = some n := by cases n <;> decide

/-- The only operation an OPSEL names is the one with that OPSEL. -/
theorem OpName.opsel_of_ofOpsel {b : Byte} {n : OpName} (h : OpName.ofOpsel b = some n) : n.opsel = b := by
  simpa using List.find?_some h

theorem OpName.ofOpsel_none {b : Byte} (h : ∀ n : OpName, n.opsel ≠ b) : OpName.ofOpsel b = none := by
  cases hb : OpName.ofOpsel b with
  | none => rfl
  | some n => exact absurd (OpName.opsel_of_ofOpsel hb) (h n)

/-! ### The readers of an operand record: what each took from it -/

theorem takeByte_some {α : Type} {bs : List Byte} {k : Byte → List Byte → Option α} {x : α} (h : takeByte bs k = some x) :
    ∃ b rest, bs = b :: rest ∧ k b rest = some x := by
  cases bs with
  | nil => simp [takeByte] at h
  | cons b rest => exact ⟨b, rest, rfl, h⟩

theorem takeBytes_some {α : Type} {n : Nat} {bs : List Byte} {k : List Byte → List Byte → Option α} {x : α}
    (h : takeBytes n bs k = some x) : ∃ a rest, bs = a ++ rest ∧ a.length = n ∧ k a rest = some x := by
  unfold takeBytes at h
  split_ifs at h with hn
  exact ⟨bs.take n, bs.drop n, (List.take_append_drop n bs).symm, by simp [hn], h⟩

theorem takeHalf_some {α : Type} {bs : List Byte} {k : Half → List Byte → Option α} {x : α} (h : takeHalf bs k = some x) :
    ∃ v rest, bs = halfBytes v ++ rest ∧ k v rest = some x := by
  obtain ⟨a, r1, e1, h1⟩ := takeByte_some h
  obtain ⟨b, r2, e2, h2⟩ := takeByte_some h1
  exact ⟨be16 a b, r2, by rw [halfBytes_be16, e1, e2]; rfl, h2⟩

theorem takeWord_some {α : Type} {bs : List Byte} {k : Word → List Byte → Option α} {x : α} (h : takeWord bs k = some x) :
    ∃ v rest, bs = wordBytes v ++ rest ∧ k v rest = some x := by
  obtain ⟨a, r1, e1, h1⟩ := takeByte_some h
  obtain ⟨b, r2, e2, h2⟩ := takeByte_some h1
  obtain ⟨c, r3, e3, h3⟩ := takeByte_some h2
  obtain ⟨d, r4, e4, h4⟩ := takeByte_some h3
  exact ⟨be32 a b c d, r4, by rw [wordBytes_be32, e1, e2, e3, e4]; rfl, h4⟩

theorem takeSeq_some {α : Type} {bs : List Byte} {k : List Byte → List Byte → Option α} {x : α} (h : takeSeq bs k = some x) :
    ∃ s rest, bs = putSeq s ++ rest ∧ s.length < 65536 ∧ k s rest = some x := by
  obtain ⟨n, r1, e1, h1⟩ := takeHalf_some h
  obtain ⟨s, r2, e2, hl, h2⟩ := takeBytes_some h1
  refine ⟨s, r2, ?_, by rw [hl]; exact n.isLt, h2⟩
  rw [putSeq, hl, e1, e2]
  simp

theorem takeBit_some {α : Type} {bs : List Byte} {k : Bool → List Byte → Option α} {x : α} (h : takeBit bs k = some x) :
    ∃ b rest, bs = (if b then 1 else 0) :: rest ∧ k b rest = some x := by
  obtain ⟨v, rest, e, h1⟩ := takeByte_some h
  split_ifs at h1 with h0 h1'
  · exact ⟨false, rest, by simp [e, h0], h1⟩
  · exact ⟨true, rest, by simp [e, h1'], h1⟩

/-! ### The readers on a record that was written -/

@[simp] theorem takeHalf_halfBytes {α : Type} (v : Half) (rest : List Byte) (k : Half → List Byte → Option α) :
    takeHalf (halfBytes v ++ rest) k = k v rest := by
  simp [takeHalf, takeByte, halfBytes, be16_halves]

@[simp] theorem takeWord_wordBytes {α : Type} (v : Word) (rest : List Byte) (k : Word → List Byte → Option α) :
    takeWord (wordBytes v ++ rest) k = k v rest := by
  simp [takeWord, takeByte, wordBytes, be32_quarters]

theorem takeBytes_append {α : Type} {n : Nat} {a : List Byte} (h : a.length = n) (rest : List Byte)
    (k : List Byte → List Byte → Option α) : takeBytes n (a ++ rest) k = k a rest := by
  subst h
  simp [takeBytes]

theorem takeSeq_putSeq {α : Type} {s : List Byte} (h : s.length < 65536) (rest : List Byte)
    (k : List Byte → List Byte → Option α) : takeSeq (putSeq s ++ rest) k = k s rest := by
  rw [takeSeq, putSeq, List.append_assoc, takeHalf_halfBytes, takeBytes_append]
  simp [Nat.mod_eq_of_lt h]

/-! ### Whole operand records -/

theorem decodeOperands_operandBytes (i : Instr) (rest : List Byte) (h : i.wf = true) :
    decodeOperands i.name (i.operandBytes ++ rest) = some (i, rest) := by
  cases i <;> simp only [Instr.wf, decide_eq_true_eq] at h <;>
    simp [Instr.name, Instr.operandBytes, decodeOperands, takeByte, takeBytes_append, takeSeq_putSeq, h]
  case validate f short => cases short <;> simp [takeBit, takeByte]

/-- What an operand record that is read was: the operands of a well-formed instruction of that name. -/
theorem decodeOperands_some {n : OpName} {bs rest : List Byte} {i : Instr} (h : decodeOperands n bs = some (i, rest)) :
    i.name = n ∧ i.wf = true ∧ i.operandBytes ++ rest = bs := by
  cases n <;> simp only [decodeOperands] at h
  case wrbyte =>
    obtain ⟨v0, r0, e0, h0⟩ := takeByte_some h
    cases h0
    exact ⟨rfl, rfl, by simp [Instr.operandBytes, e0]⟩
  case encode =>
    obtain ⟨v0, r0, e0, l0, h0⟩ := takeSeq_some h
    cases h0
    exact ⟨rfl, by simpa [Instr.wf] using l0, by simp [Instr.operandBytes, e0]⟩
  case declen =>
    obtain ⟨v0, r0, e0, l0, h0⟩ := takeBytes_some h
    cases h0
    exact ⟨rfl, by simpa [Instr.wf] using l0, by simp [Instr.operandBytes, e0]⟩
  case validate =>
    obtain ⟨v0, r0, e0, l0, h0⟩ := takeSeq_some h
    obtain ⟨v1, r1, e1, h1⟩ := takeBit_some h0
    cases h1
    exact ⟨rfl, by simpa [Instr.wf] using l0, by simp [Instr.operandBytes, e0, e1]⟩
  case decode =>
    obtain ⟨v0, r0, e0, l0, h0⟩ := takeSeq_some h
    cases h0
    exact ⟨rfl, by simpa [Instr.wf] using l0, by simp [Instr.operandBytes, e0]⟩
  case ackcmp =>
    obtain ⟨v0, r0, e0, l0, h0⟩ := takeBytes_some h
    cases h0
    exact ⟨rfl, by simpa [Instr.wf] using l0, by simp [Instr.operandBytes, e0]⟩
  case wrframe =>
    obtain ⟨v0, r0, e0, h0⟩ := takeByte_some h
    cases h0
    exact ⟨rfl, rfl, by simp [Instr.operandBytes, e0]⟩
  case rdfix =>
    obtain ⟨v0, r0, e0, h0⟩ := takeByte_some h
    cases h0
    exact ⟨rfl, rfl, by simp [Instr.operandBytes, e0]⟩
  case sendcmd =>
    obtain ⟨v0, r0, e0, h0⟩ := takeByte_some h
    cases h0
    exact ⟨rfl, rfl, by simp [Instr.operandBytes, e0]⟩
  case xchgf =>
    obtain ⟨v0, r0, e0, h0⟩ := takeByte_some h
    obtain ⟨v1, r1, e1, h1⟩ := takeByte_some h0
    cases h1
    exact ⟨rfl, rfl, by simp [Instr.operandBytes, e0, e1]⟩
  case xchgv =>
    obtain ⟨v0, r0, e0, h0⟩ := takeByte_some h
    cases h0
    exact ⟨rfl, rfl, by simp [Instr.operandBytes, e0]⟩
  case listpt =>
    obtain ⟨v0, r0, e0, h0⟩ := takeByte_some h
    cases h0
    exact ⟨rfl, rfl, by simp [Instr.operandBytes, e0]⟩
  case auth =>
    obtain ⟨v0, r0, e0, h0⟩ := takeByte_some h
    obtain ⟨v1, r1, e1, h1⟩ := takeByte_some h0
    obtain ⟨v2, r2, e2, h2⟩ := takeByte_some h1
    obtain ⟨v3, r3, e3, l3, h3⟩ := takeBytes_some h2
    obtain ⟨v4, r4, e4, h4⟩ := takeWord_some h3
    cases h4
    exact ⟨rfl, by simpa [Instr.wf] using l3, by simp [Instr.operandBytes, e0, e1, e2, e3, e4]⟩
  case rdblk =>
    obtain ⟨v0, r0, e0, h0⟩ := takeByte_some h
    obtain ⟨v1, r1, e1, h1⟩ := takeByte_some h0
    cases h1
    exact ⟨rfl, rfl, by simp [Instr.operandBytes, e0, e1]⟩
  case wrblk =>
    obtain ⟨v0, r0, e0, h0⟩ := takeByte_some h
    obtain ⟨v1, r1, e1, h1⟩ := takeByte_some h0
    obtain ⟨v2, r2, e2, l2, h2⟩ := takeBytes_some h1
    cases h2
    exact ⟨rfl, by simpa [Instr.wf] using l2, by simp [Instr.operandBytes, e0, e1, e2]⟩
  case p2pini =>
    obtain ⟨v0, r0, e0, h0⟩ := takeByte_some h
    cases h0
    exact ⟨rfl, rfl, by simp [Instr.operandBytes, e0]⟩
  case p2piex =>
    obtain ⟨v0, r0, e0, l0, h0⟩ := takeBytes_some h
    cases h0
    exact ⟨rfl, by simpa [Instr.wf] using l0, by simp [Instr.operandBytes, e0]⟩
  case p2ptrs =>
    obtain ⟨v0, r0, e0, l0, h0⟩ := takeBytes_some h
    cases h0
    exact ⟨rfl, by simpa [Instr.wf] using l0, by simp [Instr.operandBytes, e0]⟩
  case rdreg =>
    obtain ⟨v0, r0, e0, h0⟩ := takeHalf_some h
    cases h0
    exact ⟨rfl, rfl, by simp [Instr.operandBytes, e0]⟩
  case wrreg =>
    obtain ⟨v0, r0, e0, h0⟩ := takeHalf_some h
    obtain ⟨v1, r1, e1, h1⟩ := takeByte_some h0
    cases h1
    exact ⟨rfl, rfl, by simp [Instr.operandBytes, e0, e1]⟩
  all_goals
    cases h
    exact ⟨rfl, rfl, rfl⟩

/-- Everything the decoder's answer says of the bytes it read. -/
theorem decode_op {b : Byte} {bs rest : List Byte} {i : Instr} (h : decode (b :: bs) = .op i rest) :
    i.name.opsel = b ∧ i.wf = true ∧ i.operandBytes ++ rest = bs := by
  simp only [decode] at h
  split at h
  · exact absurd h (by simp)
  · rename_i n hn
    split at h
    · exact absurd h (by simp)
    · rename_i j rest' hd
      cases h
      obtain ⟨h1, h2, h3⟩ := decodeOperands_some hd
      exact ⟨by rw [h1, OpName.opsel_of_ofOpsel hn], h2, h3⟩

end Sys2Proof
end

