-- ==== Sys2Proof/Laws/Kept.lean ====
section
/-! SUPPORT. What every operation keeps, whatever the CHIP answers and whatever the parameters are: one relation between the states
before and after, proved once per line of pseudocode and carried through each operation. -/

namespace Sys2Proof.Machine

/-- Which of the registers below an operation may write: the results, SHORT with TLEN, TSTATE. -/
structure Writes where
  res32 : Bool := false
  outblk : Bool := false
  listed : Bool := false
  regval : Bool := false
  layout : Bool := false
  tstate : Bool := false

/-- What the pseudocode of an operation keeps between a state and any later one. -/
structure Kept (w : Writes) (s t : State) : Prop where
  cfg : t.cfg = s.cfg
  epoch : t.epoch = s.epoch
  host : t.host = s.host
  hostData : t.hostData = s.hostData
  budget : t.budget = s.budget
  mode : t.mode = s.mode
  op : t.op = s.op
  args : t.args = s.args
  busy : t.busy = s.busy
  ret : t.ret = s.ret
  grows : ∃ events, t.trace = events ++ s.trace
  bufOk : s.BufOk → t.BufOk
  bcnt : s.bcnt ≤ 8 → t.bcnt ≤ 8
  tlen : s.tlen ≤ 262 → t.tlen ≤ 262
  rcount : s.rcount ≤ s.cfg.bufsz → t.rcount ≤ s.cfg.bufsz
  elapsed : s.elapsed ≤ 65535 + s.cfg.pollInterval → t.elapsed ≤ 65535 + s.cfg.pollInterval
  res32 : w.res32 = false → t.res32 = s.res32
  outblk : w.outblk = false → t.outblk = s.outblk
  listed : w.listed = false → t.sens = s.sens ∧ t.selr = s.selr ∧ t.idlen = s.idlen
  regval : w.regval = false → t.regval = s.regval
  layout : w.layout = false → t.short = s.short ∧ t.tlen = s.tlen
  tstate : w.tstate = false → t.tstate = s.tstate

theorem Kept.refl (w : Writes) (s : State) : Kept w s s := by
  constructor <;> first | rfl | exact id | exact ⟨[], rfl⟩ | exact fun _ => rfl | exact fun _ => ⟨rfl, rfl⟩ | exact fun _ => ⟨rfl, rfl, rfl⟩

theorem Kept.trans {w : Writes} {s t u : State} (h : Kept w s t) (k : Kept w t u) : Kept w s u where
  cfg := k.cfg.trans h.cfg
  epoch := k.epoch.trans h.epoch
  host := k.host.trans h.host
  hostData := k.hostData.trans h.hostData
  budget := k.budget.trans h.budget
  mode := k.mode.trans h.mode
  op := k.op.trans h.op
  args := k.args.trans h.args
  busy := k.busy.trans h.busy
  ret := k.ret.trans h.ret
  grows := by
    obtain ⟨a, ha⟩ := h.grows
    obtain ⟨b, hb⟩ := k.grows
    exact ⟨b ++ a, by rw [hb, ha, List.append_assoc]⟩
  bufOk := fun x => k.bufOk (h.bufOk x)
  bcnt := fun x => k.bcnt (h.bcnt x)
  tlen := fun x => k.tlen (h.tlen x)
  rcount := fun x => by
    have hc := h.cfg
    have := k.rcount (by rw [hc]; exact h.rcount x)
    rwa [hc] at this
  elapsed := fun x => by
    have hc := h.cfg
    have := k.elapsed (by rw [hc]; exact h.elapsed x)
    rwa [hc] at this
  res32 := fun x => (k.res32 x).trans (h.res32 x)
  outblk := fun x => (k.outblk x).trans (h.outblk x)
  listed := fun x => ⟨(k.listed x).1.trans (h.listed x).1, (k.listed x).2.1.trans (h.listed x).2.1,
    (k.listed x).2.2.trans (h.listed x).2.2⟩
  regval := fun x => (k.regval x).trans (h.regval x)
  layout := fun x => ⟨(k.layout x).1.trans (h.layout x).1, (k.layout x).2.trans (h.layout x).2⟩
  tstate := fun x => (k.tstate x).trans (h.tstate x)

/-- A line of pseudocode after another. -/
theorem Kept.andThen {w : Writes} {s : State} {r : Run} {k : State → Run} (h : Kept w s r.state)
    (hk : ∀ t, r = .done t → Kept w s t → Kept w t (k t).state) : Kept w s (r.andThen k).state := by
  cases r with
  | done t => exact Kept.trans h (hk t rfl h)
  | raised e t => exact h


/-- An update of the lines, of the datapath registers but TLEN and ELAPSED, of STAT, with its events. -/
theorem Kept.of_update {w : Writes} (s : State) (clk dout sel : Bool) (shr : Byte) (bcnt : Nat) (cks : Byte) (idx : Nat)
    (ackr : Vector Byte 6) (stat : Byte) (din : List Bool) (draws : Nat) (events : List Event)
    (hb : s.bcnt ≤ 8 → bcnt ≤ 8) :
    Kept w s (({ s with
      clk := clk, dout := dout, sel := sel, shr := shr, bcnt := bcnt, cks := cks, idx := idx, ackr := ackr
      stat := stat, din := din, draws := draws } : State).emit events) where
  cfg := rfl
  epoch := rfl
  host := rfl
  hostData := rfl
  budget := rfl
  mode := rfl
  op := rfl
  args := rfl
  busy := rfl
  ret := rfl
  grows := ⟨_, rfl⟩
  bufOk := id
  bcnt := hb
  tlen := id
  rcount := id
  elapsed := id
  res32 := fun _ => rfl
  outblk := fun _ => rfl
  listed := fun _ => ⟨rfl, rfl, rfl⟩
  regval := fun _ => rfl
  layout := fun _ => ⟨rfl, rfl⟩
  tstate := fun _ => rfl

/-! ### The lines of pseudocode -/

theorem wrbyte_kept (w : Writes) (v : Byte) (s : State) : Kept w s (wrbyte v s) := by
  rw [wrbyte_eq]
  exact Kept.of_update s _ _ _ _ _ _ _ _ _ _ _ _ fun _ => Nat.le_refl 8

theorem rdbyte_kept (w : Writes) (s : State) : Kept w s (rdbyte s) := by
  rw [rdbyte_eq]
  exact Kept.of_update s _ _ _ _ _ _ _ _ _ _ _ _ fun _ => Nat.le_refl 8

theorem select_kept (w : Writes) (s : State) : Kept w s (select s) :=
  Kept.of_update s s.clk s.dout true s.shr s.bcnt s.cks s.idx s.ackr s.stat s.din s.draws (selectEvents s.cfg) id

theorem deselect_kept (w : Writes) (s : State) : Kept w s (deselect s) :=
  Kept.of_update s s.clk s.dout false s.shr s.bcnt s.cks s.idx s.ackr s.stat s.din s.draws [.sel false] id

theorem setTState_kept {w : Writes} (hw : w.tstate = true) (t : TState) (s : State) : Kept w s (setTState t s) :=
  { Kept.refl w s with tstate := fun x => absurd x (by simp [hw]) }

theorem idx_kept (w : Writes) (k : Nat) (s : State) : Kept w s { s with idx := k } :=
  Kept.of_update s s.clk s.dout s.sel s.shr s.bcnt s.cks k s.ackr s.stat s.din s.draws [] id

theorem cks_kept (w : Writes) (v : Byte) (s : State) : Kept w s { s with cks := v } :=
  Kept.of_update s s.clk s.dout s.sel s.shr s.bcnt v s.idx s.ackr s.stat s.din s.draws [] id

theorem stat_kept (w : Writes) (v : Byte) (s : State) : Kept w s { s with stat := v } :=
  Kept.of_update s s.clk s.dout s.sel s.shr s.bcnt s.cks s.idx s.ackr v s.din s.draws [] id

theorem wait_kept (w : Writes) (n : Nat) (s : State) : Kept w s (waitUnits n s) :=
  Kept.of_update s s.clk s.dout s.sel s.shr s.bcnt s.cks s.idx s.ackr s.stat s.din s.draws [.wait n] id

theorem memWrite_kept (w : Writes) (addr : Nat) (bytes : List Byte) (s : State) :
    Kept w s (memWrite addr bytes s).state := by
  rcases memWrite_cases addr bytes s with ⟨hb, h⟩ | ⟨-, h⟩
  · rw [h]
    have hk := putBytes_bufOk (s := s) (addr := addr) (bytes := bytes)
    constructor <;> first | (intro x; exact hk x hb) | simp [Run.state]
  · rw [h]
    exact Kept.refl w s

theorem sendBytes_kept (w : Writes) (frame : List Byte) (k : Nat) (s : State) : Kept w s (sendBytes frame k s) := by
  induction frame generalizing k s with
  | nil => exact Kept.refl w s
  | cons b rest ih => exact ((idx_kept w k s).trans (wrbyte_kept w b _)).trans (ih (k + 1) _)

theorem wrframe_kept (w : Writes) (n : Nat) (s : State) : Kept w s (wrframe n s).state := by
  unfold wrframe needBuf encodeThen
  dsimp only
  split_ifs
  · exact Kept.refl w s
  · exact ((cks_kept w _ s).trans ((select_kept w _).trans (wrbyte_kept w _ _))).trans
      ((sendBytes_kept w _ _ _).trans (deselect_kept w _))
  · exact Kept.refl w s
  · exact Kept.refl w s

theorem status_kept (w : Writes) (s : State) : Kept w s (status s) :=
  ((select_kept w s).trans ((wrbyte_kept w _ _).trans (rdbyte_kept w _))).trans
    ((stat_kept w _ _).trans (deselect_kept w _))

/-- ELAPSED may be set to anything within its range. -/
theorem elapsed_kept (w : Writes) {n : Nat} {s : State} (h : n ≤ 65535 + s.cfg.pollInterval) :
    Kept w s { s with elapsed := n } :=
  { Kept.refl w s with elapsed := fun _ => h }

theorem waitLoop_kept (w : Writes) (stage : Byte) (polls : Nat) (s : State) (h : s.elapsed ≤ s.budget.toNat) :
    Kept w s (waitLoop stage polls s).state := by
  induction polls generalizing s with
  | zero => exact Kept.refl w s
  | succ k ih =>
    have hb := s.budget.isLt
    have hs := status_kept w s
    have he : Kept w s { status s with elapsed := s.elapsed + s.cfg.pollInterval } :=
      hs.trans (elapsed_kept w (by rw [hs.cfg]; omega))
    rw [waitLoop_succ]
    split_ifs with h1 h2
    · exact hs
    · exact he
    · exact (he.trans (wait_kept w _ _)).trans (ih _ (by simpa [hs.budget] using Nat.not_lt.mp h2))

theorem waitrdy_kept (w : Writes) (stage : Byte) (s : State) : Kept w s (waitrdy stage s).state :=
  (elapsed_kept w (Nat.zero_le _)).trans (waitLoop_kept w _ _ _ (Nat.zero_le _))

theorem rdack_kept (w : Writes) (s : State) : Kept w s (rdack s).state := by
  have h : Kept w s (ackTaken s) :=
    Kept.of_update s _ _ _ _ _ _ _ _ _ _ _ _ fun _ => Nat.le_refl 8
  rcases rdack_cases s with ⟨-, hr⟩ | ⟨j, -, hr⟩
  · rw [hr]; exact h
  · rw [hr]; exact h

theorem readInto_kept (w : Writes) (track : Bool) (n i : Nat) (s : State) : Kept w s (readInto track n i s).state := by
  induction n generalizing i s with
  | zero => exact Kept.refl w s
  | succ n ih =>
    have h : Kept w s (rdbyte (if track then { s with idx := i } else s)) := by
      cases track
      · exact rdbyte_kept w s
      · exact (idx_kept w i s).trans (rdbyte_kept w _)
    exact h.trans (Kept.andThen (memWrite_kept w _ _ _) fun t _ _ => ih (i + 1) t)

theorem completeRead_kept (w : Writes) {n : Nat} {s : State} (h : n ≤ s.cfg.bufsz) : Kept w s (completeRead n s) :=
  { Kept.refl w s with rcount := fun _ => h }

theorem rdfix_kept (w : Writes) (r : Nat) (s : State) : Kept w s (rdfix r s).state := by
  unfold rdfix
  split_ifs with h
  · exact Kept.refl w s
  · have h0 := (select_kept w s).trans (wrbyte_kept w s.cfg.spiDR _)
    refine h0.trans (Kept.andThen (readInto_kept w _ _ _ _) fun t _ ht => ?_)
    have hc : t.cfg = s.cfg := (h0.trans ht).cfg
    exact (deselect_kept w t).trans (completeRead_kept w (by rw [(deselect_kept w t).cfg, hc]; omega))

theorem layout_kept {w : Writes} (hw : w.layout = true) {short : Bool} {n : Nat} {s : State} (h : n ≤ 262) :
    Kept w s { s with short := short, tlen := n } :=
  { Kept.refl w s with tlen := fun _ => h, layout := fun x => absurd x (by simp [hw]) }

theorem declen_kept {w : Writes} (hw : w.layout = true) (h : List Byte) (s : State) : Kept w s (declen h s).state := by
  rw [declen_layout]
  cases hl : responseLayout s.cfg s.quirk h with
  | none => exact Kept.refl w s
  | some p => exact layout_kept hw (responseLayout_bounds hl).2

theorem rdvarEnd_kept (w : Writes) {s : State} (h : s.tlen ≤ s.cfg.bufsz) : Kept w s (rdvarEnd s).state := by
  unfold rdvarEnd
  dsimp only
  split_ifs
  · exact deselect_kept w s
  · exact (deselect_kept w s).trans (completeRead_kept w h)

theorem readInto_tlen (track : Bool) (n i : Nat) (s : State) : (readInto track n i s).state.tlen = s.tlen :=
  ((readInto_kept {} track n i s).layout rfl).2

theorem rdvar_kept {w : Writes} (hw : w.layout = true) (s : State) : Kept w s (rdvar s).state := by
  refine Kept.trans ((select_kept w s).trans (wrbyte_kept w s.cfg.spiDR _))
    (Kept.andThen (readInto_kept w _ _ _ _) fun t _ _ => Kept.andThen (declen_kept hw _ _) fun u _ _ => ?_)
  split_ifs with h
  · exact Kept.refl w u
  · refine Kept.andThen (readInto_kept w _ _ _ _) fun v hv hk => rdvarEnd_kept w ?_
    have ht := readInto_tlen true (u.tlen - 5) 5 u
    rw [hv] at ht
    rw [hk.cfg]
    exact ht.trans_le (Nat.not_lt.mp h)

/-! ### The exchange -/

theorem sendcmd_kept {w : Writes} (ht : w.tstate = true) (n : Nat) (s : State) : Kept w s (sendcmd n s).state := by
  unfold sendcmd
  split_ifs
  · exact Kept.refl w s
  · exact Kept.andThen ((setTState_kept ht _ s).trans (wrframe_kept w _ _)) fun t _ _ =>
      Kept.andThen ((setTState_kept ht _ t).trans (waitrdy_kept w _ _)) fun u _ _ =>
        Kept.andThen ((setTState_kept ht _ u).trans (rdack_kept w _)) fun v _ _ =>
          (setTState_kept ht _ v).trans (waitrdy_kept w _ _)

theorem sendcmdAlone_kept {w : Writes} (ht : w.tstate = true) (n : Nat) (s : State) : Kept w s (sendcmdAlone n s).state :=
  Kept.andThen (sendcmd_kept ht n s) fun t _ _ => setTState_kept ht _ t

theorem xchgf_kept {w : Writes} (ht : w.tstate = true) (n r : Nat) (s : State) : Kept w s (xchgf n r s).state := by
  unfold xchgf
  split_ifs
  · exact Kept.refl w s
  · exact Kept.andThen (sendcmd_kept ht n s) fun t _ _ =>
      Kept.andThen ((setTState_kept ht _ t).trans (rdfix_kept w _ _)) fun u _ _ => setTState_kept ht _ u

theorem xchgv_kept {w : Writes} (hw : w.layout = true) (ht : w.tstate = true) (n : Nat) (s : State) : Kept w s (xchgv n s).state := by
  unfold xchgv
  split_ifs
  · exact Kept.refl w s
  · exact Kept.andThen (sendcmd_kept ht n s) fun t _ _ =>
      Kept.andThen ((setTState_kept ht _ t).trans (rdvar_kept hw _)) fun u _ _ => setTState_kept ht _ u

theorem exchange_kept {w : Writes} (ht : w.tstate = true) (cmd : List Byte) (r : Nat) (s : State) : Kept w s (exchange cmd r s).state :=
  Kept.andThen (memWrite_kept w _ _ _) fun t _ _ => xchgf_kept ht _ _ t

/-! ### The decode steps -/

theorem expectByte_kept (w : Writes) (k : Nat) (v : Byte) (s : State) : Kept w s (expectByte k v s).state := by
  unfold expectByte needBuf
  dsimp only
  split_ifs <;> exact Kept.refl w s

theorem expectExchangeEcho_kept (w : Writes) (s : State) : Kept w s (expectExchangeEcho s).state :=
  Kept.andThen (expectByte_kept w _ _ s) fun t _ _ => expectByte_kept w _ _ t

theorem outblk_kept {w : Writes} (hw : w.outblk = true) (v : Vector Byte 16) (s : State) : Kept w s { s with outblk := v } :=
  { Kept.refl w s with outblk := fun x => absurd x (by simp [hw]) }

theorem res32_kept {w : Writes} (hw : w.res32 = true) (v : Word) (s : State) : Kept w s { s with res32 := v } :=
  { Kept.refl w s with res32 := fun x => absurd x (by simp [hw]) }

theorem regval_kept {w : Writes} (hw : w.regval = true) (v : Byte) (s : State) : Kept w s { s with regval := v } :=
  { Kept.refl w s with regval := fun x => absurd x (by simp [hw]) }

theorem listptResults_kept {w : Writes} (h1 : w.res32 = true) (h2 : w.listed = true) (s : State) :
    Kept w s (listptResults s) :=
  { Kept.refl w s with res32 := fun x => absurd x (by simp [h1]), listed := fun x => absurd x (by simp [h2]) }

theorem copyBlock_kept {w : Writes} (hw : w.outblk = true) (s : State) : Kept w s (copyBlock s).state := by
  unfold copyBlock needBuf
  dsimp only
  split_ifs
  · exact outblk_kept hw _ s
  · exact Kept.refl w s

theorem decodeGetfw_kept {w : Writes} (hw : w.res32 = true) (s : State) : Kept w s (decodeGetfw s).state := by
  unfold decodeGetfw needBuf
  dsimp only
  split_ifs
  · exact res32_kept hw _ s
  · exact Kept.refl w s
  · exact Kept.refl w s

theorem decodeListpt_kept {w : Writes} (h1 : w.res32 = true) (h2 : w.listed = true) (s : State) :
    Kept w s (decodeListpt s).state := by
  refine Kept.andThen (expectByte_kept w _ _ s) fun t _ _ => ?_
  unfold needBuf
  dsimp only
  split_ifs
  · exact listptResults_kept h1 h2 t
  · exact Kept.refl w t
  · exact Kept.refl w t

end Sys2Proof.Machine
end

