-- ==== Sys2Proof/Laws/Lines.lean ====
section
/-! SUPPORT. What every operation does with the lines, whatever the CHIP answers and whatever the parameters are: it drives them as its
events say, every CLK and SEL event an edge, CLK rests at 1, and SEL is down where the operation ends without an error. -/

namespace Sys2Proof.Machine

theorem replayLines_append (clk dout sel : Bool) (a b : List Event) :
    replayLines clk dout sel (a ++ b) =
      (replayLines clk dout sel a).bind fun l => replayLines l.1 l.2.1 l.2.2 b := by
  induction a generalizing clk dout sel with
  | nil => rfl
  | cons e a ih =>
    cases e <;> simp only [List.cons_append, replayLines]
    case clk x => split_ifs <;> simp [ih]
    case sel x => split_ifs <;> simp [ih]
    all_goals exact ih ..

/-- The events between two states drive the lines from the one to the other; CLK rests at 1. -/
structure OnLines (s t : State) : Prop where
  clk : t.clk = true
  replay : ∃ events, t.trace = events.reverse ++ s.trace ∧
    replayLines s.clk s.dout s.sel events = some (t.clk, t.dout, t.sel)

theorem OnLines.of_emit {s t : State} {events : List Event} (hc : t.clk = true) (ht : t.trace = s.trace)
    (h : replayLines s.clk s.dout s.sel events = some (t.clk, t.dout, t.sel)) : OnLines s (t.emit events) :=
  ⟨hc, events, by simp [ht], h⟩

/-- An update that leaves the lines and HIST alone. -/
theorem OnLines.of_same {s t : State} (hs : s.clk = true) (hc : t.clk = s.clk) (hd : t.dout = s.dout) (he : t.sel = s.sel)
    (ht : t.trace = s.trace) : OnLines s t :=
  ⟨hc.trans hs, [], by simp [ht], by rw [hc, hd, he]; rfl⟩

theorem OnLines.refl {s : State} (hs : s.clk = true) : OnLines s s := OnLines.of_same hs rfl rfl rfl rfl

theorem OnLines.trans {s t u : State} (h : OnLines s t) (k : OnLines t u) : OnLines s u := by
  obtain ⟨a, ha, ra⟩ := h.replay
  obtain ⟨b, hb, rb⟩ := k.replay
  exact ⟨k.clk, a ++ b, by simp [hb, ha], by rw [replayLines_append, ra]; exact rb⟩

theorem idx_lines {k : Nat} {s : State} (hs : s.clk = true) : OnLines s { s with idx := k } :=
  OnLines.of_same hs rfl rfl rfl rfl

theorem elapsed_lines {n : Nat} {s : State} (hs : s.clk = true) : OnLines s { s with elapsed := n } :=
  OnLines.of_same hs rfl rfl rfl rfl

/-- How a run leaves the lines: SEL as `up` says where it ends without an error. -/
structure Run.Tidy (up : Bool) (s : State) (r : Run) : Prop where
  lines : OnLines s r.state
  sel : ∀ t, r = .done t → t.sel = up

theorem Run.Tidy.done {up : Bool} {s t : State} (h : OnLines s t) (hu : t.sel = up) : (Run.done t).Tidy up s :=
  ⟨h, fun u hd => by cases hd; exact hu⟩

theorem Run.Tidy.raised {up : Bool} {s t : State} {e : Raise} (h : OnLines s t) : (Run.raised e t).Tidy up s :=
  ⟨h, fun _ hd => by cases hd⟩

theorem Run.Tidy.andThen {up up' : Bool} {s : State} {r : Run} {k : State → Run} (h : r.Tidy up s)
    (hk : ∀ t, t.clk = true → t.sel = up → (k t).Tidy up' t) : (r.andThen k).Tidy up' s := by
  cases r with
  | raised e t => exact .raised h.lines
  | done t =>
    have h2 := hk t h.lines.clk (h.sel t rfl)
    exact ⟨OnLines.trans h.lines h2.lines, h2.sel⟩

theorem Run.Tidy.before {up : Bool} {s t : State} {r : Run} (h : OnLines s t) (hr : r.Tidy up t) : r.Tidy up s :=
  ⟨h.trans hr.lines, hr.sel⟩

/-! ### The lines of pseudocode -/

theorem replay_writeEvents (v : Byte) (dout sel : Bool) :
    replayLines true dout sel (writeEvents v) = some (true, v.getLsbD 7, sel) := by
  simp [writeEvents, range_eight, replayLines]

theorem replay_readEvents (c : Config) (v : Byte) (dout sel : Bool) :
    replayLines true dout sel (readEvents c v) = some (true, dout, sel) := by
  simp only [readEvents, range_eight, readCellEvents]
  split_ifs <;> simp [replayLines]

theorem wrbyte_lines {v : Byte} {s : State} (hs : s.clk = true) : OnLines s (wrbyte v s) := by
  rw [wrbyte_eq]
  exact OnLines.of_emit rfl rfl (by rw [hs]; exact replay_writeEvents ..)

theorem rdbyte_lines {s : State} (hs : s.clk = true) : OnLines s (rdbyte s) := by
  rw [rdbyte_eq]
  exact OnLines.of_emit rfl rfl (by rw [hs]; exact replay_readEvents ..)

theorem select_lines {s : State} (hs : s.clk = true) (h : s.sel = false) : OnLines s (select s) := by
  rw [select_eq]
  exact OnLines.of_emit hs rfl (by simp [selectEvents, replayLines, h])

theorem deselect_lines {s : State} (hs : s.clk = true) (h : s.sel = true) : OnLines s (deselect s) := by
  rw [deselect_eq]
  exact OnLines.of_emit hs rfl (by simp [replayLines, h])

theorem wait_lines {n : Nat} {s : State} (hs : s.clk = true) : OnLines s (waitUnits n s) := by
  rw [waitUnits_eq]
  exact OnLines.of_emit hs rfl (by simp [replayLines])

theorem memWrite_lines (up : Bool) (addr : Nat) (bytes : List Byte) {s : State} (hs : s.clk = true) (h : s.sel = up) :
    (memWrite addr bytes s).Tidy up s := by
  rcases memWrite_cases addr bytes s with ⟨-, hm⟩ | ⟨-, hm⟩
  · rw [hm]
    exact .done (OnLines.of_same hs (by simp) (by simp) (by simp) (by simp)) (by simpa using h)
  · rw [hm]
    exact .raised (OnLines.refl hs)

@[simp] theorem rdbyte_sel (s : State) : (rdbyte s).sel = s.sel := by simp [rdbyte_eq]

@[simp] theorem wrbyte_sel (v : Byte) (s : State) : (wrbyte v s).sel = s.sel := by simp [wrbyte_eq]

@[simp] theorem select_sel (s : State) : (select s).sel = true := rfl

@[simp] theorem deselect_sel (s : State) : (deselect s).sel = false := rfl

theorem sendBytes_lines {frame : List Byte} {k : Nat} {s : State} (hs : s.clk = true) :
    OnLines s (sendBytes frame k s) ∧ (sendBytes frame k s).sel = s.sel := by
  induction frame generalizing k s with
  | nil => exact ⟨OnLines.refl hs, rfl⟩
  | cons b rest ih =>
    have h : OnLines s (wrbyte b { s with idx := k }) :=
      (idx_lines hs).trans (wrbyte_lines hs)
    have h2 := ih (k := k + 1) h.clk
    exact ⟨h.trans h2.1, h2.2.trans (by simp)⟩

/-- A transaction opened: SELECT and a sub-command byte. -/
theorem opened_lines {v : Byte} {s : State} (hs : s.clk = true) (h : s.sel = false) :
    OnLines s (wrbyte v (select s)) ∧ (wrbyte v (select s)).sel = true :=
  ⟨(select_lines hs h).trans (wrbyte_lines (select_lines hs h).clk), by simp⟩

theorem wrframe_lines {n : Nat} {s : State} (hs : s.clk = true) (h : s.sel = false) : (wrframe n s).Tidy false s := by
  unfold wrframe needBuf encodeThen
  dsimp only
  split_ifs
  · exact .raised (OnLines.refl hs)
  · have h1 : OnLines s { s with cks := runningChecksum s.cfg (s.bufBytes 0 n) } := OnLines.of_same hs rfl rfl rfl rfl
    have h2 := opened_lines (v := s.cfg.spiDW) (s := { s with cks := runningChecksum s.cfg (s.bufBytes 0 n) }) hs h
    have h5 := sendBytes_lines (frame := frameOf s.cfg (s.bufBytes 0 n)) (k := 0) h2.1.clk
    exact .done (h1.trans (h2.1.trans (h5.1.trans (deselect_lines h5.1.clk (h5.2.trans h2.2))))) (deselect_sel _)
  · exact .raised (OnLines.refl hs)
  · exact .raised (OnLines.refl hs)

theorem status_lines {s : State} (hs : s.clk = true) (h : s.sel = false) : OnLines s (status s) ∧ (status s).sel = false := by
  have h1 := opened_lines (v := s.cfg.spiSR) hs h
  have h2 := rdbyte_lines h1.1.clk
  have h3 : OnLines _ { rdbyte (wrbyte s.cfg.spiSR (select s)) with stat := (rdbyte (wrbyte s.cfg.spiSR (select s))).shr } :=
    OnLines.of_same h2.clk rfl rfl rfl rfl
  exact ⟨(h1.1.trans h2).trans (h3.trans (deselect_lines h3.clk (by simp))), rfl⟩

theorem waitLoop_lines {stage : Byte} {polls : Nat} {s : State} (hs : s.clk = true) (h : s.sel = false) :
    (waitLoop stage polls s).Tidy false s := by
  induction polls generalizing s with
  | zero => exact .raised (OnLines.refl hs)
  | succ k ih =>
    have h1 := status_lines hs h
    have h2 : OnLines s { status s with elapsed := s.elapsed + s.cfg.pollInterval } :=
      h1.1.trans (OnLines.of_same h1.1.clk rfl rfl rfl rfl)
    rw [waitLoop_succ]
    split_ifs
    · exact .done h1.1 h1.2
    · exact .raised h2
    · have h3 : OnLines s (polledOnce s) := h2.trans (wait_lines h2.clk)
      exact Run.Tidy.before h3 (ih h3.clk h1.2)

theorem waitrdy_lines {stage : Byte} {s : State} (hs : s.clk = true) (h : s.sel = false) : (waitrdy stage s).Tidy false s :=
  Run.Tidy.before (elapsed_lines hs) (waitLoop_lines hs h)

theorem readAck_lines {l : List Nat} {s : State} (hs : s.clk = true) :
    OnLines s (l.foldl readAckByte s) ∧ (l.foldl readAckByte s).sel = s.sel := by
  induction l generalizing s with
  | nil => exact ⟨OnLines.refl hs, rfl⟩
  | cons i l ih =>
    have h1 : OnLines s (readAckByte s i) := (rdbyte_lines hs).trans (OnLines.of_same (rdbyte_lines hs).clk rfl rfl rfl rfl)
    have h2 := ih h1.clk
    exact ⟨h1.trans h2.1, h2.2.trans (by simp [readAckByte])⟩

theorem rdack_lines {s : State} (hs : s.clk = true) (h : s.sel = false) : (rdack s).Tidy false s := by
  have h1 := opened_lines (v := s.cfg.spiDR) hs h
  have h2 := readAck_lines (l := List.range 6) h1.1.clk
  have h3 : OnLines s (deselect ((List.range 6).foldl readAckByte (wrbyte s.cfg.spiDR (select s)))) :=
    h1.1.trans (h2.1.trans (deselect_lines h2.1.clk (h2.2.trans h1.2)))
  rw [ackTaken_eq] at h3
  rw [rdack, ackTaken_eq]
  unfold checkAck
  split
  · exact .done h3 (ackTaken_sel s)
  · exact .raised h3

theorem readInto_lines {track : Bool} {n i : Nat} {s : State} (hs : s.clk = true) (h : s.sel = true) :
    (readInto track n i s).Tidy true s := by
  induction n generalizing i s with
  | zero => exact .done (OnLines.refl hs) h
  | succ n ih =>
    have h1 : OnLines s (rdbyte (if track then { s with idx := i } else s)) := by
      cases track
      · exact rdbyte_lines hs
      · exact (idx_lines hs).trans (rdbyte_lines hs)
    have h2 : (rdbyte (if track then { s with idx := i } else s)).sel = true := by cases track <;> simp [h]
    exact Run.Tidy.before h1 (Run.Tidy.andThen (memWrite_lines true _ _ h1.clk h2) fun t ht hu => ih ht hu)

theorem rdfix_lines {r : Nat} {s : State} (hs : s.clk = true) (h : s.sel = false) : (rdfix r s).Tidy false s := by
  unfold rdfix
  split_ifs
  · exact .raised (OnLines.refl hs)
  · have h1 := opened_lines (v := s.cfg.spiDR) hs h
    refine Run.Tidy.before h1.1 (Run.Tidy.andThen (readInto_lines h1.1.clk h1.2) fun t ht hu => ?_)
    have h2 := deselect_lines ht hu
    exact .done (h2.trans (OnLines.of_same h2.clk rfl rfl rfl rfl)) rfl

theorem declen_lines {up : Bool} {h : List Byte} {s : State} (hs : s.clk = true) (hu : s.sel = up) : (declen h s).Tidy up s := by
  unfold declen
  split_ifs
  · exact .done (OnLines.of_same hs rfl rfl rfl rfl) hu
  · exact .done (OnLines.of_same hs rfl rfl rfl rfl) hu
  · exact .raised (OnLines.refl hs)

theorem rdvar_lines {s : State} (hs : s.clk = true) (h : s.sel = false) : (rdvar s).Tidy false s := by
  have h1 := opened_lines (v := s.cfg.spiDR) hs h
  refine Run.Tidy.before h1.1 (Run.Tidy.andThen (readInto_lines h1.1.clk h1.2) fun t ht hu =>
    Run.Tidy.andThen (declen_lines ht hu) fun u hu1 hu2 => ?_)
  split_ifs
  · exact .raised (OnLines.refl hu1)
  · refine Run.Tidy.andThen (readInto_lines hu1 hu2) fun v hv1 hv2 => ?_
    have h2 := deselect_lines hv1 hv2
    unfold rdvarEnd
    dsimp only
    split_ifs
    · exact .raised h2
    · exact .done (h2.trans (OnLines.of_same h2.clk rfl rfl rfl rfl)) rfl

/-! ### The exchange -/

theorem setTState_lines {t : TState} {s : State} (hs : s.clk = true) : OnLines s (setTState t s) :=
  OnLines.of_same hs rfl rfl rfl rfl

theorem sendcmd_lines {n : Nat} {s : State} (hs : s.clk = true) (h : s.sel = false) : (sendcmd n s).Tidy false s := by
  unfold sendcmd
  split_ifs
  · exact .raised (OnLines.refl hs)
  · refine Run.Tidy.before (setTState_lines hs) (Run.Tidy.andThen (wrframe_lines hs h) fun t ht hu => ?_)
    refine Run.Tidy.before (setTState_lines ht) (Run.Tidy.andThen (waitrdy_lines ht hu) fun u ku hu => ?_)
    refine Run.Tidy.before (setTState_lines ku) (Run.Tidy.andThen (rdack_lines ku hu) fun v kv hv => ?_)
    exact Run.Tidy.before (setTState_lines kv) (waitrdy_lines kv hv)

theorem sendcmdAlone_lines {n : Nat} {s : State} (hs : s.clk = true) (h : s.sel = false) : (sendcmdAlone n s).Tidy false s :=
  Run.Tidy.andThen (sendcmd_lines hs h) fun _ ht hu => .done (setTState_lines ht) hu

theorem xchgf_lines {n r : Nat} {s : State} (hs : s.clk = true) (h : s.sel = false) : (xchgf n r s).Tidy false s := by
  unfold xchgf
  split_ifs
  · exact .raised (OnLines.refl hs)
  · exact Run.Tidy.andThen (sendcmd_lines hs h) fun t ht hu =>
      Run.Tidy.before (setTState_lines ht) (Run.Tidy.andThen (rdfix_lines ht hu) fun _ ku hu => .done (setTState_lines ku) hu)

theorem xchgv_lines {n : Nat} {s : State} (hs : s.clk = true) (h : s.sel = false) : (xchgv n s).Tidy false s := by
  unfold xchgv
  split_ifs
  · exact .raised (OnLines.refl hs)
  · exact Run.Tidy.andThen (sendcmd_lines hs h) fun t ht hu =>
      Run.Tidy.before (setTState_lines ht) (Run.Tidy.andThen (rdvar_lines ht hu) fun _ ku hu => .done (setTState_lines ku) hu)

theorem exchange_lines {cmd : List Byte} {r : Nat} {s : State} (hs : s.clk = true) (h : s.sel = false) :
    (exchange cmd r s).Tidy false s :=
  Run.Tidy.andThen (memWrite_lines false 0 cmd hs h) fun _ ht hu => xchgf_lines ht hu

/-! ### The decode steps -/

/-- A run that leaves the lines and HIST alone is tidy. -/
theorem Run.Tidy.of_same {r : Run} {s : State} (hs : s.clk = true) (h : s.sel = false) (hc : r.state.clk = s.clk)
    (hd : r.state.dout = s.dout) (he : r.state.sel = s.sel) (ht : r.state.trace = s.trace) : r.Tidy false s := by
  cases r with
  | done t => exact .done (OnLines.of_same hs hc hd he ht) (he.trans h)
  | raised e t => exact .raised (OnLines.of_same hs hc hd he ht)

theorem expectByte_lines {k : Nat} {v : Byte} {s : State} (hs : s.clk = true) (h : s.sel = false) :
    (expectByte k v s).Tidy false s := by
  unfold expectByte needBuf
  dsimp only
  split_ifs <;> exact Run.Tidy.of_same hs h rfl rfl rfl rfl

theorem expectExchangeEcho_lines {s : State} (hs : s.clk = true) (h : s.sel = false) : (expectExchangeEcho s).Tidy false s :=
  Run.Tidy.andThen (expectByte_lines hs h) fun _ ht hu => expectByte_lines ht hu

theorem outblk_lines {v : Vector Byte 16} {s : State} (hs : s.clk = true) : OnLines s { s with outblk := v } :=
  OnLines.of_same hs rfl rfl rfl rfl

theorem copyBlock_lines {s : State} (hs : s.clk = true) (h : s.sel = false) : (copyBlock s).Tidy false s := by
  unfold copyBlock needBuf
  dsimp only
  split_ifs
  · exact .done (outblk_lines hs) h
  · exact .raised (OnLines.refl hs)

theorem decodeGetfw_lines {s : State} (hs : s.clk = true) (h : s.sel = false) : (decodeGetfw s).Tidy false s := by
  unfold decodeGetfw needBuf
  dsimp only
  split_ifs <;> exact Run.Tidy.of_same hs h rfl rfl rfl rfl

theorem decodeListpt_lines {s : State} (hs : s.clk = true) (h : s.sel = false) : (decodeListpt s).Tidy false s := by
  refine Run.Tidy.andThen (expectByte_lines hs h) fun t ht hu => ?_
  unfold needBuf
  dsimp only
  split_ifs <;> exact Run.Tidy.of_same ht hu rfl rfl rfl rfl

end Sys2Proof.Machine
end

