-- ==== Sys2Proof/Laws/Operations.lean ====
section
/-! SUPPORT. Everything an operation the HOST starts can do, said once: its pseudocode keeps what `Kept` says, drives the lines as
`Run.Tidy` says, and on success leaves TSTATE alone or at Success. -/

namespace Sys2Proof.Machine

/-- The results each operation writes (R33, R44 to R47) and whether it writes TSTATE (R170). -/
def writesOf : OpName → Writes
  | .getfw => { res32 := true, tstate := true }
  | .listpt => { res32 := true, listed := true, tstate := true }
  | .rdblk | .p2piex | .p2ptrs => { outblk := true, tstate := true }
  | .rdreg => { regval := true, tstate := true }
  | .rdvar => { layout := true }
  | .xchgv => { layout := true, tstate := true }
  | .sendcmd | .xchgf | .samcfg | .auth | .wrblk | .p2pini | .p2ptgt | .wrreg => { tstate := true }
  | .wrbyte | .rdbyte | .encode | .declen | .validate | .decode | .ackcmp | .select | .deselect | .wrframe | .status | .waitrdy
  | .rdack | .rdfix => {}

/-- What the pseudocode of an operation does, whatever the CHIP answers. -/
structure Body (w : Writes) (body : State → Run) : Prop where
  kept : ∀ s, Kept w s (body s).state
  lines : ∀ s, s.clk = true → s.sel = false → (body s).Tidy false s
  ends : ∀ s t, body s = .done t → t.tstate = s.tstate ∨ t.tstate = .success

/-- Pseudocode that does not write TSTATE. -/
theorem Body.of_transaction {w : Writes} (hw : w.tstate = false) {body : State → Run} (hk : ∀ s, Kept w s (body s).state)
    (hl : ∀ s, s.clk = true → s.sel = false → (body s).Tidy false s) : Body w body :=
  ⟨hk, hl, fun s t h => .inl (by have := (hk s).tstate hw; rw [h] at this; exact this)⟩

/-- An exchange that ended without an error is a Success. -/
theorem xchgf_success {n r : Nat} {s t : State} (h : xchgf n r s = .done t) : t.tstate = .success := by
  unfold xchgf at h
  split_ifs at h
  revert h
  cases sendcmd n s with
  | raised e u => exact fun h => by cases h
  | done u =>
    rw [Run.andThen_done]
    cases rdfix r (setTState .responseRead u) with
    | raised e u => exact fun h => by cases h
    | done v => exact fun h => by cases h; rfl

theorem xchgv_success {n : Nat} {s t : State} (h : xchgv n s = .done t) : t.tstate = .success := by
  unfold xchgv at h
  split_ifs at h
  revert h
  cases sendcmd n s with
  | raised e u => exact fun h => by cases h
  | done u =>
    rw [Run.andThen_done]
    cases rdvar (setTState .responseRead u) with
    | raised e u => exact fun h => by cases h
    | done v => exact fun h => by cases h; rfl

theorem sendcmdAlone_success {n : Nat} {s t : State} (h : sendcmdAlone n s = .done t) : t.tstate = .success := by
  unfold sendcmdAlone at h
  revert h
  cases sendcmd n s with
  | raised e u => exact fun h => by cases h
  | done u => exact fun h => by cases h; rfl

theorem exchange_success {cmd : List Byte} {r : Nat} {s t : State} (h : exchange cmd r s = .done t) : t.tstate = .success := by
  unfold exchange at h
  revert h
  cases memWrite 0 cmd s with
  | raised e u => exact fun h => by cases h
  | done u => exact xchgf_success

/-- An exchange, then a decode step that does not write TSTATE. -/
theorem Body.of_exchange {w : Writes} (hw : w.tstate = true) (cmd : Config → List Byte) (rlen : Config → Nat)
    {step : State → Run} (hk : ∀ s, Kept { w with tstate := false } s (step s).state)
    (hl : ∀ s, s.clk = true → s.sel = false → (step s).Tidy false s) :
    Body w fun s => (exchange (cmd s.cfg) (rlen s.cfg) s).andThen step := by
  have up : ∀ s t, Kept { w with tstate := false } s t → Kept w s t := fun s t h =>
    { h with
      res32 := h.res32, outblk := h.outblk, listed := h.listed, regval := h.regval, layout := h.layout
      tstate := fun x => absurd x (by simp [hw]) }
  refine ⟨fun s => Kept.andThen (exchange_kept hw _ _ s) fun t _ _ => up _ _ (hk t), fun s hc hs =>
    Run.Tidy.andThen (exchange_lines hc hs) fun t ht hu => hl t ht hu, fun s t h => .inr ?_⟩
  revert h
  cases hx : exchange (cmd s.cfg) (rlen s.cfg) s with
  | raised e u => exact fun h => by cases h
  | done u =>
    intro h
    have h1 := (hk u).tstate rfl
    rw [Run.andThen_done] at h
    rw [h] at h1
    exact h1.trans (exchange_success hx)

theorem same_kept {w : Writes} {r : Run} {s : State} (h : r.state = s) : Kept w s r.state := by
  rw [h]
  exact Kept.refl w s

/-- The receive leg, and the send leg, of P2PTRS. -/
theorem sendLeg_body {w : Writes} (hw : w.tstate = true) (data : List Byte) : Body w (sendLeg data) :=
  Body.of_exchange hw (fun c => cmdTgset c data) (fun c => c.rlenTgset) (fun s => expectByte_kept _ 7 0 s)
    fun _ hc hs => expectByte_lines hc hs

theorem receiveLeg_body {w : Writes} (hw : w.tstate = true) (ho : w.outblk = true) : Body w receiveLeg :=
  Body.of_exchange hw cmdTgget (fun c => c.rlenTgget)
    (fun s => Kept.andThen (expectByte_kept _ 7 0 s) fun t _ _ => copyBlock_kept (w := { w with tstate := false }) ho t)
    fun _ hc hs => Run.Tidy.andThen (expectByte_lines hc hs) fun _ ht hu => copyBlock_lines ht hu

theorem Body.andThen {w : Writes} {a b : State → Run} (ha : Body w a) (hb : Body w b) :
    Body w fun s => (a s).andThen b := by
  refine ⟨fun s => Kept.andThen (ha.kept s) fun t _ _ => hb.kept t, fun s hc hs =>
    Run.Tidy.andThen (ha.lines s hc hs) fun t ht hu => hb.lines t ht hu, fun s t h => ?_⟩
  revert h
  cases hx : a s with
  | raised e u => exact fun h => by cases h
  | done u =>
    intro h
    rcases hb.ends u t h with h1 | h1
    · rcases ha.ends s u hx with h2 | h2
      · exact .inl (h1.trans h2)
      · exact .inr (h1.trans h2)
    · exact .inr h1

theorem wrbyte_body (v : Byte) : Body (writesOf .wrbyte) (fun s => .done (wrbyte v s)) := by
  refine .of_transaction rfl (fun s => ?_) fun s hc hs => ?_
  · generalize hw : writesOf .wrbyte = w
    rw [Run.state]
    exact wrbyte_kept w v s
  · exact .done (wrbyte_lines hc) ((wrbyte_sel v s).trans hs)

theorem rdbyte_body : Body (writesOf .rdbyte) (fun s => .done (rdbyte s)) := by
  refine .of_transaction rfl (fun s => ?_) fun s hc hs => ?_
  · exact rdbyte_kept _ s
  · exact .done (rdbyte_lines hc) ((rdbyte_sel s).trans hs)

theorem wrframe_body (n : Byte) :
    Body (writesOf .wrframe) (wrframe n.toNat) :=
  .of_transaction rfl (fun s => wrframe_kept _ _ s) fun _ hc hs => wrframe_lines hc hs

theorem status_body :
    Body (writesOf .status) (fun s => .done (status s)) :=
  .of_transaction rfl (fun s => status_kept _ s) fun _ hc hs => .done (status_lines hc hs).1 (status_lines hc hs).2

theorem waitrdy_body :
    Body (writesOf .waitrdy) (waitrdy 0) :=
  .of_transaction rfl (fun s => waitrdy_kept _ 0 s) fun _ hc hs => waitrdy_lines hc hs

theorem rdack_body :
    Body (writesOf .rdack) (rdack) :=
  .of_transaction rfl (fun s => rdack_kept _ s) fun _ hc hs => rdack_lines hc hs

theorem rdfix_body (r : Byte) :
    Body (writesOf .rdfix) (rdfix r.toNat) :=
  .of_transaction rfl (fun s => rdfix_kept _ _ s) fun _ hc hs => rdfix_lines hc hs

theorem rdvar_body :
    Body (writesOf .rdvar) (rdvar) :=
  .of_transaction rfl (fun s => rdvar_kept rfl s) fun _ hc hs => rdvar_lines hc hs

theorem sendcmd_body (n : Byte) :
    Body (writesOf .sendcmd) (sendcmdAlone n.toNat) :=
  ⟨fun s => sendcmdAlone_kept rfl _ s, fun _ hc hs => sendcmdAlone_lines hc hs, fun _ _ h => .inr (sendcmdAlone_success h)⟩

theorem xchgf_body (n r : Byte) :
    Body (writesOf .xchgf) (xchgf n.toNat r.toNat) :=
  ⟨fun s => xchgf_kept rfl _ _ s, fun _ hc hs => xchgf_lines hc hs, fun _ _ h => .inr (xchgf_success h)⟩

theorem xchgv_body (n : Byte) :
    Body (writesOf .xchgv) (xchgv n.toNat) :=
  ⟨fun s => xchgv_kept rfl rfl _ s, fun _ hc hs => xchgv_lines hc hs, fun _ _ h => .inr (xchgv_success h)⟩

theorem getfw_body :
    Body (writesOf .getfw) (fun s => (exchange (cmdGetfw s.cfg) s.cfg.rlenGetfw s).andThen decodeGetfw) :=
  .of_exchange rfl cmdGetfw (fun c => c.rlenGetfw) (fun s => decodeGetfw_kept rfl s) fun _ hc hs => decodeGetfw_lines hc hs

theorem samcfg_body :
    Body (writesOf .samcfg) (fun s => (exchange (cmdSamcfg s.cfg) s.cfg.rlenSamcfg s).andThen fun s => expectByte 5 s.cfg.samOk s) :=
  .of_exchange rfl cmdSamcfg (fun c => c.rlenSamcfg) (fun s => expectByte_kept _ 5 _ s) fun _ hc hs => expectByte_lines hc hs

theorem listpt_body (baud : Byte) :
    Body (writesOf .listpt) (fun s => (exchange (cmdListpt s.cfg baud) s.cfg.rlenListpt s).andThen decodeListpt) :=
  .of_exchange rfl (fun c => cmdListpt c baud) (fun c => c.rlenListpt) (fun s => decodeListpt_kept rfl rfl s) fun _ hc hs =>
      decodeListpt_lines hc hs

theorem auth_body (tg keysel blk : Byte) (key : List Byte) (cid : Word) :
    Body (writesOf .auth) (fun s => (exchange (cmdAuth s.cfg tg keysel blk key cid) s.cfg.rlenAuth s).andThen expectExchangeEcho) :=
  .of_exchange rfl (fun c => cmdAuth c tg keysel blk key cid) (fun c => c.rlenAuth) (fun s => expectExchangeEcho_kept _ s)
      fun _ hc hs => expectExchangeEcho_lines hc hs

theorem rdblk_body (tg blk : Byte) :
    Body (writesOf .rdblk) (fun s => (exchange (cmdRdblk s.cfg tg blk) s.cfg.rlenRdblk s).andThen fun s => (expectExchangeEcho s).andThen copyBlock) :=
  .of_exchange rfl (fun c => cmdRdblk c tg blk) (fun c => c.rlenRdblk) (fun s => Kept.andThen (expectExchangeEcho_kept _ s)
      fun t _ _ => copyBlock_kept rfl t) fun _ hc hs => Run.Tidy.andThen (expectExchangeEcho_lines hc hs) fun _ ht hu =>
      copyBlock_lines ht hu

theorem wrblk_body (tg blk : Byte) (data : List Byte) :
    Body (writesOf .wrblk) (fun s => (exchange (cmdWrblk s.cfg tg blk data) s.cfg.rlenWrblk s).andThen expectExchangeEcho) :=
  .of_exchange rfl (fun c => cmdWrblk c tg blk data) (fun c => c.rlenWrblk) (fun s => expectExchangeEcho_kept _ s) fun _ hc
      hs => expectExchangeEcho_lines hc hs

theorem p2pini_body (baud : Byte) :
    Body (writesOf .p2pini) (fun s => (exchange (cmdP2pini s.cfg baud) s.cfg.rlenP2pini s).andThen (expectByte 7 0)) :=
  .of_exchange rfl (fun c => cmdP2pini c baud) (fun c => c.rlenP2pini) (fun s => expectByte_kept _ 7 0 s) fun _ hc hs =>
      expectByte_lines hc hs

theorem p2piex_body (data : List Byte) :
    Body (writesOf .p2piex) (fun s => (exchange (cmdP2piex s.cfg data) s.cfg.rlenP2piex s).andThen fun s => (expectByte 7 0 s).andThen copyBlock) :=
  .of_exchange rfl (fun c => cmdP2piex c data) (fun c => c.rlenP2piex) (fun s => Kept.andThen (expectByte_kept _ 7 0 s) fun t
      _ _ => copyBlock_kept rfl t) fun _ hc hs => Run.Tidy.andThen (expectByte_lines hc hs) fun _ ht hu => copyBlock_lines ht
      hu

theorem p2ptgt_body :
    Body (writesOf .p2ptgt) (fun s => (exchange (cmdP2ptgt s.cfg) s.cfg.rlenP2ptgt s).andThen (expectByte 23 0)) :=
  .of_exchange rfl cmdP2ptgt (fun c => c.rlenP2ptgt) (fun s => expectByte_kept _ 23 0 s) fun _ hc hs => expectByte_lines hc
      hs

theorem p2ptrs_body (data : List Byte) :
    Body (writesOf .p2ptrs) (fun s => (receiveLeg s).andThen (sendLeg data)) :=
  (receiveLeg_body rfl rfl).andThen (sendLeg_body rfl data)

theorem rdreg_body (addr : Half) :
    Body (writesOf .rdreg) (fun s => (exchange (cmdRdreg s.cfg addr) s.cfg.rlenRdreg s).andThen fun s =>
    needBuf (s.cfg.rdregOff + 1) s fun s => .done { s with regval := s.bufByte s.cfg.rdregOff }) := by
  refine .of_exchange rfl (fun c => cmdRdreg c addr) (fun c => c.rlenRdreg) (fun s => ?_) fun s hc hs => ?_
  · unfold needBuf
    split_ifs
    · exact regval_kept rfl _ s
    · exact Kept.refl _ s
  · unfold needBuf
    split_ifs <;> exact Run.Tidy.of_same hc hs rfl rfl rfl rfl

theorem wrreg_body (addr : Half) (v : Byte) :
    Body (writesOf .wrreg) (fun s => (memWrite 0 (cmdWrreg s.cfg addr v) s).andThen (sendcmdAlone (cmdWrreg s.cfg addr v).length)) := by
  refine ⟨fun s => Kept.andThen (memWrite_kept _ _ _ s) fun t _ _ => sendcmdAlone_kept rfl _ t, fun s hc hs =>
    Run.Tidy.andThen (memWrite_lines false 0 _ hc hs) fun t ht hu => sendcmdAlone_lines ht hu, fun s t h => .inr ?_⟩
  revert h
  cases memWrite 0 (cmdWrreg s.cfg addr v) s with
  | raised e u => exact fun h => by cases h
  | done u => exact sendcmdAlone_success

/-- Everything an operation the HOST may start can do: the latch, pseudocode as `Body` says, an exit. -/
theorem exec_started {i : Instr} (h : i.name.startable = true) :
    ∃ body, Body (writesOf i.name) body ∧ ∀ s, exec i s = .next (runStarted i body s) := by
  cases i
  case wrbyte v => exact ⟨_, wrbyte_body v, fun _ => rfl⟩
  case rdbyte => exact ⟨_, rdbyte_body, fun _ => rfl⟩
  case encode => exact absurd h Bool.false_ne_true
  case declen => exact absurd h Bool.false_ne_true
  case validate => exact absurd h Bool.false_ne_true
  case decode => exact absurd h Bool.false_ne_true
  case ackcmp => exact absurd h Bool.false_ne_true
  case select => exact absurd h Bool.false_ne_true
  case deselect => exact absurd h Bool.false_ne_true
  case wrframe n => exact ⟨_, wrframe_body n, fun _ => rfl⟩
  case status => exact ⟨_, status_body, fun _ => rfl⟩
  case waitrdy => exact ⟨_, waitrdy_body, fun _ => rfl⟩
  case rdack => exact ⟨_, rdack_body, fun _ => rfl⟩
  case rdfix r => exact ⟨_, rdfix_body r, fun _ => rfl⟩
  case rdvar => exact ⟨_, rdvar_body, fun _ => rfl⟩
  case sendcmd n => exact ⟨_, sendcmd_body n, fun _ => rfl⟩
  case xchgf n r => exact ⟨_, xchgf_body n r, fun _ => rfl⟩
  case xchgv n => exact ⟨_, xchgv_body n, fun _ => rfl⟩
  case getfw => exact ⟨_, getfw_body, fun _ => rfl⟩
  case samcfg => exact ⟨_, samcfg_body, fun _ => rfl⟩
  case listpt baud => exact ⟨_, listpt_body baud, fun _ => rfl⟩
  case auth tg keysel blk key cid => exact ⟨_, auth_body tg keysel blk key cid, fun _ => rfl⟩
  case rdblk tg blk => exact ⟨_, rdblk_body tg blk, fun _ => rfl⟩
  case wrblk tg blk data => exact ⟨_, wrblk_body tg blk data, fun _ => rfl⟩
  case p2pini baud => exact ⟨_, p2pini_body baud, fun _ => rfl⟩
  case p2piex data => exact ⟨_, p2piex_body data, fun _ => rfl⟩
  case p2ptgt => exact ⟨_, p2ptgt_body, fun _ => rfl⟩
  case p2ptrs data => exact ⟨_, p2ptrs_body data, fun _ => rfl⟩
  case rdreg addr => exact ⟨_, rdreg_body addr, fun _ => rfl⟩
  case wrreg addr v => exact ⟨_, wrreg_body addr v, fun _ => rfl⟩

end Sys2Proof.Machine
end

