-- ==== Sys2Proof/Laws/PerInstr.lean ====
section
/-! SUPPORT. One lemma per instruction: its bytes on the host port are as many as its row of R90 says, and OPSEL names it. -/

namespace Sys2Proof.Laws.OperandRecord

/-- The bytes R90's operands of an operation take on the host port, one for OPSEL among them; a sequence of no fixed length counts
with its two length bytes alone (log entry 8). -/
def width : OpName → Nat
  | .rdbyte | .select | .deselect | .status | .waitrdy | .rdack | .rdvar | .getfw | .samcfg | .p2ptgt => 1
  | .wrbyte | .wrframe | .rdfix | .sendcmd | .xchgv | .listpt | .p2pini => 2
  | .encode | .decode | .xchgf | .rdblk | .rdreg => 3
  | .validate | .wrreg => 4
  | .declen => 6
  | .ackcmp => 7
  | .auth => 14
  | .p2piex | .p2ptrs => 17
  | .wrblk => 19

/-- The bytes of a sequence of no fixed length. -/
def sequence : Instr → List Byte
  | .encode cmd => cmd
  | .validate f _ => f
  | .decode f => f
  | .wrbyte _ | .rdbyte | .declen _ | .ackcmp _ | .select | .deselect | .wrframe _ | .status | .waitrdy | .rdack | .rdfix _
  | .rdvar | .sendcmd _ | .xchgf _ _ | .xchgv _ | .getfw | .samcfg | .listpt _ | .auth _ _ _ _ _ | .rdblk _ _ | .wrblk _ _ _
  | .p2pini _ | .p2piex _ | .p2ptgt | .p2ptrs _ | .rdreg _ | .wrreg _ _ => []

/-- A well-formed instruction's bytes are as many as its row says, and their first, OPSEL, names it. -/
def Statement (i : Instr) : Prop :=
  i.wf = true → (Sys2Proof.encode i).length = width i.name + (sequence i).length ∧ OpName.ofOpsel i.name.opsel = some i.name

theorem wrbyte (v : Byte) : Statement (.wrbyte v) := fun _ => ⟨rfl, rfl⟩

theorem rdbyte : Statement .rdbyte := fun _ => ⟨rfl, rfl⟩

theorem encode (cmd : List Byte) : Statement (.encode cmd) := fun _ =>
  ⟨by simp [Sys2Proof.encode, Instr.operandBytes, putSeq, halfBytes, width, sequence, Instr.name]; omega, rfl⟩

theorem declen (h : List Byte) : Statement (.declen h) := fun h => by
  have h := of_decide_eq_true h
  exact ⟨by simp [Sys2Proof.encode, Instr.operandBytes, width, sequence, Instr.name, h], rfl⟩

theorem validate (f : List Byte) (short : Bool) : Statement (.validate f short) := fun _ =>
  ⟨by simp [Sys2Proof.encode, Instr.operandBytes, putSeq, halfBytes, width, sequence, Instr.name]; omega, rfl⟩

theorem decode (f : List Byte) : Statement (.decode f) := fun _ =>
  ⟨by simp [Sys2Proof.encode, Instr.operandBytes, putSeq, halfBytes, width, sequence, Instr.name]; omega, rfl⟩

theorem ackcmp (a : List Byte) : Statement (.ackcmp a) := fun h => by
  have h := of_decide_eq_true h
  exact ⟨by simp [Sys2Proof.encode, Instr.operandBytes, width, sequence, Instr.name, h], rfl⟩

theorem select : Statement .select := fun _ => ⟨rfl, rfl⟩

theorem deselect : Statement .deselect := fun _ => ⟨rfl, rfl⟩

theorem wrframe (n : Byte) : Statement (.wrframe n) := fun _ => ⟨rfl, rfl⟩

theorem status : Statement .status := fun _ => ⟨rfl, rfl⟩

theorem waitrdy : Statement .waitrdy := fun _ => ⟨rfl, rfl⟩

theorem rdack : Statement .rdack := fun _ => ⟨rfl, rfl⟩

theorem rdfix (r : Byte) : Statement (.rdfix r) := fun _ => ⟨rfl, rfl⟩

theorem rdvar : Statement .rdvar := fun _ => ⟨rfl, rfl⟩

theorem sendcmd (n : Byte) : Statement (.sendcmd n) := fun _ => ⟨rfl, rfl⟩

theorem xchgf (n r : Byte) : Statement (.xchgf n r) := fun _ => ⟨rfl, rfl⟩

theorem xchgv (n : Byte) : Statement (.xchgv n) := fun _ => ⟨rfl, rfl⟩

theorem getfw : Statement .getfw := fun _ => ⟨rfl, rfl⟩

theorem samcfg : Statement .samcfg := fun _ => ⟨rfl, rfl⟩

theorem listpt (baud : Byte) : Statement (.listpt baud) := fun _ => ⟨rfl, rfl⟩

theorem auth (tg keysel blk : Byte) (key : List Byte) (cid : Word) : Statement (.auth tg keysel blk key cid) := fun h => by
  have h := of_decide_eq_true h
  exact ⟨by simp [Sys2Proof.encode, Instr.operandBytes, wordBytes, width, sequence, Instr.name, h], rfl⟩

theorem rdblk (tg blk : Byte) : Statement (.rdblk tg blk) := fun _ => ⟨rfl, rfl⟩

theorem wrblk (tg blk : Byte) (data : List Byte) : Statement (.wrblk tg blk data) := fun h => by
  have h := of_decide_eq_true h
  exact ⟨by simp [Sys2Proof.encode, Instr.operandBytes, width, sequence, Instr.name, h], rfl⟩

theorem p2pini (baud : Byte) : Statement (.p2pini baud) := fun _ => ⟨rfl, rfl⟩

theorem p2piex (data : List Byte) : Statement (.p2piex data) := fun h => by
  have h := of_decide_eq_true h
  exact ⟨by simp [Sys2Proof.encode, Instr.operandBytes, width, sequence, Instr.name, h], rfl⟩

theorem p2ptgt : Statement .p2ptgt := fun _ => ⟨rfl, rfl⟩

theorem p2ptrs (data : List Byte) : Statement (.p2ptrs data) := fun h => by
  have h := of_decide_eq_true h
  exact ⟨by simp [Sys2Proof.encode, Instr.operandBytes, width, sequence, Instr.name, h], rfl⟩

theorem rdreg (addr : Half) : Statement (.rdreg addr) := fun _ => ⟨rfl, rfl⟩

theorem wrreg (addr : Half) (val : Byte) : Statement (.wrreg addr val) := fun _ => ⟨rfl, rfl⟩

end Sys2Proof.Laws.OperandRecord
end

