-- ==== Sys2Proof/Tests/Slice0.lean ====
section
/-! SUPPORT. Tests. Every expected value comes from the tables and programs of spec/95_test_vectors.md, named in each docstring, or from
the encoding of R90; they hold for the default configuration. -/

namespace Sys2Proof.Tests

open Sys2Proof.Machine

/-! The kernel evaluations below run one after another: together they need more memory than one run may take. -/

set_option Elab.async false

/-! ### Well-formedness: an ill-formed term for each check, and a well-formed one beside it -/

theorem test_wf_encode : (Instr.encode (List.replicate 65536 0)).wf = false ∧ (Instr.encode []).wf = true := by
  simp only [Instr.wf, List.length_replicate]; decide

theorem test_wf_declen : (Instr.declen [0, 0, 0xFF, 6]).wf = false ∧ (Instr.declen [0, 0, 0xFF, 6, 0xFA]).wf = true := by decide

theorem test_wf_validate : (Instr.validate (List.replicate 65536 0) true).wf = false ∧ (Instr.validate [] true).wf = true := by
  simp only [Instr.wf, List.length_replicate]; decide

theorem test_wf_decode : (Instr.decode (List.replicate 65536 0)).wf = false ∧ (Instr.decode []).wf = true := by
  simp only [Instr.wf, List.length_replicate]; decide

theorem test_wf_ackcmp : (Instr.ackcmp [0, 0, 0xFF, 0, 0xFF, 0, 0]).wf = false ∧ (Instr.ackcmp [0, 0, 0xFF, 0, 0xFF, 0]).wf = true := by
  decide

theorem test_wf_auth :
    (Instr.auth 1 0x60 4 [0xFF, 0xFF, 0xFF, 0xFF, 0xFF] 0).wf = false ∧
    (Instr.auth 1 0x60 4 [0xFF, 0xFF, 0xFF, 0xFF, 0xFF, 0xFF] 0).wf = true := by decide

theorem test_wf_wrblk : (Instr.wrblk 1 4 (List.replicate 15 0)).wf = false ∧ (Instr.wrblk 1 4 (List.replicate 16 0)).wf = true := by
  decide

theorem test_wf_p2piex : (Instr.p2piex (List.replicate 17 0)).wf = false ∧ (Instr.p2piex (List.replicate 16 0)).wf = true := by decide

theorem test_wf_p2ptrs : (Instr.p2ptrs []).wf = false ∧ (Instr.p2ptrs (List.replicate 16 0)).wf = true := by decide

/-! ### Decoding: every instruction from a word written out from R90, the operands in its order, each most significant byte first -/

theorem test_decode_wrbyte : decode [0x00, 0xD4] = .op (.wrbyte 0xD4) [] := by decide
theorem test_decode_rdbyte : decode [0x01] = .op .rdbyte [] := by decide
theorem test_decode_encode : decode [0x10, 0x00, 0x02, 0xFF, 0x14] = .op (.encode [0xFF, 0x14]) [] := by decide
theorem test_decode_declen : decode [0x11, 0x00, 0xFF, 0x06, 0xFA, 0xD5] = .op (.declen [0x00, 0xFF, 0x06, 0xFA, 0xD5]) [] := by decide
theorem test_decode_validate : decode [0x12, 0x00, 0x01, 0x77, 0x00] = .op (.validate [0x77] false) [] := by decide
theorem test_decode_validate_bit : decode [0x12, 0x00, 0x01, 0x77, 0x02] = .malformed .validate := by decide
theorem test_decode_decode : decode [0x13, 0x00, 0x03, 0x00, 0x00, 0xFF] = .op (.decode [0x00, 0x00, 0xFF]) [] := by decide
theorem test_decode_ackcmp :
    decode [0x14, 0x00, 0x00, 0xFF, 0x00, 0xFF, 0x01] = .op (.ackcmp [0x00, 0x00, 0xFF, 0x00, 0xFF, 0x01]) [] := by decide
theorem test_decode_select : decode [0x20] = .op .select [] := by decide
theorem test_decode_deselect : decode [0x21] = .op .deselect [] := by decide
theorem test_decode_wrframe : decode [0x22, 0x26] = .op (.wrframe 38) [] := by decide
theorem test_decode_status : decode [0x23] = .op .status [] := by decide
theorem test_decode_waitrdy : decode [0x24] = .op .waitrdy [] := by decide
theorem test_decode_rdack : decode [0x25] = .op .rdack [] := by decide
theorem test_decode_rdfix : decode [0x26, 0x0C] = .op (.rdfix 12) [] := by decide
theorem test_decode_rdvar : decode [0x27] = .op .rdvar [] := by decide
theorem test_decode_sendcmd : decode [0x28, 0x11] = .op (.sendcmd 17) [] := by decide
theorem test_decode_xchgf : decode [0x29, 0x01, 0x0C] = .op (.xchgf 1 12) [] := by decide
theorem test_decode_xchgv : decode [0x2A, 0x01] = .op (.xchgv 1) [] := by decide
theorem test_decode_getfw : decode [0x30] = .op .getfw [] := by decide
theorem test_decode_samcfg : decode [0x31] = .op .samcfg [] := by decide
theorem test_decode_listpt : decode [0x32, 0x02] = .op (.listpt 2) [] := by decide
theorem test_decode_auth :
    decode [0x33, 0x01, 0x60, 0x05, 0xA0, 0xA1, 0xA2, 0xA3, 0xA4, 0xA5, 0x04, 0x00, 0x01, 0x02] =
      .op (.auth 0x01 0x60 0x05 [0xA0, 0xA1, 0xA2, 0xA3, 0xA4, 0xA5] 0x04000102) [] := by decide
theorem test_decode_rdblk : decode [0x34, 0x01, 0x04] = .op (.rdblk 1 4) [] := by decide
theorem test_decode_wrblk :
    decode [0x35, 0x01, 0x04, 0, 1, 2, 3, 4, 5, 6, 7, 8, 9, 10, 11, 12, 13, 14, 15] =
      .op (.wrblk 1 4 [0, 1, 2, 3, 4, 5, 6, 7, 8, 9, 10, 11, 12, 13, 14, 15]) [] := by decide
theorem test_decode_p2pini : decode [0x36, 0x02] = .op (.p2pini 2) [] := by decide
theorem test_decode_p2piex :
    decode [0x37, 0, 1, 2, 3, 4, 5, 6, 7, 8, 9, 10, 11, 12, 13, 14, 15, 16] =
      .op (.p2piex [0, 1, 2, 3, 4, 5, 6, 7, 8, 9, 10, 11, 12, 13, 14, 15]) [16] := by decide
theorem test_decode_p2ptgt : decode [0x38] = .op .p2ptgt [] := by decide
theorem test_decode_p2ptrs :
    decode [0x39, 0, 1, 2, 3, 4, 5, 6, 7, 8, 9, 10, 11, 12, 13, 14, 15] =
      .op (.p2ptrs [0, 1, 2, 3, 4, 5, 6, 7, 8, 9, 10, 11, 12, 13, 14, 15]) [] := by decide
theorem test_decode_rdreg : decode [0x3A, 0x63, 0x02] = .op (.rdreg 0x6302) [] := by decide
theorem test_decode_wrreg : decode [0x3B, 0x63, 0x02, 0x80] = .op (.wrreg 0x6302 0x80) [] := by decide
theorem test_decode_reserved : decode [0x15] = .reserved 0x15 ∧ decode [0x3C] = .reserved 0x3C := by decide

/-! ### Helpers -/

/-- The reset state with a chip script. -/
def withChip (bytes : List Byte) : State := { State.reset with din := script bytes }

/-- The handshake bytes of an exchange, READY, ACK, READY, then a response (section 5 of the vectors). -/
def answer (response : List Byte) : List Byte := [0x01, 0x00, 0x00, 0xFF, 0x00, 0xFF, 0x00, 0x01] ++ response

/-- The same with a not-ready poll before each READY. -/
def lateAnswer (response : List Byte) : List Byte := [0x00, 0x01, 0x00, 0x00, 0xFF, 0x00, 0xFF, 0x00, 0x00, 0x01] ++ response

/-- What holds of the state one operation leaves. -/
def after (i : Instr) (s : State) (f : State → Bool) : Bool :=
  match exec i s with
  | .next t => f t
  | .fault _ => false
  | .refused _ => false

/-- What holds of the state one step leaves. -/
def afterStep (s : State) (f : State → Bool) : Bool :=
  match step s with
  | .next t => f t
  | .fault _ => false
  | .refused _ => false

/-- OK = 1, ERR = None, ERRINFO = 0, SEL = 0, CLK = 1, BUSY = 0. -/
def succeededSafely (t : State) : Bool := t.ok && t.err == .none && t.errinfo == 0 && !t.sel && t.clk && !t.busy

/-- OK = 0 with this code and detail, SEL = 0, CLK = 1, BUSY = 0. -/
def failedWith (e : ErrCode) (info : Byte) (t : State) : Bool :=
  !t.ok && t.err == e && t.errinfo == info && !t.sel && t.clk && !t.busy

/-! ### Bit Link -/

/-- V1, V11. -/
theorem test_wrbyte :
    after (.wrbyte 0xD4) State.reset (fun t =>
      t.hist == [.clk false, .dout false, .clk true, .clk false, .dout false, .clk true, .clk false, .dout true, .clk true,
        .clk false, .dout false, .clk true, .clk false, .dout true, .clk true, .clk false, .dout false, .clk true,
        .clk false, .dout true, .clk true, .clk false, .dout true, .clk true] &&
      t.dout && t.shr == 0xD4 && t.bcnt == 8 && t.tstate == .idle && succeededSafely t) = true := by decide +kernel

/-- V7. -/
theorem test_rdbyte :
    after .rdbyte { State.reset with din := [true, false, true, false, false, true, false, true] } (fun t =>
      t.shr == 0xA5 && t.hist.take 6 == [.sample true, .clk false, .clk true, .sample false, .clk false, .clk true] &&
      t.hist.length == 24 && !t.dout && succeededSafely t) = true := by decide +kernel

/-! ### Frame Codec -/

/-- V24, V28, and the accumulator trace of V20. -/
theorem test_encode :
    after (.encode [0x14, 0x01, 0x14, 0x01]) State.reset (fun t =>
      t.ret == .frame [0x00, 0x00, 0xFF, 0x05, 0xFB, 0xD4, 0x14, 0x01, 0x14, 0x01, 0x02, 0x00]) &&
    after (.encode [0x02]) State.reset (fun t => t.cks == 0xD5) &&
    after (.encode []) State.reset (failedWith .refused 3) = true := by decide +kernel

/-- V26. -/
theorem test_encode_longest :
    after (.encode (List.replicate 254 0x55)) State.reset (fun t =>
      t.ret == .frame ([0x00, 0x00, 0xFF, 0xFF, 0x01, 0xD4] ++ List.replicate 254 0x55 ++ [0xD6, 0x00])) = true := by decide +kernel

/-- V29 to V33. -/
theorem test_declen :
    (after (.declen [0x00, 0x00, 0xFF, 0x06, 0xFA]) State.reset (fun t => !t.short && t.tlen == 13) &&
    after (.declen [0x00, 0xFF, 0x06, 0xFA, 0xD5]) State.reset (fun t => t.short && t.tlen == 13) &&
    after (.declen [0x00, 0xFF, 0x06, 0xFA, 0xD5]) { State.reset with mode := 0 } (failedWith .responseMismatch 1) &&
    after (.declen [0x00, 0x00, 0x00, 0xFF, 0x02]) State.reset (failedWith .responseMismatch 1) &&
    after (.declen [0x00, 0x00, 0xFF, 0xFF, 0x01]) State.reset (fun t => t.tlen == 262)) = true := by decide +kernel

/-- V36 to V39a. -/
theorem test_validate :
    (after (.validate [0x00, 0x00, 0xFF, 0x03, 0xFD, 0xD5, 0x41, 0x00, 0xEA, 0x00] false) State.reset (fun t => t.ret == .bit true) &&
    after (.validate [0x00, 0x00, 0xFF, 0x03, 0xFD, 0xD5, 0x41, 0x01, 0xEA, 0x00] false) State.reset (fun t => t.ret == .bit false) &&
    after (.validate [0x00, 0xFF, 0x03, 0xFD, 0xD5, 0x41, 0x00, 0xEA, 0x00, 0x77] true) State.reset (fun t => t.ret == .bit true) &&
    after (.validate [0x00, 0x00, 0xFF, 0x00, 0x00, 0xD5] false) State.reset (fun t => t.ret == .bit false) &&
    after (.validate [0x00, 0x00, 0xFF, 0x03, 0xFD, 0xD5, 0x41, 0x00] false) State.reset (fun t => t.ret == .bit false)) = true := by
  decide +kernel

/-- The round trip of V23 and the DECODE errors of section 3. -/
theorem test_decodeFrame :
    (after (.decode [0x00, 0x00, 0xFF, 0x03, 0xFD, 0xD4, 0xFF, 0xFF, 0x2E, 0x00]) State.reset
      (fun t => t.ret == .decoded 0xD4 0xFF [0xFF]) &&
    after (.decode [0x00, 0x00, 0xFF, 0x03, 0xFD, 0xD5, 0x41, 0x00, 0xEA]) State.reset (failedWith .responseMismatch 2) &&
    after (.decode [0x00, 0x00, 0xFE, 0x02, 0xFE, 0xD4, 0x02, 0x2A, 0x00]) State.reset (failedWith .responseMismatch 1) &&
    after (.decode [0x00, 0x00, 0xFF, 0x02, 0xFE, 0xD4, 0x02, 0x2A, 0x01]) State.reset (failedWith .responseMismatch 1) &&
    after (.decode [0x00, 0x00, 0xFF, 0x02, 0xFE, 0xD4, 0x02, 0x2B, 0x00]) State.reset (failedWith .responseMismatch 3)) = true := by
  decide +kernel

/-- V34, V35. -/
theorem test_ackcmp :
    (after (.ackcmp [0x00, 0x00, 0xFF, 0x00, 0xFF, 0x00]) State.reset (fun t => t.ret == .bit true) &&
    after (.ackcmp [0x00, 0x00, 0xFF, 0x00, 0xFE, 0x00]) State.reset (fun t => t.ret == .bit false) &&
    after (.ackcmp [0x00, 0xFF, 0x00, 0xFF, 0x00, 0x00]) State.reset (fun t => t.ret == .bit false)) = true := by decide +kernel

/-! ### Transport Session -/

/-- `S+` and `S-` of R16. -/
theorem test_select_deselect :
    (after .select State.reset (fun t => t.sel && t.hist == [.sel true, .wait 2]) &&
    after .deselect { State.reset with sel := true } (fun t => !t.sel && t.hist == [.sel false])) = true := by decide +kernel

/-- V50, V51. -/
theorem test_wrframe :
    (after (.wrframe 1) { State.reset with buf := [(0, 0x02)] } (fun t =>
      t.trace.length == 243 && t.shr == 0x00 && t.bufByte 0 == 0x02 && t.idx == 8 && succeededSafely t) &&
    after (.wrframe 0) State.reset (fun t => t.trace == [] && failedWith .refused 3 t) &&
    after (.wrframe 39) State.reset (fun t => t.trace == [] && failedWith .refused 3 t)) = true := by decide +kernel

/-- V40. -/
theorem test_status :
    after .status (withChip [0x01]) (fun t => t.trace.length == 51 && t.stat == 0x01 && succeededSafely t) = true := by decide +kernel

/-- V45. -/
theorem test_waitrdy_ready :
    after .waitrdy (withChip [0x00, 0x00, 0x01]) (fun t =>
      t.trace.length == 155 && t.elapsed == 20 && t.stat == 0x01 && succeededSafely t) = true := by decide +kernel

/-- V42, V43: the budget at and just below a poll interval. -/
theorem test_waitrdy_timeout :
    (after .waitrdy { withChip [0x00] with budget := 9 } (fun t =>
      t.trace.length == 51 && t.elapsed == 10 && t.stat == 0x00 && t.tstate == .idle && failedWith .timeout 0 t) &&
    after .waitrdy { withChip [0x00, 0x00] with budget := 10 } (fun t =>
      t.trace.length == 103 && t.elapsed == 20 && failedWith .timeout 0 t)) = true := by decide +kernel

/-- V48. -/
theorem test_rdack :
    after .rdack (withChip [0x00, 0x00, 0xFF, 0x00, 0xFF, 0x00]) (fun t =>
      t.trace.length == 171 && t.ackr.toList == [0x00, 0x00, 0xFF, 0x00, 0xFF, 0x00] && t.buf == [] && succeededSafely t) = true := by
  decide +kernel

/-- V49, and the shifted acknowledgement of V35. -/
theorem test_rdack_mismatch :
    (after .rdack (withChip [0x00, 0x00, 0xFF, 0x00, 0xFF, 0x01]) (failedWith .ackMismatch 5) &&
    after .rdack (withChip [0x00, 0xFF, 0x00, 0xFF, 0x00, 0x00]) (failedWith .ackMismatch 1)) = true := by decide +kernel

/-- V52. -/
theorem test_rdfix :
    after (.rdfix 2) (withChip [0x00, 0xFF]) (fun t =>
      t.trace.length == 75 && t.bufByte 0 == 0x00 && t.bufByte 1 == 0xFF && t.rcount == 2 && succeededSafely t) = true := by
  decide +kernel

/-- V53, V54. -/
theorem test_rdfix_edges :
    (after (.rdfix 0) State.reset (fun t => t.trace.length == 27 && t.rcount == 0 && succeededSafely t) &&
    after (.rdfix 65) State.reset (fun t => t.trace == [] && failedWith .refused 3 t)) = true := by decide +kernel

/-- V56, V57. -/
theorem test_rdvar :
    (after .rdvar (withChip [0x00, 0xFF, 0x03, 0xFD, 0xD5, 0x41, 0x00, 0xEA, 0x00, 0x77]) (fun t =>
      t.trace.length == 267 && t.short && t.tlen == 10 && t.rcount == 10 && t.bufByte 9 == 0x77 && succeededSafely t) &&
    after .rdvar { withChip [0x00, 0xFF, 0x03, 0xFD, 0xD5] with mode := 0 } (fun t =>
      t.trace.length == 147 && failedWith .responseMismatch 1 t)) = true := by decide +kernel

/-- V58, V59. -/
theorem test_rdvar_rejected :
    (after .rdvar (withChip [0x00, 0x00, 0xFF, 0x3A, 0xC6]) (fun t =>
      t.trace.length == 147 && t.tlen == 65 && failedWith .responseMismatch 4 t) &&
    after .rdvar { withChip [0x00, 0x00, 0xFF, 0x03, 0xFD, 0xD5, 0x41, 0x01, 0xEA, 0x00] with mode := 3 } (fun t =>
      t.trace.length == 267 && t.rcount == 0 && failedWith .responseMismatch 3 t)) = true := by decide +kernel

/-- The exchange of P1 without its read: WRFRAME, one poll, RDACK, two polls; TSTATE = Success. -/
theorem test_sendcmd :
    after (.sendcmd 1) { withChip [0x01, 0x00, 0x00, 0xFF, 0x00, 0xFF, 0x00, 0x00, 0x01] with buf := [(0, 0x02)] } (fun t =>
      t.trace.length == 243 + 51 + 171 + 103 && t.elapsed == 10 && t.tstate == .success && succeededSafely t) = true := by
  decide +kernel

/-- P6's composite: XCHGF n=1 r=12 with the chip script of P1. -/
theorem test_xchgf :
    after (.xchgf 1 12) { withChip ([0x01, 0x00, 0x00, 0xFF, 0x00, 0xFF, 0x00, 0x00, 0x01] ++
        [0x00, 0xFF, 0x06, 0xFA, 0xD5, 0x03, 0x32, 0x01, 0x06, 0x07, 0xE8, 0x00]) with buf := [(0, 0x02)] } (fun t =>
      t.trace.length == 883 && t.rcount == 12 && t.tstate == .success && t.bufByte 0 == 0x00 && t.bufByte 10 == 0xE8 &&
      succeededSafely t) = true := by decide +kernel

/-- P5 (a), (b). -/
theorem test_xchgv :
    (after (.xchgv 1) { withChip (answer [0x00, 0x00, 0xFF, 0x06, 0xFA, 0xD5, 0x03, 0x32, 0x01, 0x06, 0x07, 0xE8, 0x00]) with
        buf := [(0, 0x02)] } (fun t =>
      t.trace.length == 855 && !t.short && t.rcount == 13 && t.tstate == .success && succeededSafely t) &&
    after (.xchgv 1) { withChip (answer [0x00, 0xFF, 0x06, 0xFA, 0xD5, 0x03, 0x32, 0x01, 0x06, 0x07, 0xE8, 0x00, 0x77]) with
        buf := [(0, 0x02)], mode := 3 } (fun t =>
      t.short && t.rcount == 13 && t.bufByte 12 == 0x77 && succeededSafely t)) = true := by decide +kernel

/-- P5 (c), (d). -/
theorem test_xchgv_rejected :
    (after (.xchgv 1) { withChip (answer [0x00, 0xFF, 0x06, 0xFA, 0xD5, 0x03]) with buf := [(0, 0x02)], mode := 0 } (fun t =>
      t.trace.length == 663 && t.rcount == 0 && t.tstate == .failed && failedWith .responseMismatch 1 t) &&
    after (.xchgv 1) { withChip (answer [0x00, 0x00, 0xFF, 0x06, 0xFA, 0xD5, 0x03, 0x32, 0x01, 0x06, 0x07, 0xE9, 0x00]) with
        buf := [(0, 0x02)], mode := 3 } (fun t =>
      t.trace.length == 855 && t.rcount == 0 && t.tstate == .failed && failedWith .responseMismatch 3 t)) = true := by decide +kernel

/-! ### Command Catalog -/

/-- P1 with V75. -/
theorem test_getfw :
    after .getfw (withChip ([0x01, 0x00, 0x00, 0xFF, 0x00, 0xFF, 0x00, 0x00, 0x01] ++
        [0x00, 0xFF, 0x06, 0xFA, 0xD5, 0x03, 0x32, 0x01, 0x06, 0x07, 0xE8, 0x00])) (fun t =>
      t.trace.length == 883 && t.res32 == 0x32010607 && t.rcount == 12 && t.tstate == .success && t.elapsed == 10 &&
      t.stat == 0x01 && !t.dout && succeededSafely t) = true := by decide +kernel

/-- P2: the timeout of the first wait with BUDGET = 30. -/
theorem test_getfw_timeout :
    after .getfw { withChip [0x00, 0x00, 0x00, 0x00] with budget := 30 } (fun t =>
      t.trace.length == 450 && t.elapsed == 40 && t.tstate == .timedOut && t.res32 == 0 && t.rcount == 0 &&
      t.bufByte 0 == 0x02 && failedWith .timeout 1 t) = true := by decide +kernel

/-- V78, V79. -/
theorem test_samcfg :
    (after .samcfg (withChip (answer [0x00, 0xFF, 0x02, 0xFE, 0xD5, 0x15, 0x16, 0x00])) succeededSafely &&
    after .samcfg (withChip (answer [0x00, 0x00, 0xFF, 0x02, 0xFE, 0xD5, 0x15, 0x16])) (fun t =>
      t.tstate == .success && t.rcount == 8 && failedWith .operationRejected 0xD5 t)) = true := by decide +kernel

/-- P4. -/
theorem test_samcfg_mismatch :
    after .samcfg (withChip [0x01, 0x00, 0x00, 0xFF, 0x00, 0xFF, 0x01]) (fun t =>
      t.trace.length == 537 && t.tstate == .failed && t.bufBytes 0 4 == [0x14, 0x01, 0x14, 0x01] && t.rcount == 0 &&
      failedWith .ackMismatch 5 t) = true := by decide +kernel

/-- P3's LISTPT with V63. -/
theorem test_listpt :
    after (.listpt 0) (withChip (answer [0x00, 0x00, 0xFF, 0x0C, 0xF4, 0xD5, 0x4B, 0x01, 0x01, 0x00, 0x04, 0x08, 0x04, 0x04, 0x00,
        0x01, 0x02, 0xC7, 0x00, 0xEE])) (fun t =>
      t.trace.length == 1071 && t.res32 == 0x04000102 && t.sens == 0x0004 && t.selr == 0x08 && t.idlen == 4 && t.rcount == 20 &&
      succeededSafely t) = true := by decide +kernel

/-- V83, V82. -/
theorem test_listpt_edges :
    (after (.listpt 0) (withChip (answer [0x00, 0x00, 0xFF, 0x0F, 0xF1, 0xD5, 0x4B, 0x01, 0x01, 0x00, 0x44, 0x00, 0x07, 0x04, 0xA1,
        0xB2, 0xC3, 0xD4, 0xE5, 0xF6])) (fun t => t.res32 == 0xC3D4E5F6 && t.sens == 0x0044 && t.idlen == 7 && succeededSafely t) &&
    after (.listpt 0) (withChip (answer [0x00, 0x00, 0xFF, 0x0C, 0xF4, 0xD5, 0x4B, 0x02, 0x01, 0x00, 0x04, 0x08, 0x04, 0x01, 0x02,
        0x03, 0x04, 0xC3, 0x00, 0x00])) (fun t => t.res32 == 0 && failedWith .operationRejected 2 t)) = true := by decide +kernel

/-- V68, with the bytes P3 says are left of the command. -/
theorem test_auth :
    after (.auth 0x01 0x60 0x04 [0xFF, 0xFF, 0xFF, 0xFF, 0xFF, 0xFF] 0x04000102)
      (withChip (answer [0x00, 0x00, 0xFF, 0x03, 0xFD, 0xD5, 0x41, 0x00])) (fun t =>
      t.bufBytes 8 6 == [0xFF, 0xFF, 0x04, 0x00, 0x01, 0x02] && t.rcount == 8 && succeededSafely t) = true := by decide +kernel

/-- V69, V86: the echo is tested before the status. -/
theorem test_auth_rejected :
    (after (.auth 0x01 0x60 0x04 [0xFF, 0xFF, 0xFF, 0xFF, 0xFF, 0xFF] 0x04000102)
      (withChip (answer [0x00, 0x00, 0xFF, 0x03, 0xFD, 0xD5, 0x41, 0x01])) (failedWith .operationRejected 0x01) &&
    after (.auth 0x01 0x60 0x04 [0xFF, 0xFF, 0xFF, 0xFF, 0xFF, 0xFF] 0x04000102)
      (withChip (answer [0x00, 0x00, 0xFF, 0x03, 0xFD, 0xD5, 0x4B, 0x00])) (failedWith .operationRejected 0x4B)) = true := by
  decide +kernel

/-- V87. -/
theorem test_rdblk :
    after (.rdblk 0x01 0x04) (withChip (answer [0x00, 0x00, 0xFF, 0x13, 0xED, 0xD5, 0x41, 0x00, 0xB0, 0xB1, 0xB2, 0xB3, 0xB4, 0xB5,
        0xB6, 0xB7, 0xB8, 0xB9, 0xBA, 0xBB, 0xBC, 0xBD, 0xBE, 0xBF])) (fun t =>
      t.outblk.toList == [0xB0, 0xB1, 0xB2, 0xB3, 0xB4, 0xB5, 0xB6, 0xB7, 0xB8, 0xB9, 0xBA, 0xBB, 0xBC, 0xBD, 0xBE, 0xBF] &&
      t.rcount == 24 && succeededSafely t) = true := by decide +kernel

/-- V89, and the command of V66 in BUF. -/
theorem test_wrblk :
    after (.wrblk 0x01 0x04 [0, 1, 2, 3, 4, 5, 6, 7, 8, 9, 10, 11, 12, 13, 14, 15])
      (withChip (answer [0x00, 0x00, 0xFF, 0x03, 0xFD, 0xD5, 0x41, 0x00])) (fun t =>
      t.bufBytes 8 12 == [4, 5, 6, 7, 8, 9, 10, 11, 12, 13, 14, 15] && succeededSafely t) = true := by decide +kernel

/-- V90: byte 6 is not looked at. -/
theorem test_p2pini :
    (after (.p2pini 2) (withChip (answer ([9, 9, 9, 9, 9, 9, 9, 0] ++ List.replicate 17 0))) succeededSafely &&
    after (.p2pini 2) (withChip (answer ([9, 9, 9, 9, 9, 9, 9, 1] ++ List.replicate 17 0))) (failedWith .operationRejected 1)) = true := by
  decide +kernel

/-- V91. -/
theorem test_p2piex :
    after (.p2piex (List.replicate 16 0x10)) (withChip (answer [0x00, 0x00, 0xFF, 0x13, 0xED, 0xD5, 0x41, 0x00, 0xC0, 0xC1, 0xC2, 0xC3,
        0xC4, 0xC5, 0xC6, 0xC7, 0xC8, 0xC9, 0xCA, 0xCB, 0xCC, 0xCD, 0xCE, 0xCF])) (fun t =>
      t.outblk.toList == [0xC0, 0xC1, 0xC2, 0xC3, 0xC4, 0xC5, 0xC6, 0xC7, 0xC8, 0xC9, 0xCA, 0xCB, 0xCC, 0xCD, 0xCE, 0xCF] &&
      succeededSafely t) = true := by decide +kernel

/-- V92. -/
theorem test_p2ptgt :
    (after .p2ptgt (withChip (answer (List.replicate 23 9 ++ [0x00]))) succeededSafely &&
    after .p2ptgt (withChip (answer (List.replicate 23 9 ++ [0x25]))) (failedWith .operationRejected 0x25)) = true := by decide +kernel

/-- P7. -/
theorem test_p2ptrs :
    after (.p2ptrs [0xA0, 0xA1, 0xA2, 0xA3, 0xA4, 0xA5, 0xA6, 0xA7, 0xA8, 0xA9, 0xAA, 0xAB, 0xAC, 0xAD, 0xAE, 0xAF])
      (withChip (answer [0x00, 0x00, 0xFF, 0x13, 0xED, 0xD5, 0x87, 0x00, 0xC0, 0xC1, 0xC2, 0xC3, 0xC4, 0xC5, 0xC6, 0xC7, 0xC8, 0xC9,
        0xCA, 0xCB, 0xCC, 0xCD, 0xCE, 0xCF] ++ answer [0x00, 0x00, 0xFF, 0x03, 0xFD, 0xD5, 0x8F, 0x00])) (fun t =>
      t.trace.length == 2238 && t.rcount == 8 && t.tstate == .success && t.outblk.toList.take 2 == [0xC0, 0xC1] &&
      t.bufBytes 8 16 == [0xA7, 0xA8, 0xA9, 0xAA, 0xAB, 0xAC, 0xAD, 0xAE, 0xAF, 0xC9, 0xCA, 0xCB, 0xCC, 0xCD, 0xCE, 0xCF] &&
      succeededSafely t) = true := by decide +kernel

/-- P7b, P7c: the receive leg rejected, and the send leg timed out. -/
theorem test_p2ptrs_failed :
    (after (.p2ptrs (List.replicate 16 0xA0)) (withChip (answer ([0x00, 0x00, 0xFF, 0x03, 0xFD, 0xD5, 0x87, 0x29] ++
        List.replicate 16 0xEE))) (fun t =>
      t.trace.length == 1119 && t.rcount == 24 && t.tstate == .success && failedWith .operationRejected 0x29 t) &&
    after (.p2ptrs (List.replicate 16 0xA0)) { withChip (answer ([0x00, 0x00, 0xFF, 0x13, 0xED, 0xD5, 0x87, 0x00] ++
        List.replicate 16 0xC0) ++ [0x00, 0x00]) with budget := 10 } (fun t =>
      t.trace.length == 1849 && t.rcount == 24 && t.tstate == .timedOut && t.outblk.toList == List.replicate 16 0xC0 &&
      failedWith .timeout 1 t)) = true := by decide +kernel

/-- V93. -/
theorem test_rdreg :
    after (.rdreg 0x6302) (withChip (answer [0x00, 0x00, 0xFF, 0x03, 0xFD, 0xD5, 0x07, 0x5A, 0xCA, 0x00])) (fun t =>
      t.regval == 0x00 && t.bufByte 7 == 0x5A && succeededSafely t) = true := by decide +kernel

/-- V94. -/
theorem test_wrreg :
    after (.wrreg 0x6302 0x80) { withChip (answer []) with rcount := 12 } (fun t =>
      t.bufBytes 0 4 == [0x08, 0x63, 0x02, 0x80] && t.rcount == 12 && t.tstate == .success && succeededSafely t) = true := by
  decide +kernel

/-! ### The host port -/

/-- R28: a START of STATUS at the port runs it; R28: a START while BUSY = 1 does nothing; R105: reserved and internal selectors. -/
theorem test_start :
    (afterStep { withChip [0x01] with host := [.start 0x23 []] } (fun t => t.stat == 0x01 && t.op == some .status && t.ok) &&
    afterStep { State.reset with busy := true, host := [.start 0x23 []] } (fun t => t.trace == [] && t.busy && t.op == none) &&
    afterStep { State.reset with host := [.start 0x3C []] } (failedWith .refused 1) &&
    afterStep { State.reset with host := [.start 0x20 []] } (fun t => t.trace == [] && failedWith .refused 2 t)) = true := by
  decide +kernel

/-- R38, R39, R61, R82. -/
theorem test_host_writes :
    (afterStep { State.reset with host := [.setBudget 0x001E] } (fun t => t.budget == 30) &&
    afterStep { State.reset with host := [.setMode 0xFF] } (fun t => t.mode == 0x03) &&
    afterStep { State.reset with host := [.writeBuf 63 0xAB] } (fun t => t.bufByte 63 == 0xAB && t.buf.length == 1) &&
    afterStep { State.reset with host := [.writeBuf 64 0xAB] } (fun t => t.buf == [] && failedWith .refused 4 t)) = true := by
  decide +kernel

/-- R74, R108: READ; ERR as R32 numbers it. -/
theorem test_host_read :
    (afterStep { State.reset with budget := 7, host := [.read .budget] } (fun t => t.hostData == some (.number 7)) &&
    afterStep { State.reset with host := [.read .op] } (fun t => t.hostData == some .noOperation) &&
    afterStep { State.reset with err := .operationRejected, host := [.read .err] } (fun t => t.hostData == some (.number 4)) &&
    afterStep { State.reset with op := some .rdbyte, shr := 0xA5, host := [.read .shr] } (fun t =>
      t.hostData == some (.number 0xA5))) = true := by decide +kernel

/-- R80, R24: the moves the spec gives the HOST no right to. -/
theorem test_host_faults :
    step { State.reset with busy := true, host := [.setBudget 1] } = .fault .hostAccessWhileBusy ∧
    step { State.reset with host := [.read .shr] } = .fault .shrNotReadable ∧
    step { State.reset with host := [.start 0x22 []] } = .refused .malformedOperands := ⟨rfl, rfl, rfl⟩

/-- R52, R260: RESET after a step that changed things. -/
theorem test_reset :
    afterStep { State.reset with budget := 7, mode := 2, busy := true, sel := true, trace := [.sel true], buf := [(3, 9)], host := [.reset] }
      (fun t => t.budget == 1000 && t.mode == 1 && t.trace == [] && t.buf == [] && !t.sel && !t.busy && t.clk && t.epoch == 1) = true := by
  decide +kernel

/-- The instruction a table word names, fetched and run. -/
theorem test_withFetchWord :
    decodeTableWord 8 0x24 = some .waitrdy ∧
    afterStep ((withChip [0x01]).withFetchWord 8 0x24) (fun t => t.op == some .waitrdy && t.ok) = true := by decide +kernel

/-! ### Witnesses: a concrete state and operands that meet all the hypotheses of each statement, one for each of its clauses

A bound of a range is met at its boundary value where the statement has one. -/

/-- Ready at once, answered, ready at once, and this response. -/
def ready0 (response : List Byte) : State := withChip (answer response)

/-- One not-ready poll before each READY, and a command staged in BUF. -/
def ready1 (response : List Byte) : State := { withChip (lateAnswer response) with buf := [(0, 0x02)] }

/-- The smallest budget, and a CHIP that is not ready at the only poll. -/
def neverReady : State := { withChip [0x00] with budget := 9 }

/-- The budget of one wait, and a CHIP that is not ready at either of the two polls. -/
def neverReady2 : State := { withChip [0x00, 0x00] with budget := 10 }

/-- Acknowledged after one wait, then never ready. -/
def stuckAfterAck : State := { withChip [0x00, 0x01, 0x00, 0x00, 0xFF, 0x00, 0xFF, 0x00, 0x00, 0x00] with budget := 10 }

/-- A response with ECHO_DATAEX and this status. -/
def dataexResponse (echo status : Byte) : List Byte :=
  [0x00, 0x00, 0xFF, 0x13, 0xED, 0xD5, echo, status] ++ List.replicate 16 0xB0

/-- The HOST's program is this one action. -/
def withAction (a : HostAction) : State := { State.reset with host := [a] }

theorem witness_DecodeOfEncode :
    (Instr.rdvar).wf = true ∧ (Instr.wrreg 0xFFFF 0xFF).wf = true ∧ (Instr.auth 0 0 0 [1, 2, 3, 4, 5, 6] 0xFFFFFFFF).wf = true ∧
    (Instr.encode []).wf = true := by decide

theorem witness_EncodeOfDecode : decode [0x2A, 0xFF, 0x77] = .op (.xchgv 0xFF) [0x77] := by decide

theorem witness_StepRunsStartedOperation :
    ((withAction (.start 0x22 [0x26, 0x00])).busy = false ∧
      (withAction (.start 0x22 [0x26, 0x00])).host = .start 0x22 [0x26, 0x00] :: [] ∧
      decode (0x22 :: [0x26, 0x00]) = .op (.wrframe 38) [0x00] ∧ (Instr.wrframe 38).name.startable = true) ∧
    State.reset.host = [] := by decide

theorem witness_StartWhileBusyIgnored :
    ({ withAction (.start 0x30 []) with busy := true } : State).busy = true ∧
    ({ withAction (.start 0x30 []) with busy := true } : State).host = .start 0x30 [] :: [] ∧ (Instr.getfw).name.startable = true := by
  decide

theorem witness_UnstartableOpselRefused :
    ((withAction (.start 0x02 [])).busy = false ∧ (withAction (.start 0x02 [])).sel = false ∧
      (withAction (.start 0x02 [])).tstate.inFlight = false ∧ (withAction (.start 0x02 [])).host = .start 0x02 [] :: [] ∧
      ∀ n : OpName, n.opsel ≠ 0x02) ∧
    ((withAction (.start 0x21 [])).host = .start 0x21 [] :: [] ∧ ∃ n : OpName, n.opsel = 0x21 ∧ n.startable = false) := by
  refine ⟨⟨rfl, rfl, rfl, rfl, ?_⟩, rfl, .deselect, rfl, rfl⟩
  intro n; cases n <;> decide

theorem witness_SetBudgetAndMode :
    (withAction (.setBudget 0xFFFF)).busy = false ∧ (withAction (.setBudget 0xFFFF)).host = .setBudget 0xFFFF :: [] ∧
    (withAction (.setMode 0xFC)).host = .setMode 0xFC :: [] := by decide

theorem witness_HostWritesBuf :
    ((withAction (.writeBuf 63 1)).busy = false ∧ (withAction (.writeBuf 63 1)).host = .writeBuf 63 1 :: [] ∧
      63 < (withAction (.writeBuf 63 1)).cfg.bufsz) ∧
    ((withAction (.writeBuf 64 1)).host = .writeBuf 64 1 :: [] ∧ (withAction (.writeBuf 64 1)).cfg.bufsz ≤ 64) := by decide

/-- BUF's last byte, SHR after an RDBYTE, TSTATE while an operation runs; BUF past its end; SHR of no RDBYTE; RCOUNT while BUSY = 1. -/
theorem witness_HostReadsHaveNoSideEffect :
    ((withAction (.read (.buf 63))).busy = false ∧ (withAction (.read (.buf 63))).host = .read (.buf 63) :: [] ∧
      63 < (withAction (.read (.buf 63))).cfg.bufsz) ∧
    (let s := { withAction (.read .shr) with op := some .rdbyte };
      s.busy = false ∧ s.host = .read .shr :: [] ∧ s.op = some .rdbyte) ∧
    (let s := { withAction (.read .tstate) with busy := true, op := some .waitrdy };
      s.busy = true ∧ s.host = .read .tstate :: [] ∧ (HostReg.tstate ≠ .shr ∧ ∀ i : Nat, HostReg.tstate ≠ .buf i)) ∧
    (let s := withAction (.read (.buf 64));
      s.host = .read (.buf 64) :: [] ∧ s.cfg.bufsz ≤ 64 ∧ s.busy = false ∧ s.sel = false ∧ s.tstate.inFlight = false) ∧
    (let s := withAction (.read .shr); s.host = .read .shr :: [] ∧ s.busy = false ∧ s.op ≠ some .rdbyte) ∧
    (let s := { withAction (.read .rcount) with busy := true };
      s.host = .read .rcount :: [] ∧ s.busy = true ∧ HostReg.rcount ≠ .busy ∧ HostReg.rcount ≠ .op ∧ HostReg.rcount ≠ .tstate) :=
  ⟨by decide, by decide, ⟨rfl, rfl, nofun, nofun⟩, by decide, by decide, by decide⟩

theorem witness_StopsOnlyAtTheHostPort :
    step (withAction (.start 0x26 [])) = .refused .malformedOperands ∧
    step { withAction (.read .rcount) with busy := true } = .fault .hostAccessWhileBusy ∧
    step (withAction (.read .shr)) = .fault .shrNotReadable := ⟨rfl, rfl, rfl⟩

theorem witness_ResetAction :
    ({ withAction .reset with busy := true } : State).host = .reset :: [] ∧ (withAction .reset).host = .reset :: [] := by decide

theorem witness_InvariantKeptByEveryStep :
    State.Inv { withAction (.setMode 0xFF) with mode := 3, budget := 0xFFFF, elapsed := 65545, buf := [(0, 1), (63, 2)] } ∧
    ∃ t, step { withAction (.setMode 0xFF) with mode := 3, budget := 0xFFFF, elapsed := 65545, buf := [(0, 1), (63, 2)] } =
      .next t :=
  ⟨by decide, _, rfl⟩

theorem witness_LinesFollowHistoryAtEveryStep :
    (withAction (.start 0x23 [])).Inv ∧ (withAction (.start 0x23 [])).LinesOk ∧ ∃ t, step (withAction (.start 0x23 [])) = .next t :=
  ⟨by decide, by decide, _, rfl⟩

theorem witness_EveryOperationEnds : (Instr.p2ptgt).name.startable = true ∧ State.reset.Quiescent := by decide

theorem witness_ResultRegistersWrittenOnlyByTheirOperations :
    (Instr.rdvar).name.startable = true ∧ (Instr.getfw).name.startable = true ∧ (Instr.getfw).name ≠ .listpt ∧
    (Instr.getfw).name ≠ .rdblk ∧ (Instr.getfw).name ≠ .p2piex ∧ (Instr.getfw).name ≠ .p2ptrs ∧ (Instr.getfw).name ≠ .rdreg ∧
    (Instr.getfw).name ≠ .rdvar ∧ (Instr.getfw).name ≠ .xchgv ∧ (Instr.rdvar).name ≠ .getfw ∧ (Instr.rdvar).name ≠ .listpt := by
  decide

theorem witness_WrbyteEffect : State.reset.busy = false := by decide

theorem witness_RdbyteEffect : State.reset.busy = false := by decide

theorem witness_EncodeEffect :
    (1 ≤ [(0x02 : Byte)].length ∧ [(0x02 : Byte)].length ≤ 254) ∧
    (1 ≤ (List.replicate 254 (0x55 : Byte)).length ∧ (List.replicate 254 (0x55 : Byte)).length ≤ 254) := by
  simp only [List.length_replicate]; decide

theorem witness_BytesOnTheWire : State.reset.busy = false := by decide

/-- ENCODE of no byte and of 255; a header in neither layout, by its second byte and by QUIRK = 0; frames for each reason DECODE gives
(those of test_decodeFrame and a short one); a CHIP that is not ready at either poll. -/
theorem witness_RaiseTakesTheFailureExit :
    (([] : List Byte).length = 0 ∨ 254 < ([] : List Byte).length) ∧
    ((List.replicate 255 (0 : Byte)).length = 0 ∨ 254 < (List.replicate 255 (0 : Byte)).length) ∧
    (¬ ((0x00 : Byte) = State.reset.cfg.pre ∧ (0xFE : Byte) = State.reset.cfg.pre ∧ (0xFF : Byte) = State.reset.cfg.start) ∧
      ¬ ((0x00 : Byte) = State.reset.cfg.pre ∧ (0xFE : Byte) = State.reset.cfg.start ∧ State.reset.mode.getLsbD 0 = true)) ∧
    (let s := { State.reset with mode := 0 };
      ¬ ((0x00 : Byte) = s.cfg.pre ∧ (0xFF : Byte) = s.cfg.pre ∧ (0x06 : Byte) = s.cfg.start) ∧
      ¬ ((0x00 : Byte) = s.cfg.pre ∧ (0xFF : Byte) = s.cfg.start ∧ s.mode.getLsbD 0 = true)) ∧
    (let s := State.reset;
      let reason : List Byte → Option Byte := fun f =>
        if f.length < 9 then some 1
        else if ¬ (byteAt f 0 = s.cfg.pre ∧ byteAt f 1 = s.cfg.pre ∧ byteAt f 2 = s.cfg.start) then some 1
        else if (byteAt f 3).toNat < 2 ∨ f.length ≠ (byteAt f 3).toNat + 7 then some 2
        else if ¬ (((byteAt f 3).toNat + (byteAt f 4).toNat) % 256 = 0 ∧
            byteSum (slice f 5 ((byteAt f 3).toNat + 1)) % 256 = 0) then some 3
        else if byteAt f (6 + (byteAt f 3).toNat) ≠ s.cfg.post then some 1
        else none;
      reason [0x00, 0x00, 0xFF] = some 1 ∧
      reason [0x00, 0x00, 0xFE, 0x02, 0xFE, 0xD4, 0x02, 0x2A, 0x00] = some 1 ∧
      reason [0x00, 0x00, 0xFF, 0x03, 0xFD, 0xD5, 0x41, 0x00, 0xEA] = some 2 ∧
      reason [0x00, 0x00, 0xFF, 0x02, 0xFE, 0xD4, 0x02, 0x2B, 0x00] = some 3 ∧
      reason [0x00, 0x00, 0xFF, 0x02, 0xFE, 0xD4, 0x02, 0x2A, 0x01] = some 1) ∧
    (neverReady2.busy = false ∧ neverReady2.cfg.Ok ∧ ∀ j ≤ neverReady2.maxWaits, neverReady2.chip j ≠ neverReady2.cfg.ready) := by
  simp only [List.length_replicate]
  refine ⟨?_, ?_, ?_, ?_, ?_, ?_⟩ <;> decide +kernel

theorem witness_FrameRoundTrip : 1 ≤ [(0xD4 : Byte), 0xFF].length ∧ [(0xD4 : Byte), 0xFF].length ≤ 254 := by decide

/-- The full layout, the short one with QUIRK = 1, and neither because QUIRK = 0. -/
theorem witness_DeclenEffect :
    ((0x00 : Byte) = State.reset.cfg.pre ∧ (0x00 : Byte) = State.reset.cfg.pre ∧ (0xFF : Byte) = State.reset.cfg.start) ∧
    (¬ ((0x00 : Byte) = State.reset.cfg.pre ∧ (0xFF : Byte) = State.reset.cfg.pre ∧ (0x06 : Byte) = State.reset.cfg.start) ∧
      ((0x00 : Byte) = State.reset.cfg.pre ∧ (0xFF : Byte) = State.reset.cfg.start) ∧ State.reset.mode.getLsbD 0 = true) ∧
    ¬ ((0x00 : Byte) = State.reset.cfg.pre ∧ (0xFF : Byte) = State.reset.cfg.start ∧
      ({ State.reset with mode := 0 } : State).mode.getLsbD 0 = true) := by decide

theorem witness_ValidateEffect : (2 : Nat) = (if true then 2 else 3) ∧ (3 : Nat) = (if false then 2 else 3) := by decide

theorem witness_WrframeEffect :
    (State.reset.busy = false ∧ State.reset.cfg.Ok ∧ 1 ≤ (1 : Byte).toNat ∧ (1 : Byte).toNat ≤ State.reset.cfg.cmdmax) ∧
    (1 ≤ (38 : Byte).toNat ∧ (38 : Byte).toNat ≤ State.reset.cfg.cmdmax) := by decide

theorem witness_BadLengthsRefused :
    (State.reset.busy = false ∧ State.reset.sel = false ∧ State.reset.tstate.inFlight = false) ∧
    ((0 : Byte).toNat < 1 ∨ State.reset.cfg.cmdmax < (0 : Byte).toNat) ∧
    ((39 : Byte).toNat < 1 ∨ State.reset.cfg.cmdmax < (39 : Byte).toNat) ∧ State.reset.cfg.bufsz < (65 : Byte).toNat := by decide

theorem witness_StatusEffect : (withChip [0xFF]).busy = false := by decide

/-- Ready at the first poll; ready at the last poll the budget pays for; not ready at that one. -/
theorem witness_WaitrdyEffect :
    (State.reset.busy = false ∧ State.reset.cfg.Ok ∧ State.reset.tstate.inFlight = false) ∧
    ReadyAfter (withChip [0x01]) 0 0 ∧ ReadyAfter { withChip [0x00, 0x01] with budget := 10 } 0 1 ∧
    (∀ j ≤ neverReady2.maxWaits, neverReady2.chip j ≠ neverReady2.cfg.ready) := by decide +kernel

/-- The acknowledgement, one that differs in its last byte, one that differs in its first. -/
theorem witness_RdackEffect :
    (State.reset.busy = false ∧ State.reset.tstate.inFlight = false) ∧
    (withChip [0x00, 0x00, 0xFF, 0x00, 0xFF, 0x00]).chipBytes 0 6 = State.reset.cfg.ack.toList ∧
    ((withChip [0x00, 0x00, 0xFF, 0x00, 0xFF, 0x01]).chip (5 : Fin 6) ≠ State.reset.cfg.ack[(5 : Fin 6)] ∧
      ∀ i : Fin 6, i < 5 → (withChip [0x00, 0x00, 0xFF, 0x00, 0xFF, 0x01]).chip i = State.reset.cfg.ack[i]) ∧
    ((withChip [0x01]).chip (0 : Fin 6) ≠ State.reset.cfg.ack[(0 : Fin 6)] ∧
      ∀ i : Fin 6, i < 0 → (withChip [0x01]).chip i = State.reset.cfg.ack[i]) := by decide +kernel

theorem witness_RdfixEffect :
    State.reset.busy = false ∧ (0 : Byte).toNat ≤ State.reset.cfg.bufsz ∧ (64 : Byte).toNat ≤ State.reset.cfg.bufsz := by decide

/-- No layout; a length past BUFSZ; a frame that does not validate with STRICT = 1; one that is accepted. -/
theorem witness_RdvarEffect :
    (State.reset.busy = false ∧ State.reset.cfg.Ok ∧ State.reset.tstate.inFlight = false) ∧
    responseLayout State.reset.cfg false ((withChip [0x00, 0xFF, 0x06, 0xFA, 0xD5]).chipBytes 0 5) = none ∧
    (responseLayout State.reset.cfg true ((withChip [0x00, 0x00, 0xFF, 0x3A, 0xC6]).chipBytes 0 5) = some (false, 65) ∧
      State.reset.cfg.bufsz < 65) ∧
    (responseLayout State.reset.cfg true ((withChip [0x00, 0x00, 0xFF, 0x39, 0xC7]).chipBytes 0 5) = some (false, 64) ∧
      ¬ State.reset.cfg.bufsz < 64) ∧
    (({ State.reset with mode := 2 } : State).mode.getLsbD 1 = true ∧
      validFrame ((withChip [0x00, 0x00, 0xFF, 0x03, 0xFD, 0xD5, 0x41, 0x01, 0xEA, 0x00]).chipBytes 0 10) false = false) := by
  decide +kernel

theorem witness_SendcmdEffect :
    ((ready1 []).busy = false ∧ (ready1 []).cfg.Ok ∧ 1 ≤ (38 : Byte).toNat ∧ (38 : Byte).toNat ≤ (ready1 []).cfg.cmdmax ∧
      Answered (ready1 []) 0 1 1) ∧ Answered (ready0 []) 0 0 0 := by decide +kernel

theorem witness_XchgfEffect :
    (ready1 []).busy = false ∧ (ready1 []).cfg.Ok ∧ 1 ≤ (38 : Byte).toNat ∧ (38 : Byte).toNat ≤ (ready1 []).cfg.cmdmax ∧
    (64 : Byte).toNat ≤ (ready1 []).cfg.bufsz ∧ Answered (ready1 []) 0 1 1 := by decide +kernel

theorem witness_XchgvEffect :
    let s := { ready0 [0x00, 0xFF, 0x03, 0xFD, 0xD5, 0x41, 0x00, 0xEA, 0x00, 0x77] with mode := 3 };
    s.busy = false ∧ s.cfg.Ok ∧ 1 ≤ (1 : Byte).toNat ∧ (1 : Byte).toNat ≤ s.cfg.cmdmax ∧ Answered s 0 0 0 ∧
    responseLayout s.cfg (s.mode.getLsbD 0) (s.chipBytes 8 5) = some (true, 10) ∧ 10 ≤ s.cfg.bufsz ∧
    (s.mode.getLsbD 1 = true → validFrame (s.chipBytes 8 10) true = true) := by decide +kernel

theorem witness_XchgvRejectedResponse :
    ((ready0 [0x00, 0xFE, 0x06, 0xFA, 0xD5]).busy = false ∧ (ready0 [0x00, 0xFE, 0x06, 0xFA, 0xD5]).cfg.Ok ∧
      1 ≤ (38 : Byte).toNat ∧ (38 : Byte).toNat ≤ State.reset.cfg.cmdmax ∧ Answered (ready0 [0x00, 0xFE, 0x06, 0xFA, 0xD5]) 0 0 0 ∧
      responseLayout State.reset.cfg true ((ready0 [0x00, 0xFE, 0x06, 0xFA, 0xD5]).chipBytes 8 5) = none) ∧
    (Answered (ready0 [0x00, 0x00, 0xFF, 0x3A, 0xC6]) 0 0 0 ∧
      responseLayout State.reset.cfg true ((ready0 [0x00, 0x00, 0xFF, 0x3A, 0xC6]).chipBytes 8 5) = some (false, 65) ∧
      State.reset.cfg.bufsz < 65) ∧
    (let s := { ready0 [0x00, 0x00, 0xFF, 0x03, 0xFD, 0xD5, 0x41, 0x01, 0xEA, 0x00] with mode := 2 };
      Answered s 0 0 0 ∧ responseLayout s.cfg (s.mode.getLsbD 0) (s.chipBytes 8 5) = some (false, 10) ∧ 10 ≤ s.cfg.bufsz ∧
      s.mode.getLsbD 1 = true ∧ validFrame (s.chipBytes 8 10) false = false) := by
  refine ⟨?_, ?_, ?_⟩ <;> decide +kernel

/-- Never ready; the acknowledgement wrong in its first byte after a wait; acknowledged and then never ready. -/
theorem witness_ExchangeFailures :
    (neverReady.busy = false ∧ neverReady.cfg.Ok ∧ 1 ≤ (1 : Byte).toNat ∧ (1 : Byte).toNat ≤ neverReady.cfg.cmdmax ∧
      (64 : Byte).toNat ≤ neverReady.cfg.bufsz ∧ ∀ j ≤ neverReady.maxWaits, neverReady.chip j ≠ neverReady.cfg.ready) ∧
    (ReadyAfter (withChip [0x00, 0x01, 0x07]) 0 1 ∧
      (withChip [0x00, 0x01, 0x07]).chip (1 + 1 + (0 : Fin 6)) ≠ State.reset.cfg.ack[(0 : Fin 6)] ∧
      ∀ k : Fin 6, k < 0 → (withChip [0x00, 0x01, 0x07]).chip (1 + 1 + k) = State.reset.cfg.ack[k]) ∧
    (ReadyAfter stuckAfterAck 0 1 ∧ stuckAfterAck.chipBytes (1 + 1) 6 = stuckAfterAck.cfg.ack.toList ∧
      ∀ j ≤ stuckAfterAck.maxWaits, stuckAfterAck.chip (1 + 7 + j) ≠ stuckAfterAck.cfg.ready) := by decide +kernel

theorem witness_PhasesByHandEqualExchange :
    (ready1 []).busy = false ∧ (ready1 []).cfg.Ok ∧ 1 ≤ (1 : Byte).toNat ∧ (1 : Byte).toNat ≤ (ready1 []).cfg.cmdmax ∧
    (0 : Byte).toNat ≤ (ready1 []).cfg.bufsz ∧ Answered (ready1 []) 0 1 1 := by decide +kernel

/-- The signature, after a wait in each phase; the same response in the full layout, which fails it. -/
theorem witness_GetfwEffect :
    (let s := ready1 [0x00, 0xFF, 0x06, 0xFA, 0xD5, 0x03, 0x32, 0x01, 0x06, 0x07, 0xE8, 0x00];
      s.busy = false ∧ s.cfg.Ok ∧ Answered s 0 1 1 ∧ s.chipBytes (1 + 1 + 8) 6 = s.cfg.fwsig.toList) ∧
    (let s := ready0 [0x00, 0x00, 0xFF, 0x06, 0xFA, 0xD5];
      s.busy = false ∧ s.cfg.Ok ∧ Answered s 0 0 0 ∧ s.chipBytes (0 + 0 + 8) 6 ≠ s.cfg.fwsig.toList) := by
  refine ⟨?_, ?_⟩ <;> decide +kernel

/-- An RDREG the CHIP answers; one that times out; a WRBYTE. -/
theorem witness_RegvalWrittenByRdregOnSuccess :
    (let s := ready1 [0x5A]; s.busy = false ∧ s.cfg.Ok ∧ s.cfg.rdregOff = 0 ∧ Answered s 0 1 1) ∧
    (neverReady.busy = false ∧ neverReady.cfg.Ok ∧ neverReady.cfg.rdregOff = 0 ∧
      after (.rdreg 0x6302) neverReady (fun t => !t.ok) = true) ∧
    (after (.wrbyte 1) neverReady (fun _ => true) = true ∧ (Instr.wrbyte 1).name ≠ .rdreg) := by
  refine ⟨?_, ?_, ?_⟩ <;> decide +kernel

theorem witness_SamcfgAccepted :
    let s := ready1 [0x00, 0xFF, 0x02, 0xFE, 0xD5, 0x15, 0x16, 0x00];
    s.busy = false ∧ s.cfg.Ok ∧ Answered s 0 1 1 ∧ s.chip (1 + 1 + 13) = s.cfg.samOk := by decide +kernel

/-- The longest ID that fits, L = 51, so 13 + L = BUFSZ; no target; one whose ID is a byte too long. -/
theorem witness_ListptEffect :
    (let s := ready1 [0x00, 0x00, 0xFF, 0x0C, 0xF4, 0xD5, 0x4B, 0x01, 0x01, 0x00, 0x04, 0x08, 0x33, 0x04, 0x00, 0x01, 0x02, 0xC7, 0x00, 0xEE];
      let buf := s.bufAfter [s.cfg.opcListpt, s.cfg.listMaxtg, 0xFF] s.cfg.rlenListpt (1 + 1 + 8);
      s.busy = false ∧ s.cfg.Ok ∧ Answered s 0 1 1 ∧ buf 7 = 1 ∧ ¬ s.cfg.bufsz < 13 + (buf 12).toNat) ∧
    (let s := ready0 [0x00, 0x00, 0xFF, 0x0C, 0xF4, 0xD5, 0x4B, 0x00];
      let buf := s.bufAfter [s.cfg.opcListpt, s.cfg.listMaxtg, 0] s.cfg.rlenListpt (0 + 0 + 8);
      s.busy = false ∧ s.cfg.Ok ∧ Answered s 0 0 0 ∧ buf 7 ≠ 1) ∧
    (let s := ready0 [0x00, 0x00, 0xFF, 0x0C, 0xF4, 0xD5, 0x4B, 0x01, 0x01, 0x00, 0x04, 0x08, 0x34];
      let buf := s.bufAfter [s.cfg.opcListpt, s.cfg.listMaxtg, 0] s.cfg.rlenListpt (0 + 0 + 8);
      s.busy = false ∧ s.cfg.Ok ∧ Answered s 0 0 0 ∧ buf 7 = 1 ∧ s.cfg.bufsz < 13 + (buf 12).toNat) := by
  refine ⟨?_, ?_, ?_⟩ <;> decide +kernel

theorem witness_EightCellsPerByte : State.reset.busy = false := by decide

theorem witness_AuthAccepted :
    let s := ready1 (dataexResponse 0x41 0x00);
    s.busy = false ∧ s.cfg.Ok ∧ Answered s 0 1 1 ∧ s.chip (1 + 1 + 14) = s.cfg.echoDataex ∧ s.chip (1 + 1 + 15) = 0 := by
  decide +kernel

theorem witness_RdblkReadsBlock :
    let s := ready0 (dataexResponse 0x41 0x00);
    s.busy = false ∧ s.cfg.Ok ∧ Answered s 0 0 0 ∧ s.chip (0 + 0 + 14) = s.cfg.echoDataex ∧ s.chip (0 + 0 + 15) = 0 := by
  decide +kernel

theorem witness_WrblkAccepted :
    let s := ready0 (dataexResponse 0x41 0x00);
    (List.replicate 16 (0xA0 : Byte)).length = 16 ∧ s.busy = false ∧ s.cfg.Ok ∧ Answered s 0 0 0 ∧
    s.chip (0 + 0 + 14) = s.cfg.echoDataex ∧ s.chip (0 + 0 + 15) = 0 := by decide +kernel

theorem witness_P2piniAccepted :
    let s := ready0 (dataexResponse 0x57 0x00);
    s.busy = false ∧ s.cfg.Ok ∧ Answered s 0 0 0 ∧ s.chip (0 + 0 + 15) = 0 := by decide +kernel

theorem witness_P2piexExchanges :
    let s := ready1 (dataexResponse 0xFF 0x00);
    (List.replicate 16 (0x10 : Byte)).length = 16 ∧ s.busy = false ∧ s.cfg.Ok ∧ Answered s 0 1 1 ∧ s.chip (1 + 1 + 15) = 0 := by
  decide +kernel

theorem witness_P2ptgtAccepted :
    let s := ready0 (List.replicate 23 9 ++ [0x00]);
    s.busy = false ∧ s.cfg.Ok ∧ Answered s 0 0 0 ∧ s.chip (0 + 0 + 31) = 0 := by decide +kernel

theorem witness_P2ptrsExchangesBothLegs :
    let s := withChip (answer (dataexResponse 0x87 0x00) ++ lateAnswer [0x00, 0x00, 0xFF, 0x03, 0xFD, 0xD5, 0x8F, 0x00]);
    let u := s.afterExchange [s.cfg.opcTgget] s.cfg.rlenTgget 0 0;
    (List.replicate 16 (0x10 : Byte)).length = 16 ∧ s.busy = false ∧ s.cfg.Ok ∧ Answered s 0 0 0 ∧ s.chip (0 + 0 + 15) = 0 ∧
    Answered u 0 1 1 ∧ u.chip (1 + 1 + 15) = 0 := by decide +kernel

/-- The receive leg rejected; the send leg rejected; the send leg never ready; its acknowledgement wrong in the last byte; acknowledged
and then never ready. -/
theorem witness_P2ptrsRejections :
    (let s := withChip (answer (dataexResponse 0x87 0x29));
      (List.replicate 16 (0x10 : Byte)).length = 16 ∧ s.busy = false ∧ s.cfg.Ok ∧ Answered s 0 0 0 ∧ s.chip (0 + 0 + 15) ≠ 0) ∧
    (let s := withChip (answer (dataexResponse 0x87 0x00) ++ answer [0x00, 0x00, 0xFF, 0x03, 0xFD, 0xD5, 0x8F, 0x01]);
      let u := s.afterExchange [s.cfg.opcTgget] s.cfg.rlenTgget 0 0;
      s.busy = false ∧ s.cfg.Ok ∧ Answered s 0 0 0 ∧ s.chip (0 + 0 + 15) = 0 ∧ Answered u 0 0 0 ∧ u.chip (0 + 0 + 15) ≠ 0) ∧
    (let s := { withChip (answer (dataexResponse 0x87 0x00) ++ [0x00, 0x00]) with budget := 10 };
      let u := s.afterExchange [s.cfg.opcTgget] s.cfg.rlenTgget 0 0;
      s.busy = false ∧ s.cfg.Ok ∧ Answered s 0 0 0 ∧ s.chip (0 + 0 + 15) = 0 ∧ ∀ j ≤ s.maxWaits, u.chip j ≠ s.cfg.ready) ∧
    (let s := withChip (answer (dataexResponse 0x87 0x00) ++ [0x01, 0x00, 0x00, 0xFF, 0x00, 0xFF, 0x01]);
      let u := s.afterExchange [s.cfg.opcTgget] s.cfg.rlenTgget 0 0;
      s.busy = false ∧ s.cfg.Ok ∧ Answered s 0 0 0 ∧ s.chip (0 + 0 + 15) = 0 ∧ ReadyAfter u 0 0 ∧
      u.chip (0 + 1 + (5 : Fin 6)) ≠ s.cfg.ack[(5 : Fin 6)] ∧ ∀ m : Fin 6, m < 5 → u.chip (0 + 1 + m) = s.cfg.ack[m]) ∧
    (let s := { withChip (answer (dataexResponse 0x87 0x00) ++ [0x01, 0x00, 0x00, 0xFF, 0x00, 0xFF, 0x00, 0x00, 0x00]) with budget := 10 };
      let u := s.afterExchange [s.cfg.opcTgget] s.cfg.rlenTgget 0 0;
      s.busy = false ∧ s.cfg.Ok ∧ Answered s 0 0 0 ∧ s.chip (0 + 0 + 15) = 0 ∧ ReadyAfter u 0 0 ∧
      u.chipBytes (0 + 1) 6 = s.cfg.ack.toList ∧ ∀ j ≤ s.maxWaits, u.chip (0 + 7 + j) ≠ s.cfg.ready) := by
  refine ⟨?_, ?_, ?_, ?_, ?_⟩ <;> decide +kernel

theorem witness_RdregReadsByte :
    let s := ready1 [0x5A];
    s.busy = false ∧ s.cfg.Ok ∧ Answered s 0 1 1 ∧ s.cfg.rdregOff = 0 := by decide +kernel

theorem witness_WrregAcknowledged : (ready0 []).busy = false ∧ (ready0 []).cfg.Ok ∧ Answered (ready0 []) 0 0 0 := by decide +kernel

/-- What the statement's match asks, for a status byte 7 or 23 or an echo byte 6 that fails; one state for each family of tests. -/
theorem witness_RejectedResponses :
    (let s := ready0 [0, 0, 0, 0, 0, 0xD5];
      (Instr.samcfg).wf = true ∧ catalogCommand s.cfg .samcfg = some [0x14, 0x01, 0x14, 0x01] ∧ s.busy = false ∧ s.cfg.Ok ∧
      Answered s 0 0 0 ∧ s.chip (0 + 0 + 13) ≠ s.cfg.samOk) ∧
    (let s := ready0 (dataexResponse 0x4B 0x00);
      (Instr.rdblk 1 4).wf = true ∧ catalogCommand s.cfg (.rdblk 1 4) = some [0x40, 1, 0x30, 4] ∧ Answered s 0 0 0 ∧
      (Instr.auth 1 0x60 4 [1, 2, 3, 4, 5, 6] 0).wf = true ∧ (catalogCommand s.cfg (.auth 1 0x60 4 [1, 2, 3, 4, 5, 6] 0)).isSome = true ∧
      (Instr.wrblk 1 4 (List.replicate 16 0)).wf = true ∧ (catalogCommand s.cfg (.wrblk 1 4 (List.replicate 16 0))).isSome = true ∧
      s.chip (0 + 0 + 14) ≠ s.cfg.echoDataex) ∧
    (let s := ready0 (dataexResponse 0x41 0x01);
      Answered s 0 0 0 ∧ s.chip (0 + 0 + 14) = s.cfg.echoDataex ∧ s.chip (0 + 0 + 15) ≠ 0 ∧
      (Instr.p2pini 2).wf = true ∧ (catalogCommand s.cfg (.p2pini 2)).isSome = true ∧
      (Instr.p2piex (List.replicate 16 0)).wf = true ∧ (catalogCommand s.cfg (.p2piex (List.replicate 16 0))).isSome = true) ∧
    (let s := ready0 (List.replicate 23 9 ++ [0x25]);
      (Instr.p2ptgt).wf = true ∧ (catalogCommand s.cfg .p2ptgt).isSome = true ∧ Answered s 0 0 0 ∧ s.chip (0 + 0 + 8 + 23) ≠ 0) := by
  refine ⟨?_, ?_, ?_, ?_⟩ <;> decide +kernel

/-- Never ready; the acknowledgement wrong in its last byte; acknowledged and then never ready. -/
theorem witness_CatalogFailuresShortCircuit :
    ((Instr.getfw).wf = true ∧ catalogCommand neverReady.cfg .getfw = some [0x02] ∧ neverReady.busy = false ∧ neverReady.cfg.Ok ∧
      ∀ j ≤ neverReady.maxWaits, neverReady.chip j ≠ neverReady.cfg.ready) ∧
    (let s := withChip [0x01, 0x00, 0x00, 0xFF, 0x00, 0xFF, 0x01];
      ReadyAfter s 0 0 ∧ s.chip (0 + 1 + (5 : Fin 6)) ≠ s.cfg.ack[(5 : Fin 6)] ∧
      ∀ m : Fin 6, m < 5 → s.chip (0 + 1 + m) = s.cfg.ack[m]) ∧
    (ReadyAfter stuckAfterAck 0 1 ∧ stuckAfterAck.chipBytes (1 + 1) 6 = stuckAfterAck.cfg.ack.toList ∧
      ∀ j ≤ stuckAfterAck.maxWaits, stuckAfterAck.chip (1 + 7 + j) ≠ stuckAfterAck.cfg.ready) := by
  refine ⟨?_, ?_, ?_⟩ <;> decide +kernel

end Sys2Proof.Tests
end

section
/-! PROOFS. The host port and reset: what a step does with the HOST's next action, a START, SET BUDGET or SET MODE; the values of
R52. -/

namespace Sys2Proof.Machine

theorem step_nil {s : State} (h : s.host = []) : step s = .next s := by simp only [step, hostNext, h]

/-- A step takes the first of the HOST's actions, and does it. -/
theorem step_cons {s : State} {a : HostAction} {rest : List HostAction} (h : s.host = a :: rest) :
    step s = hostAct a { s with host := rest } := by simp only [step, hostNext, h]

theorem hostStart_busy {opsel : Byte} {operands : List Byte} {s : State} (hb : s.busy = true) :
    hostStart opsel operands s = .next s := if_pos hb

/-- A START whose bytes decode to an operation the HOST may start (R28, R73). -/
theorem hostStart_decoded {opsel : Byte} {operands extra : List Byte} {i : Instr} {s : State} (hb : s.busy = false)
    (hd : decode (opsel :: operands) = .op i extra) (hi : i.name.startable = true) :
    hostStart opsel operands s = exec i s := by
  have hn : OpName.ofOpsel opsel = some i.name := by
    rw [← (decode_op hd).1]
    exact OpName.ofOpsel_opsel i.name
  simp only [hostStart, hb, hn, hi, hd, if_true, Bool.false_eq_true, if_false]

theorem hostWrite_idle {s : State} (hb : s.busy = false) (t : State) : hostWrite t s = .next t := by
  simp only [hostWrite, hb, Bool.false_eq_true, if_false]

/-- MODE keeps bits 1:0 of what is written to it (R39). -/
theorem modeWritten_getLsbD (v : Byte) (k : Nat) : (modeWritten v).getLsbD k = (decide (k < 2) && v.getLsbD k) := by
  have h3 : (0x03 : Byte).getLsbD k = decide (k < 2) := by
    rw [show (0x03 : Byte) = BitVec.ofNat 8 (2 ^ 2 - 1) from rfl, BitVec.getLsbD_ofNat, Nat.testBit_two_pow_sub_one,
      Bool.and_eq_right_iff_imp]
    simp only [decide_eq_true_eq]
    omega
  rw [modeWritten, BitVec.getLsbD_and, h3, Bool.and_comm]

/-- Settles O5: at the port and in `exec` alike, BUSY = 1 is tested before anything else. -/
theorem startWhileBusyIgnored : Obligations.StartWhileBusyIgnored := by
  intro s hb
  constructor
  · intro opsel operands rest hs
    rw [step_cons hs]
    exact hostStart_busy hb
  · intro i hi
    obtain ⟨body, -, hx⟩ := exec_started hi
    rw [hx, runStarted_busy hb]

/-- Settles O7: the two writes of the HOST, MODE read bit by bit. -/
theorem setBudgetAndMode : Obligations.SetBudgetAndMode := by
  intro s rest hb
  constructor
  · intro v hs
    rw [step_cons hs]
    exact hostWrite_idle hb _
  · intro v hs
    rw [step_cons hs]
    exact ⟨_, hostWrite_idle hb _, modeWritten_getLsbD v, rfl⟩

/-- Settles O4: the decoded operation's own OPSEL names it, so the port's two readings of the bytes agree. -/
theorem stepRunsStartedOperation : Obligations.StepRunsStartedOperation := by
  constructor
  · intro s opsel operands extra rest i hb hs hd hi
    rw [step_cons hs]
    exact hostStart_decoded hb hd hi
  · intro s hs
    exact step_nil hs

/-- Settles O11: each register the table of R52 specifies, read off the reset state. -/
theorem resetValues : Obligations.ResetValues :=
  ⟨rfl, rfl, rfl, rfl, rfl, rfl, rfl, rfl, rfl, rfl, rfl, rfl, rfl, rfl, rfl, rfl, rfl, rfl⟩

end Sys2Proof.Machine
end

section
/-! PROOFS. The result and control registers: which of them an operation leaves alone, and when RDREG writes REGVAL. -/

namespace Sys2Proof.Machine

/-! ### What a started operation keeps -/

/-- The three ways a START ends: ignored, by the success exit, by the failure exit (R28, R240, R241). -/
theorem runStarted_cases (i : Instr) (body : State → Run) (s : State) :
    (s.busy = true ∧ runStarted i body s = s) ∨
    (∃ t, body (latch i s) = .done t ∧ runStarted i body s = successExit t) ∨
    (∃ e t, body (latch i s) = .raised e t ∧ runStarted i body s = failExit e t) := by
  cases hb : s.busy with
  | true => exact .inl ⟨rfl, runStarted_busy hb⟩
  | false =>
    cases hr : body (latch i s) with
    | done t => exact .inr (.inl ⟨t, rfl, runStarted_done hb hr⟩)
    | raised e t => exact .inr (.inr ⟨e, t, rfl, runStarted_raised hb hr⟩)

/-- A started operation answers a next state: the one it found, or an exit from one that keeps what `Kept` says. -/
theorem exec_started_exits {i : Instr} (h : i.name.startable = true) (s : State) :
    ∃ t, exec i s = .next t ∧
      (t = s ∨ ∃ u, Kept (writesOf i.name) (latch i s) u ∧ (t = successExit u ∨ ∃ e, t = failExit e u)) := by
  obtain ⟨body, hbody, hx⟩ := exec_started h
  have hk := hbody.kept (latch i s)
  refine ⟨_, hx s, ?_⟩
  rcases runStarted_cases i body s with ⟨-, hr⟩ | ⟨t, ht, hr⟩ | ⟨e, t, ht, hr⟩
  · exact .inl hr
  · rw [ht] at hk
    exact .inr ⟨t, hk, .inl hr⟩
  · rw [ht] at hk
    exact .inr ⟨t, hk, .inr ⟨e, hr⟩⟩

theorem failExit_res32 {e : Raise} {s : State} {n : OpName} (hop : s.op = some n) (h1 : n ≠ .getfw) (h2 : n ≠ .listpt) :
    (failExit e s).res32 = s.res32 := by
  rw [failExit_eq]
  simp [hop, h1, h2]

/-! The entries of `writesOf`, read the other way round: an operation not named there leaves the register alone. -/

theorem writesOf_res32 {n : OpName} (h1 : n ≠ .getfw) (h2 : n ≠ .listpt) : (writesOf n).res32 = false := by
  cases n <;> trivial

theorem writesOf_outblk {n : OpName} (h1 : n ≠ .rdblk) (h2 : n ≠ .p2piex) (h3 : n ≠ .p2ptrs) :
    (writesOf n).outblk = false := by
  cases n <;> trivial

theorem writesOf_listed {n : OpName} (h : n ≠ .listpt) : (writesOf n).listed = false := by
  cases n <;> trivial

theorem writesOf_regval {n : OpName} (h : n ≠ .rdreg) : (writesOf n).regval = false := by
  cases n <;> trivial

theorem writesOf_layout {n : OpName} (h1 : n ≠ .rdvar) (h2 : n ≠ .xchgv) : (writesOf n).layout = false := by
  cases n <;> trivial

/-- The result and control registers of R33, R38, R39 and R44 to R47 that an operation of this name leaves as they were. -/
def ResultsKept (n : OpName) (s t : State) : Prop :=
  (n ≠ .getfw → n ≠ .listpt → t.res32 = s.res32) ∧
  (n ≠ .rdblk → n ≠ .p2piex → n ≠ .p2ptrs → t.outblk = s.outblk) ∧
  (n ≠ .listpt → t.sens = s.sens ∧ t.selr = s.selr ∧ t.idlen = s.idlen) ∧
  (n ≠ .rdreg → t.regval = s.regval) ∧
  (n ≠ .rdvar → n ≠ .xchgv → t.short = s.short ∧ t.tlen = s.tlen) ∧
  t.budget = s.budget ∧ t.mode = s.mode

theorem Kept.results {n : OpName} {s t : State} (h : Kept (writesOf n) s t) : ResultsKept n s t :=
  ⟨fun h1 h2 => h.res32 (writesOf_res32 h1 h2), fun h1 h2 h3 => h.outblk (writesOf_outblk h1 h2 h3),
    fun h1 => h.listed (writesOf_listed h1), fun h1 => h.regval (writesOf_regval h1),
    fun h1 h2 => h.layout (writesOf_layout h1 h2), h.budget, h.mode⟩

/-- The failure exit clears RES32 in GETFW and LISTPT, and writes no other of these registers (R240). -/
theorem ResultsKept.failExit {n : OpName} {s t : State} {e : Raise} (hop : t.op = some n) (h : ResultsKept n s t) :
    ResultsKept n s (failExit e t) := by
  obtain ⟨hres, hrest⟩ := h
  refine ⟨fun h1 h2 => (failExit_res32 hop h1 h2).trans (hres h1 h2), ?_⟩
  simpa only [failExit_outblk, failExit_sens, failExit_selr, failExit_idlen, failExit_regval, failExit_short, failExit_tlen,
    failExit_budget, failExit_mode] using hrest

/-- Settles O18: the latch and the exits write none of the registers, the pseudocode those of `writesOf`. -/
theorem resultRegistersWrittenOnlyByTheirOperations : Obligations.ResultRegistersWrittenOnlyByTheirOperations := by
  intro i s hi
  suffices h : ∃ t, exec i s = .next t ∧ ResultsKept i.name s t from h
  obtain ⟨t, hx, ht⟩ := exec_started_exits hi s
  refine ⟨t, hx, ?_⟩
  rcases ht with rfl | ⟨u, hk, rfl | ⟨e, rfl⟩⟩
  · exact (Kept.refl _ _).results
  · exact hk.results
  · exact ResultsKept.failExit hk.op hk.results

/-! ### REGVAL -/

theorem runCalled_regval {body : State → Run} {s : State} (h : (body s).state.regval = s.regval) :
    (runCalled body s).regval = s.regval := by
  unfold runCalled
  cases hr : body s with
  | done t => rwa [hr] at h
  | raised e t => rw [hr] at h; exact (failExit_regval e t).trans h

/-- An internal operation leaves REGVAL alone. -/
theorem exec_internal_regval {i : Instr} (hi : i.name.startable = false) (s : State) :
    ∃ t, exec i s = .next t ∧ t.regval = s.regval := by
  cases i
  case encode cmd =>
    refine ⟨_, rfl, runCalled_regval ?_⟩
    unfold encodeThen
    split_ifs <;> rfl
  case declen h => exact ⟨_, rfl, runCalled_regval ((declen_kept (w := { layout := true }) rfl h s).regval rfl)⟩
  case validate f short => exact ⟨_, rfl, runCalled_regval rfl⟩
  case decode f =>
    refine ⟨_, rfl, runCalled_regval ?_⟩
    unfold decodeStep
    split <;> rfl
  case ackcmp a => exact ⟨_, rfl, runCalled_regval rfl⟩
  case select => exact ⟨_, rfl, runCalled_regval rfl⟩
  case deselect => exact ⟨_, rfl, runCalled_regval rfl⟩
  all_goals exact absurd hi.symm Bool.false_ne_true

theorem exec_regval {i : Instr} (hi : i.name ≠ .rdreg) (s : State) : ∃ t, exec i s = .next t ∧ t.regval = s.regval := by
  cases hs : i.name.startable with
  | false => exact exec_internal_regval hs s
  | true =>
    obtain ⟨t, hx, -, -, -, hreg, -⟩ := resultRegistersWrittenOnlyByTheirOperations i s hs
    exact ⟨t, hx, hreg hi⟩

/-- The pseudocode of RDREG (R204). -/
def rdregBody (addr : Half) (s : State) : Run :=
  (exchange (cmdRdreg s.cfg addr) s.cfg.rlenRdreg s).andThen fun s =>
    needBuf (s.cfg.rdregOff + 1) s fun s => .done { s with regval := s.bufByte s.cfg.rdregOff }

theorem exec_rdreg (addr : Half) (s : State) : exec (.rdreg addr) s = .next (runStarted (.rdreg addr) (rdregBody addr) s) :=
  rfl

/-- Everything RDREG can do with REGVAL: it ends with BUF[RDREG_OFF] in it, or raises and leaves it alone (R47, R204). -/
theorem rdregBody_cases (addr : Half) (s : State) :
    (∃ u, Kept { tstate := true } s u ∧ rdregBody addr s = .done { u with regval := u.bufByte u.cfg.rdregOff }) ∨
    (∃ e u, rdregBody addr s = .raised e u ∧ u.regval = s.regval) := by
  have hk := exchange_kept (w := { tstate := true }) rfl (cmdRdreg s.cfg addr) s.cfg.rlenRdreg s
  unfold rdregBody
  cases hx : exchange (cmdRdreg s.cfg addr) s.cfg.rlenRdreg s with
  | raised e u =>
    rw [hx] at hk
    exact .inr ⟨e, u, rfl, hk.regval rfl⟩
  | done u =>
    rw [hx] at hk
    rw [Run.andThen_done]
    by_cases hb : u.cfg.rdregOff + 1 ≤ u.cfg.bufsz
    · exact .inl ⟨u, hk, needBuf_of_le hb _⟩
    · exact .inr ⟨_, u, needBuf_of_gt (by omega) _, hk.regval rfl⟩

/-- REGVAL after RDREG, whatever the CHIP answers (R47). -/
theorem rdreg_regval {addr : Half} {s t : State} (hb : s.busy = false) (ho : s.cfg.rdregOff = 0)
    (h : exec (.rdreg addr) s = .next t) : t.regval = if t.ok = true then t.bufByte 0 else s.regval := by
  rw [exec_rdreg] at h
  cases h
  rcases rdregBody_cases addr (latch (.rdreg addr) s) with ⟨u, hk, hd⟩ | ⟨e, u, hr, hreg⟩
  · have hoff : u.cfg.rdregOff = 0 := (congrArg Config.rdregOff hk.cfg).trans ho
    rw [hoff] at hd
    rw [runStarted_done hb hd]
    rfl
  · rw [runStarted_raised hb hr, failExit_regval, failExit_ok, if_neg Bool.false_ne_true]
    exact hreg

/-- RDREG of a command the CHIP answers: REGVAL is the first byte of its response (R47, R204). -/
theorem rdreg_answered {addr : Half} {s : State} {p q : Nat} (hb : s.busy = false) (hc : s.cfg.Ok) (ho : s.cfg.rdregOff = 0)
    (ha : Answered s 0 p q) :
    ∃ t, exec (.rdreg addr) s = .next t ∧ t.ok = true ∧ t.bufByte 0 = s.chip (p + q + 8) ∧
      t.regval = s.chip (p + q + 8) := by
  have hlen : (cmdRdreg s.cfg addr).length = 3 := rfl
  obtain ⟨⟨hmax, hsize, -, -⟩, ⟨-, -, -, -, -, -, -, -, -, -, -, hoff, hread⟩, -⟩ := hc
  obtain ⟨u, hx, hbuf, hu⟩ := exchange_latched (i := .rdreg addr) (cmd := cmdRdreg s.cfg addr) (r := s.cfg.rlenRdreg)
    (by omega) (by omega) (by omega) (by omega) hread ha
  have hcfg : u.cfg = s.cfg := by rw [hu]; rfl
  have h0 : u.bufByte 0 = s.chip (p + q + 8) := by rw [hbuf, bufAfter_of_lt (by omega), Nat.add_zero]
  have hd : rdregBody addr (latch (.rdreg addr) s) = .done { u with regval := u.bufByte 0 } := by
    unfold rdregBody
    rw [latch_cfg, hx, Run.andThen_done, needBuf_of_le (by rw [hcfg]; omega), hcfg, ho]
  exact ⟨_, congrArg Host.Outcome.next (runStarted_done hb hd), rfl, h0, h0⟩

/-- Settles O45: `exec_regval` for the other operations, `rdregBody_cases` for RDREG, and the answered exchange. -/
theorem regvalWrittenByRdregOnSuccess : Obligations.RegvalWrittenByRdregOnSuccess := by
  intro s hb hc ho
  refine ⟨fun i t hx hi => ?_, fun addr t => rdreg_regval hb ho, fun addr p q => rdreg_answered hb hc ho⟩
  obtain ⟨u, hu, hreg⟩ := exec_regval hi s
  rw [hx] at hu
  cases hu
  exact hreg

end Sys2Proof.Machine
end

section
/-! PROOFS. No operation reads OK, ERR, ERRINFO or SHORT (R35). Blanking the four registers is a projection of the state. An update
that writes none of them commutes with it; pseudocode that may write them still ends, from the blanked state, in what blanks to the
same. -/

namespace Sys2Proof.Machine

/-! ### Blanking -/

/-- The state with OK, ERR, ERRINFO and SHORT at fixed values. -/
def State.blank (s : State) : State := { s with ok := false, err := .none, errinfo := 0, short := false }

/-- The same of the state a run ends in. -/
def Run.blank : Run → Run
  | .done s => .done s.blank
  | .raised e s => .raised e s.blank

/-- States that blank to the same differ in the four registers only. -/
theorem State.eq_of_blank_eq {s t : State} (h : t.blank = s.blank) :
    { t with ok := s.ok, err := s.err, errinfo := s.errinfo, short := s.short } = s :=
  congrArg (fun u : State => { u with ok := s.ok, err := s.err, errinfo := s.errinfo, short := s.short }) h

/-- What a function that cannot tell a state from its blank gives of two states that blank to the same. -/
theorem eq_of_blank {α : Type} {g : State → α} {s t : State} (h : s.blank = t.blank) (hg : ∀ u, g u.blank = g u) :
    g s = g t := by
  rw [← hg s, h, hg t]

/-- Pseudocode that reads none of the four registers. -/
def Blind (k : State → Run) : Prop := ∀ s, (k s.blank).blank = (k s).blank

/-- An update that neither reads nor writes them. -/
def Transparent (f : State → State) : Prop := ∀ s, f s.blank = (f s).blank

theorem Transparent.comp {f g : State → State} (hg : Transparent g) (hf : Transparent f) : Transparent fun s => g (f s) :=
  fun s => (congrArg g (hf s)).trans (hg (f s))

theorem Transparent.done {f : State → State} (hf : Transparent f) : Blind fun s => .done (f s) :=
  fun s => (congrArg (fun t => (Run.done t).blank) (hf s)).trans rfl

theorem Transparent.raised {f : State → State} (hf : Transparent f) (e : Raise) : Blind fun s => .raised e (f s) :=
  fun s => (congrArg (fun t => (Run.raised e t).blank) (hf s)).trans rfl

theorem Transparent.same : Transparent fun s => s := fun _ => rfl

theorem Blind.raise (e : Raise) : Blind (.raised e) := Transparent.same.raised e

theorem Blind.comp {k : State → Run} {f : State → State} (hk : Blind k) (hf : Transparent f) : Blind fun s => k (f s) :=
  fun s => (congrArg (fun t => (k t).blank) (hf s)).trans (hk (f s))

/-- Pseudocode that depends on a part of the state that is none of the four registers. -/
theorem Blind.of_part {α : Type} {part : State → α} {k : α → State → Run} (hp : ∀ s, part s.blank = part s)
    (hk : ∀ a, Blind (k a)) : Blind fun s => k (part s) s := by
  intro s
  beta_reduce
  rw [hp]
  exact hk (part s) s

theorem Blind.ite {p : State → Prop} [DecidablePred p] {a b : State → Run} (hp : ∀ s, p s.blank ↔ p s) (ha : Blind a)
    (hb : Blind b) : Blind fun s => if p s then a s else b s := by
  intro s
  by_cases h : p s
  · simp only [if_pos h, if_pos ((hp s).mpr h)]
    exact ha s
  · simp only [if_neg h, if_neg (mt (hp s).mp h)]
    exact hb s

/-- Runs that blank to the same go on to runs that blank to the same. -/
theorem Run.andThen_blank {k : State → Run} (hk : Blind k) {r q : Run} (h : r.blank = q.blank) :
    (r.andThen k).blank = (q.andThen k).blank := by
  cases r with
  | done t =>
    cases q with
    | done u => exact eq_of_blank (g := fun s => (k s).blank) (Run.done.inj h) hk
    | raised e u => cases h
  | raised e t =>
    cases q with
    | done u => cases h
    | raised e' u => exact h

theorem Blind.andThen {a b : State → Run} (ha : Blind a) (hb : Blind b) : Blind fun s => (a s).andThen b :=
  fun s => Run.andThen_blank hb (ha s)

theorem Blind.needBuf {hi : Nat} {k : State → Run} (hk : Blind k) : Blind fun s => needBuf hi s k :=
  Blind.ite (p := fun s => hi ≤ s.cfg.bufsz) (fun _ => Iff.rfl) hk (Blind.raise _)

/-! ### The lines of pseudocode -/

theorem wrbyte_transparent (v : Byte) : Transparent (wrbyte v) := fun s => by rw [wrbyte_eq, wrbyte_eq]; rfl

theorem rdbyte_transparent : Transparent rdbyte := fun s => by rw [rdbyte_eq, rdbyte_eq]; rfl

theorem select_transparent : Transparent select := fun _ => rfl

theorem deselect_transparent : Transparent deselect := fun _ => rfl

theorem setTState_transparent (t : TState) : Transparent (setTState t) := fun _ => rfl

theorem completeRead_transparent (n : Nat) : Transparent (completeRead n) := fun _ => rfl

theorem status_transparent : Transparent status := fun s => by rw [status_eq, status_eq]; rfl

theorem polledOnce_transparent : Transparent polledOnce := fun s => by
  rw [polledOnce, status_transparent s]
  rfl

theorem sendBytes_transparent (frame : List Byte) (k : Nat) : Transparent (sendBytes frame k) := by
  induction frame generalizing k with
  | nil => exact Transparent.same
  | cons b rest ih =>
    exact (ih (k + 1)).comp ((wrbyte_transparent b).comp (f := fun s => { s with idx := k }) fun _ => rfl)

theorem putBytes_transparent (addr : Nat) (bytes : List Byte) : Transparent fun s => s.putBytes addr bytes := by
  induction bytes generalizing addr with
  | nil => exact Transparent.same
  | cons b rest ih =>
    exact (ih (addr + 1)).comp (f := fun s => { s with buf := Memory.put s.buf addr b }) fun _ => rfl

theorem memWrite_blind (addr : Nat) (bytes : List Byte) : Blind (memWrite addr bytes) :=
  (putBytes_transparent addr bytes).done.needBuf

/-- A transaction opened: SELECT and a sub-command byte of the configuration. -/
theorem opened_transparent (sub : Config → Byte) : Transparent fun s => wrbyte (sub s.cfg) (select s) :=
  fun s => (wrbyte_transparent (sub s.cfg)).comp select_transparent s

theorem encodeThen_blind (cmd : List Byte) {k : List Byte → State → Run} (hk : ∀ f, Blind (k f)) :
    Blind fun s => encodeThen cmd s k :=
  Blind.ite (p := fun _ => encodable cmd = true) (fun _ => Iff.rfl)
    (Blind.of_part (part := fun s => frameOf s.cfg cmd) (fun _ => rfl) fun f =>
      (hk f).comp (f := fun s => { s with cks := runningChecksum s.cfg cmd }) fun _ => rfl)
    (Blind.raise _)

theorem wrframe_blind (n : Nat) : Blind (wrframe n) :=
  Blind.ite (p := fun s => badCommandLength n s = true) (fun _ => Iff.rfl) (Blind.raise _)
    (Blind.needBuf (Blind.of_part (part := fun s => s.bufBytes 0 n) (fun _ => rfl) fun cmd =>
      encodeThen_blind cmd fun frame =>
        (deselect_transparent.comp ((sendBytes_transparent frame 0).comp (opened_transparent Config.spiDW))).done))

theorem waitLoop_blind (stage : Byte) (polls : Nat) : Blind (waitLoop stage polls) := by
  induction polls with
  | zero => exact Blind.raise _
  | succ k ih =>
    rw [funext (waitLoop_succ stage k)]
    exact Blind.ite (p := fun s => s.chip 0 = s.cfg.ready) (fun _ => Iff.rfl) status_transparent.done
      (Blind.ite (p := fun s => s.elapsed + s.cfg.pollInterval > s.budget.toNat) (fun _ => Iff.rfl)
        (Transparent.raised (fun s => congrArg (fun t : State => { t with elapsed := s.elapsed + s.cfg.pollInterval })
          (status_transparent s)) _)
        (ih.comp polledOnce_transparent))

theorem waitrdy_blind (stage : Byte) : Blind (waitrdy stage) :=
  Blind.of_part (part := fun s => s.budget.toNat / s.cfg.pollInterval + 1) (fun _ => rfl) fun polls =>
    (waitLoop_blind stage polls).comp (f := fun s => { s with elapsed := 0 }) fun _ => rfl

theorem checkAck_blind : Blind checkAck := by
  intro s
  have hd : firstDiff s.blank.ackr.toList s.blank.cfg.ack.toList = firstDiff s.ackr.toList s.cfg.ack.toList := rfl
  rw [checkAck, checkAck, hd]
  cases firstDiff s.ackr.toList s.cfg.ack.toList <;> rfl

theorem rdack_blind : Blind rdack := by
  have h : rdack = fun s => checkAck (ackTaken s) := funext fun s => by rw [rdack, ackTaken_eq]
  rw [h]
  exact checkAck_blind.comp fun _ => rfl

theorem readInto_blind (track : Bool) (n i : Nat) : Blind (readInto track n i) := by
  induction n generalizing i with
  | zero => exact Transparent.same.done
  | succ n ih =>
    have hr : Transparent fun s => rdbyte (if track then { s with idx := i } else s) := by
      cases track
      · exact rdbyte_transparent
      · exact rdbyte_transparent.comp (f := fun s => { s with idx := i }) fun _ => rfl
    have hstep : Blind fun t => (memWrite i [t.shr] t).andThen (readInto track n (i + 1)) :=
      Blind.andThen (Blind.of_part (part := fun s => [s.shr]) (fun _ => rfl) (memWrite_blind i)) (ih (i + 1))
    exact hstep.comp hr

theorem rdfix_blind (r : Nat) : Blind (rdfix r) :=
  Blind.ite (p := fun s => r > s.cfg.bufsz) (fun _ => Iff.rfl) (Blind.raise _)
    (Blind.andThen ((readInto_blind true r 0).comp (opened_transparent Config.spiDR))
      ((completeRead_transparent r).comp deselect_transparent).done)

/-- A read into BUF that does not fit raises. -/
theorem readInto_raised {track : Bool} {n i : Nat} {s : State} (hi : i ≤ s.cfg.bufsz) (h : s.cfg.bufsz < i + n) :
    ∃ e t, readInto track n i s = .raised e t := by
  induction n generalizing i s with
  | zero => omega
  | succ n ih =>
    have hc : (rdbyte (if track then { s with idx := i } else s)).cfg = s.cfg := by cases track <;> simp [rdbyte_eq]
    rw [readInto]
    rcases memWrite_cases i [(rdbyte (if track then { s with idx := i } else s)).shr]
      (rdbyte (if track then { s with idx := i } else s)) with ⟨hle, hm⟩ | ⟨-, hm⟩
    · rw [hm, Run.andThen_done]
      exact ih (by simpa [hc] using hle) (by simp [hc]; omega)
    · exact ⟨_, _, by rw [hm, Run.andThen_raised]⟩

/-- On a BUF too small for a header, RDVAR raises in its header read. -/
theorem rdvar_of_lt {s : State} (h : s.cfg.bufsz < 5) :
    rdvar s = readInto false 5 0 (wrbyte s.cfg.spiDR (select s)) := by
  have hc : (wrbyte s.cfg.spiDR (select s)).cfg = s.cfg := by simp [wrbyte_eq, select_eq]
  obtain ⟨e, t, hr⟩ := readInto_raised (track := false) (n := 5) (i := 0) (s := wrbyte s.cfg.spiDR (select s))
    (Nat.zero_le _) (by rw [hc]; omega)
  rw [rdvar, hr, Run.andThen_raised]

theorem variableRead_blank (n : Nat) (short : Bool) (s : State) :
    (variableRead n short s.blank).blank = (variableRead n short s).blank := by
  have hb : (s.blank.putBytes 0 (s.blank.chipBytes 0 n)).buf = (s.putBytes 0 (s.chipBytes 0 n)).buf :=
    putBytes_buf_congr (s := s.blank) (t := s) rfl 0 _
  rw [variableRead, variableRead, hb]
  rfl

/-- RDVAR writes SHORT, by DECLEN, before it reads it (R142, R167). -/
theorem rdvar_blind : Blind rdvar := by
  intro s
  by_cases hb : 5 ≤ s.cfg.bufsz
  · have hl : responseLayout s.blank.cfg s.blank.quirk (s.blank.chipBytes 0 5) =
        responseLayout s.cfg s.quirk (s.chipBytes 0 5) := rfl
    rw [rdvar_eq hb, rdvar_eq (s := s.blank) hb, hl]
    cases responseLayout s.cfg s.quirk (s.chipBytes 0 5) with
    | none => rfl
    | some p =>
      obtain ⟨short, n⟩ := p
      have hlong : Blind fun s => .raised (.responseMismatch .tooLong) { headerRead s with short := short, tlen := n } :=
        fun _ => rfl
      have hread : Blind fun s => if s.strict ∧ ¬ validFrame (s.chipBytes 0 n) short then
            .raised (.responseMismatch .badChecksum) (variableRead n short s)
          else .done (completeRead n (variableRead n short s)) :=
        Blind.ite (p := fun s => s.strict ∧ ¬ validFrame (s.chipBytes 0 n) short) (fun _ => Iff.rfl)
          (fun s => congrArg (Run.raised (.responseMismatch .badChecksum)) (variableRead_blank n short s))
          fun s => congrArg (fun t => Run.done (completeRead n t)) (variableRead_blank n short s)
      exact Blind.ite (p := fun s => s.cfg.bufsz < n) (fun _ => Iff.rfl) hlong hread s
  · rw [rdvar_of_lt (s := s) (Nat.lt_of_not_le hb), rdvar_of_lt (s := s.blank) (Nat.lt_of_not_le hb)]
    exact (readInto_blind false 5 0).comp (opened_transparent Config.spiDR) s

/-! ### The exchange -/

theorem sendcmd_blind (n : Nat) : Blind (sendcmd n) :=
  Blind.ite (p := fun s => badCommandLength n s = true) (fun _ => Iff.rfl) (Blind.raise _)
    (Blind.andThen ((wrframe_blind n).comp (setTState_transparent .selecting))
      (Blind.andThen ((waitrdy_blind 1).comp (setTState_transparent .awaitingReady1))
        (Blind.andThen (rdack_blind.comp (setTState_transparent .ackRead))
          ((waitrdy_blind 2).comp (setTState_transparent .awaitingReady2)))))

theorem sendcmdAlone_blind (n : Nat) : Blind (sendcmdAlone n) :=
  Blind.andThen (sendcmd_blind n) (setTState_transparent .success).done

/-- A response read by `read` after SENDCMD, and the exchange is a Success. -/
theorem answer_blind (n : Nat) {read : State → Run} (hr : Blind read) :
    Blind fun s => (sendcmd n s).andThen fun s =>
      (read (setTState .responseRead s)).andThen fun s => .done (setTState .success s) :=
  Blind.andThen (sendcmd_blind n)
    (Blind.andThen (hr.comp (setTState_transparent .responseRead)) (setTState_transparent .success).done)

theorem xchgf_blind (n r : Nat) : Blind (xchgf n r) :=
  Blind.ite (p := fun s => badCommandLength n s = true ∨ r > s.cfg.bufsz) (fun _ => Iff.rfl) (Blind.raise _)
    (answer_blind n (rdfix_blind r))

theorem xchgv_blind (n : Nat) : Blind (xchgv n) :=
  Blind.ite (p := fun s => badCommandLength n s = true) (fun _ => Iff.rfl) (Blind.raise _) (answer_blind n rdvar_blind)

theorem exchange_blind (cmd : List Byte) (r : Nat) : Blind (exchange cmd r) :=
  Blind.andThen (memWrite_blind 0 cmd) (xchgf_blind cmd.length r)

/-- A catalog operation: an exchange, its command and read length taken from the configuration, then a decode step. -/
theorem catalog_blind (cmd : Config → List Byte) (rlen : Config → Nat) {step : State → Run} (h : Blind step) :
    Blind fun s => (exchange (cmd s.cfg) (rlen s.cfg) s).andThen step :=
  Blind.of_part (part := State.cfg) (fun _ => rfl) fun c => Blind.andThen (exchange_blind (cmd c) (rlen c)) h

/-! ### The decode steps -/

theorem expectByte_blind (k : Nat) (v : Byte) : Blind (expectByte k v) :=
  Blind.needBuf (Blind.of_part (part := fun s => s.bufByte k) (fun _ => rfl) fun b =>
    Blind.ite (p := fun _ => b = v) (fun _ => Iff.rfl) Transparent.same.done (Blind.raise _))

theorem expectExchangeEcho_blind : Blind expectExchangeEcho :=
  Blind.andThen (Blind.of_part (part := fun s => s.cfg.echoDataex) (fun _ => rfl) (expectByte_blind 6)) (expectByte_blind 7 0)

theorem copyBlock_blind : Blind copyBlock := Blind.needBuf fun _ => rfl

theorem decodeGetfw_blind : Blind decodeGetfw :=
  Blind.needBuf (Blind.ite (p := fun s => s.bufBytes 0 6 = s.cfg.fwsig.toList) (fun _ => Iff.rfl) (fun _ => rfl)
    (Blind.raise _))

theorem decodeListpt_blind : Blind decodeListpt :=
  Blind.andThen (expectByte_blind 7 1) (Blind.needBuf
    (Blind.of_part (part := fun s => 13 + (s.bufByte 12).toNat) (k := fun hi s => needBuf hi s fun s => .done (listptResults s))
      (fun _ => rfl) fun _ => Blind.needBuf fun _ => rfl))

theorem receiveLeg_blind : Blind receiveLeg :=
  catalog_blind cmdTgget Config.rlenTgget (Blind.andThen (expectByte_blind 7 0) copyBlock_blind)

theorem sendLeg_blind (data : List Byte) : Blind (sendLeg data) :=
  catalog_blind (fun c => cmdTgset c data) Config.rlenTgset (expectByte_blind 7 0)

/-! ### The Frame Codec -/

theorem declen_blind (h : List Byte) : Blind (declen h) :=
  Blind.ite (p := fun s => fullHeader s.cfg h = true) (fun _ => Iff.rfl) (fun _ => rfl)
    (Blind.ite (p := fun s => shortHeader s.cfg h = true ∧ s.quirk = true) (fun _ => Iff.rfl) (fun _ => rfl) (Blind.raise _))

theorem decodeStep_blind (f : List Byte) : Blind (decodeStep f) := by
  intro s
  have hc : decodeFrame s.blank.cfg f = decodeFrame s.cfg f := rfl
  rw [decodeStep, decodeStep, hc]
  cases decodeFrame s.cfg f <;> rfl

/-! ### The exits and the operations -/

theorem failExit_blank (e : Raise) (s : State) : (failExit e s.blank).blank = (failExit e s).blank := by
  rw [failExit_eq, failExit_eq]
  rfl

/-- An operation runs to a next state, the same but for the four registers whatever they held. -/
def ErrorsUnread (op : State → Host.Outcome State Fault Refusal) : Prop :=
  ∃ f : State → State, (∀ s, op s = .next (f s)) ∧ ∀ s, (f s.blank).blank = (f s).blank

/-- The state a run leaves: by `done` where it reaches its end, by the failure exit where it raises. -/
def Run.exitBy (done : State → State) : Run → State
  | .done t => done t
  | .raised e t => failExit e t

theorem runStarted_idle {i : Instr} {body : State → Run} {s : State} (hb : s.busy = false) :
    runStarted i body s = (body (latch i s)).exitBy successExit := by
  cases hr : body (latch i s) with
  | done t => exact runStarted_done hb hr
  | raised e t => exact runStarted_raised hb hr

theorem runCalled_eq (body : State → Run) (s : State) : runCalled body s = (body s).exitBy fun t => t := rfl

/-- Runs that blank to the same leave, by exits that read none of the four registers, states that blank to the same. -/
theorem Run.exitBy_blank {done : State → State} (hd : ∀ s, (done s.blank).blank = (done s).blank) {r q : Run}
    (h : r.blank = q.blank) : (r.exitBy done).blank = (q.exitBy done).blank := by
  cases r with
  | done t =>
    cases q with
    | done u => exact eq_of_blank (g := fun s => (done s).blank) (Run.done.inj h) hd
    | raised e u => cases h
  | raised e t =>
    cases q with
    | done u => cases h
    | raised e' u =>
      obtain ⟨rfl, htu⟩ := Run.raised.inj h
      exact eq_of_blank (g := fun s => (failExit e s).blank) htu (failExit_blank e)

theorem Blind.started {body : State → Run} (h : Blind body) (i : Instr) :
    ErrorsUnread fun s => .next (runStarted i body s) := by
  refine ⟨_, fun _ => rfl, fun s => ?_⟩
  cases hb : s.busy with
  | true => rw [runStarted_busy hb, runStarted_busy (s := s.blank) hb]; rfl
  | false =>
    rw [runStarted_idle hb, runStarted_idle (s := s.blank) hb]
    exact Run.exitBy_blank (fun _ => rfl) (h (latch i s))

theorem Blind.called {body : State → Run} (h : Blind body) : ErrorsUnread fun s => .next (runCalled body s) := by
  refine ⟨_, fun _ => rfl, fun s => ?_⟩
  rw [runCalled_eq, runCalled_eq]
  exact Run.exitBy_blank (fun _ => rfl) (h s)

/-- No operation reads the four registers: arm by arm, by its pseudocode. -/
theorem exec_errorsUnread (i : Instr) : ErrorsUnread (exec i) := by
  cases i with
  | wrbyte v => exact (wrbyte_transparent v).done.started (.wrbyte v)
  | rdbyte => exact rdbyte_transparent.done.started .rdbyte
  | encode cmd =>
    exact (encodeThen_blind cmd (k := fun f s => .done { s with ret := .frame f }) fun _ _ => rfl).called
  | declen h => exact (declen_blind h).called
  | validate f short => exact Blind.called fun _ => rfl
  | decode f => exact (decodeStep_blind f).called
  | ackcmp a => exact Blind.called fun _ => rfl
  | select => exact select_transparent.done.called
  | deselect => exact deselect_transparent.done.called
  | wrframe n => exact (wrframe_blind n.toNat).started (.wrframe n)
  | status => exact status_transparent.done.started .status
  | waitrdy => exact (waitrdy_blind 0).started .waitrdy
  | rdack => exact rdack_blind.started .rdack
  | rdfix r => exact (rdfix_blind r.toNat).started (.rdfix r)
  | rdvar => exact rdvar_blind.started .rdvar
  | sendcmd n => exact (sendcmdAlone_blind n.toNat).started (.sendcmd n)
  | xchgf n r => exact (xchgf_blind n.toNat r.toNat).started (.xchgf n r)
  | xchgv n => exact (xchgv_blind n.toNat).started (.xchgv n)
  | getfw => exact (catalog_blind cmdGetfw Config.rlenGetfw decodeGetfw_blind).started .getfw
  | samcfg =>
    exact (catalog_blind cmdSamcfg Config.rlenSamcfg
      (Blind.of_part (part := fun s => s.cfg.samOk) (fun _ => rfl) (expectByte_blind 5))).started .samcfg
  | listpt baud =>
    exact (catalog_blind (fun c => cmdListpt c baud) Config.rlenListpt decodeListpt_blind).started (.listpt baud)
  | auth tg keysel blk key cid =>
    exact (catalog_blind (fun c => cmdAuth c tg keysel blk key cid) Config.rlenAuth expectExchangeEcho_blind).started
      (.auth tg keysel blk key cid)
  | rdblk tg blk =>
    exact (catalog_blind (fun c => cmdRdblk c tg blk) Config.rlenRdblk
      (Blind.andThen expectExchangeEcho_blind copyBlock_blind)).started (.rdblk tg blk)
  | wrblk tg blk data =>
    exact (catalog_blind (fun c => cmdWrblk c tg blk data) Config.rlenWrblk expectExchangeEcho_blind).started
      (.wrblk tg blk data)
  | p2pini baud =>
    exact (catalog_blind (fun c => cmdP2pini c baud) Config.rlenP2pini (expectByte_blind 7 0)).started (.p2pini baud)
  | p2piex data =>
    exact (catalog_blind (fun c => cmdP2piex c data) Config.rlenP2piex
      (Blind.andThen (expectByte_blind 7 0) copyBlock_blind)).started (.p2piex data)
  | p2ptgt => exact (catalog_blind cmdP2ptgt Config.rlenP2ptgt (expectByte_blind 23 0)).started .p2ptgt
  | p2ptrs data => exact (Blind.andThen receiveLeg_blind (sendLeg_blind data)).started (.p2ptrs data)
  | rdreg addr =>
    exact (catalog_blind (fun c => cmdRdreg c addr) Config.rlenRdreg
      (Blind.of_part (part := fun s => s.cfg.rdregOff)
        (k := fun off s => needBuf (off + 1) s fun s => .done { s with regval := s.bufByte s.cfg.rdregOff })
        (fun _ => rfl) fun _ => Blind.needBuf fun _ => rfl)).started (.rdreg addr)
  | wrreg addr v =>
    exact (Blind.of_part (part := State.cfg) (fun _ => rfl) fun c =>
      Blind.andThen (memWrite_blind 0 (cmdWrreg c addr v)) (sendcmdAlone_blind (cmdWrreg c addr v).length)).started
        (.wrreg addr v)

/-- Settles O19: two states that differ in the four registers blank to the same, and so do the states the operation leaves. -/
theorem errorRegistersAreNeverRead : Obligations.ErrorRegistersAreNeverRead := by
  intro i s ok short err errinfo
  obtain ⟨f, hx, hf⟩ := exec_errorsUnread i
  have hs : ({ s with ok := ok, err := err, errinfo := errinfo, short := short } : State).blank = s.blank := rfl
  exact ⟨_, _, hx s, hx _, State.eq_of_blank_eq (eq_of_blank (g := fun u => (f u).blank) hs hf)⟩

end Sys2Proof.Machine
end

section
/-! PROOFS. The HOST's accesses at its port: a write of BUF, a READ, and the requests the port refuses. -/

namespace Sys2Proof.Machine

/-! ### Refused requests -/

/-- A refused request as one update: the failure exit of no operation, after no completed read (R105, R240). -/
theorem refuseRequest_eq (r : RefusedReason) (s : State) :
    refuseRequest r s =
      ({ s with
          sel := false, ok := false, err := .refused, errinfo := r.code, rcount := 0, readDone := false
          tstate := if s.tstate.inFlight then .failed else s.tstate
          busy := false } : State).emit (if s.sel then [.sel false] else []) :=
  failExitOf_eq none (.refused r) { s with readDone := false }

/-- Between operations a refused request records itself and zeroes RCOUNT, and does nothing on the lines (R105). -/
theorem refuseRequest_quiet {s : State} (hb : s.busy = false) (hsel : s.sel = false) (ht : s.tstate.inFlight = false)
    (r : RefusedReason) :
    refuseRequest r s =
      { s with ok := false, err := .refused, errinfo := r.code, rcount := 0, readDone := false } := by
  rw [refuseRequest_eq]
  simp only [hb, hsel, ht, Bool.false_eq_true, if_false, emit_nil]

/-! ### A write of BUF -/

theorem hostWriteBuf_of_lt {i : Nat} {s : State} (h : i < s.cfg.bufsz) (v : Byte) :
    hostWriteBuf i v s = { s with buf := Memory.put s.buf i v } := if_pos h

theorem hostWriteBuf_of_ge {i : Nat} {s : State} (h : s.cfg.bufsz ≤ i) (v : Byte) :
    hostWriteBuf i v s = refuseRequest .bufIndex s := if_neg (Nat.not_lt.mpr h)

/-- Settles O8: below BUFSZ the write is one `Memory.put`, at or beyond it the refusal, which leaves BUF alone. -/
theorem hostWritesBuf : Obligations.HostWritesBuf := by
  intro s i v rest hb hs
  have hstep : step s = .next (hostWriteBuf i v { s with host := rest }) := (step_cons hs).trans (hostWrite_idle hb _)
  constructor
  · intro hi
    rw [hstep, hostWriteBuf_of_lt (s := { s with host := rest }) hi]
    exact ⟨_, rfl, fun j => bufByte_put { s with host := rest } i j v, rfl⟩
  · intro hi
    rw [hstep, hostWriteBuf_of_ge (s := { s with host := rest }) hi, refuseRequest_eq]
    exact ⟨_, rfl, rfl, rfl, rfl, rfl⟩

/-! ### READ -/

theorem readableWhileBusy_iff {r : HostReg} : r.readableWhileBusy = true ↔ r = .busy ∨ r = .op ∨ r = .tstate := by
  cases r <;> simp [HostReg.readableWhileBusy]

/-- A READ the HOST may make gives the register's value and does nothing else (R74). -/
theorem hostRead_view {r : HostReg} {s : State} (hb : s.busy = false ∨ r.readableWhileBusy = true)
    (hshr : r = .shr → s.op = some .rdbyte) (hbuf : ∀ i, r = .buf i → i < s.cfg.bufsz) :
    hostRead r s = .next { s with hostData := some (s.hostView r) } := by
  have hmove : ¬(s.busy = true ∧ ¬ r.readableWhileBusy = true) := by
    rintro ⟨h1, h2⟩
    exact hb.elim (fun h => Bool.false_ne_true (h.symm.trans h1)) h2
  unfold hostRead
  rw [if_neg hmove]
  cases r
  case shr => exact if_pos (hshr rfl)
  case buf i => exact if_pos (hbuf i rfl)
  all_goals rfl

theorem hostRead_buf_refused {i : Nat} {s : State} (hb : s.busy = false) (hi : s.cfg.bufsz ≤ i) :
    hostRead (.buf i) s = .next (refuseRequest .bufIndex s) := by
  simp only [hostRead, hb, Bool.false_eq_true, false_and, if_false, if_neg (Nat.not_lt.mpr hi)]

theorem hostRead_shr_fault {s : State} (hb : s.busy = false) (hop : s.op ≠ some .rdbyte) :
    hostRead .shr s = .fault .shrNotReadable := by
  simp only [hostRead, hb, Bool.false_eq_true, false_and, if_false, if_neg hop]

theorem hostRead_busy_fault {r : HostReg} {s : State} (hb : s.busy = true) (hr : r.readableWhileBusy = false) :
    hostRead r s = .fault .hostAccessWhileBusy := by
  simp only [hostRead, hb, hr, Bool.false_eq_true, not_false_eq_true, and_self, if_true]

theorem hostView_op_none {s : State} (h : s.op = none) : s.hostView .op = .noOperation := by
  simp only [State.hostView, h]

theorem hostView_op_some {s : State} {n : OpName} (h : s.op = some n) : s.hostView .op = .number n.opsel.toNat := by
  simp only [State.hostView, h]

/-- A register read through a code that a table writes out gives the number its row says. -/
theorem number_of_table {α : Type} {code : α → Nat} {table : List (α × Nat)} (h : ∀ e ∈ table, code e.1 = e.2) {a : α} :
    ∀ e ∈ table, a = e.1 → HostValue.number (code a) = .number e.2 := by
  rintro e he rfl
  exact congrArg HostValue.number (h e he)

theorem number_of_bit (b : Bool) : HostValue.number b.toNat = .number (if b = true then 1 else 0) := by
  cases b <;> rfl

/-- Settles O9: the value is `State.hostView`, which agrees row by row with the tables of R90, R29 and R32; the other clauses are the
ways a READ is refused or faults. -/
theorem hostReadsHaveNoSideEffect : Obligations.HostReadsHaveNoSideEffect := by
  intro s r rest hs
  rw [step_cons hs]
  refine ⟨fun hb hshr hbuf => ?_, ?_, ?_, ?_⟩
  · refine ⟨_, hostRead_view (hb.imp id readableWhileBusy_iff.mpr) hshr hbuf, ?_⟩
    cases r
    case busy => exact number_of_bit s.busy
    case ok => exact number_of_bit s.ok
    case short => exact number_of_bit s.short
    case op =>
      refine ⟨hostView_op_none, fun e he hop => (hostView_op_some hop).trans ?_⟩
      exact number_of_table (code := fun n => n.opsel.toNat) (by decide) e he rfl
    case tstate => exact number_of_table (code := TState.number) (by decide)
    case err => exact number_of_table (code := ErrCode.number) (by decide)
    all_goals rfl
  · rintro i rfl hi hb hsel ht
    have hread := hostRead_buf_refused (s := { s with host := rest }) hb hi
    rw [refuseRequest_quiet (s := { s with host := rest }) hb hsel ht] at hread
    exact ⟨_, hread, rfl, rfl, rfl, rfl⟩
  · rintro rfl hb hop
    exact hostRead_shr_fault hb hop
  · intro hb h1 h2 h3
    refine hostRead_busy_fault hb (Bool.eq_false_iff.mpr fun h => ?_)
    rcases readableWhileBusy_iff.mp h with h | h | h
    · exact h1 h
    · exact h2 h
    · exact h3 h

end Sys2Proof.Machine
end

section
/-! PROOFS. What operations append to HIST: that they only append, and the order of the bits on the wire. -/

namespace Sys2Proof.Machine

/-! ### HIST only grows -/

theorem Kept.hist_prefix {w : Writes} {s t : State} (h : Kept w s t) : s.hist <+: t.hist := by
  obtain ⟨events, ht⟩ := h.grows
  exact ⟨events.reverse, by simp only [State.hist, ht, List.reverse_append]⟩

theorem hist_prefix_failExit (e : Raise) (s : State) : s.hist <+: (failExit e s).hist := by
  rw [failExit_eq, hist_emit]
  exact List.prefix_append _ _

/-- Neither way out of a run takes an event from HIST. -/
theorem Run.hist_prefix_exitBy {done : State → State} (hd : ∀ t, (done t).hist = t.hist) {s : State} {r : Run}
    (h : s.hist <+: r.state.hist) : s.hist <+: (r.exitBy done).hist := by
  cases r with
  | done t => exact (hd t).symm ▸ h
  | raised e t => exact h.trans (hist_prefix_failExit e t)

theorem hist_prefix_runStarted {w : Writes} {body : State → Run} (hk : ∀ s, Kept w s (body s).state) (i : Instr) (s : State) :
    s.hist <+: (runStarted i body s).hist := by
  cases hb : s.busy with
  | true => rw [runStarted_busy hb]
  | false =>
    rw [runStarted_idle hb]
    exact Run.hist_prefix_exitBy (done := successExit) (fun _ => rfl) (hk (latch i s)).hist_prefix

theorem hist_prefix_runCalled {body : State → Run} {s : State} (h : s.hist <+: (body s).state.hist) :
    s.hist <+: (runCalled body s).hist :=
  Run.hist_prefix_exitBy (fun _ => rfl) h

/-- An internal operation only appends to HIST: the codec touches no line, SELECT and DESELECT as `Kept` says. -/
theorem exec_internal_hist {i : Instr} (hi : i.name.startable = false) (s : State) :
    ∃ t, exec i s = .next t ∧ s.hist <+: t.hist := by
  have hsame : s.hist <+: s.hist := List.prefix_refl _
  cases i
  case encode cmd =>
    refine ⟨_, rfl, hist_prefix_runCalled ?_⟩
    unfold encodeThen
    split_ifs <;> exact hsame
  case declen h => exact ⟨_, rfl, hist_prefix_runCalled (declen_kept (w := { layout := true }) rfl h s).hist_prefix⟩
  case validate f short => exact ⟨_, rfl, hist_prefix_runCalled hsame⟩
  case decode f =>
    refine ⟨_, rfl, hist_prefix_runCalled ?_⟩
    unfold decodeStep
    split <;> exact hsame
  case ackcmp a => exact ⟨_, rfl, hist_prefix_runCalled hsame⟩
  case select => exact ⟨_, rfl, hist_prefix_runCalled (select_kept {} s).hist_prefix⟩
  case deselect => exact ⟨_, rfl, hist_prefix_runCalled (deselect_kept {} s).hist_prefix⟩
  all_goals exact absurd hi.symm Bool.false_ne_true

theorem exec_hist_prefix (i : Instr) (s : State) : ∃ t, exec i s = .next t ∧ s.hist <+: t.hist := by
  cases hi : i.name.startable with
  | false => exact exec_internal_hist hi s
  | true =>
    obtain ⟨body, hbody, hx⟩ := exec_started hi
    exact ⟨_, hx s, hist_prefix_runStarted hbody.kept i s⟩

/-- Settles O17: HIST after an operation begins with HIST before it, for the started and the internal ones. -/
theorem historyOnlyGrows : Obligations.HistoryOnlyGrows := by
  intro i s
  obtain ⟨t, hx, events, ht⟩ := exec_hist_prefix i s
  exact ⟨t, events, hx, ht.symm⟩

/-! ### Bits on the wire -/

/-- Write cells present their bits at the rising edges of CLK, in the order of the cells. -/
theorem risingEdgeLevels_writeCells (f : Nat → Bool) (cells : List Nat) (clk dout : Bool) :
    risingEdgeLevels clk dout (cells.flatMap fun i => [.clk false, .dout (f i), .clk true]) = cells.map f := by
  induction cells generalizing clk dout with
  | nil => rfl
  | cons i rest ih => simp [risingEdgeLevels, ih]

theorem risingEdgeLevels_writeEvents (v : Byte) (clk dout : Bool) : risingEdgeLevels clk dout (writeEvents v) = wireBits v :=
  risingEdgeLevels_writeCells v.getLsbD (List.range 8) clk dout

/-- Read cells sample their bits in the order of the cells, whichever the order of events in each (D7). -/
theorem sampledBits_readCells (c : Config) (f : Nat → Bool) (cells : List Nat) :
    sampledBits (cells.flatMap fun i => readCellEvents c (f i)) = cells.map f := by
  induction cells with
  | nil => rfl
  | cons i rest ih =>
    rw [List.flatMap_cons, List.map_cons, ← ih, readCellEvents]
    split_ifs <;> rfl

theorem sampledBits_readEvents (c : Config) (v : Byte) : sampledBits (readEvents c v) = wireBits v :=
  sampledBits_readCells c v.getLsbD (List.range 8)

/-- Settles O22: the events are those of `wrbyte_eq` and `rdbyte_eq`, read cell by cell. -/
theorem bytesOnTheWire : Obligations.BytesOnTheWire := by
  intro s hb
  constructor
  · intro v
    have hx : exec (.wrbyte v) s = .next (successExit (wrbyte v (latch (.wrbyte v) s))) :=
      congrArg Host.Outcome.next (runStarted_pure hb)
    rw [wrbyte_eq] at hx
    exact ⟨_, writeEvents v, hx, hist_emit _ _, rfl, risingEdgeLevels_writeEvents v s.clk s.dout⟩
  · have hx : exec .rdbyte s = .next (successExit (rdbyte (latch .rdbyte s))) := congrArg Host.Outcome.next (runStarted_pure hb)
    rw [rdbyte_eq] at hx
    exact ⟨_, readEvents s.cfg ((latch .rdbyte s).chip 0), hx, hist_emit _ _, sampledBits_readEvents _ _⟩

end Sys2Proof.Machine
end

section
/-! PROOFS. Where the machine stops: every operation answers a next state, and the HOST's port stops for the named reasons only. -/

namespace Sys2Proof.Machine

theorem exec_next (i : Instr) (s : State) : ∃ t, exec i s = .next t :=
  (exec_hist_prefix i s).imp fun _ h => h.1

/-- Bytes whose OPSEL names an operation decode to an instruction, or are malformed for that operation (R90, log entry 9). -/
theorem decode_named {b : Byte} {n : OpName} (h : OpName.ofOpsel b = some n) (bs : List Byte) :
    (∃ i extra, decode (b :: bs) = .op i extra) ∨ decode (b :: bs) = .malformed n := by
  simp only [decode, h]
  cases decodeOperands n bs with
  | none => exact .inr rfl
  | some p => exact .inl ⟨p.1, p.2, rfl⟩

/-- A START of an operation the HOST may start whose operand bytes are no operand record of it (log entry 9). -/
def HostAction.MalformedStart (a : HostAction) : Prop :=
  ∃ opsel operands n, a = .start opsel operands ∧ n.opsel = opsel ∧ n.startable = true ∧
    decode (opsel :: operands) = .malformed n

theorem hostStart_reserved {opsel : Byte} {s : State} (hb : s.busy = false) (hn : OpName.ofOpsel opsel = none)
    (operands : List Byte) : hostStart opsel operands s = .next (refuseRequest .badOpsel s) := by
  simp only [hostStart, hb, hn, Bool.false_eq_true, if_false]

theorem hostStart_internal {opsel : Byte} {n : OpName} {s : State} (hb : s.busy = false)
    (hn : OpName.ofOpsel opsel = some n) (hst : n.startable = false) (operands : List Byte) :
    hostStart opsel operands s = .next (refuseRequest .notStartable s) := by
  simp only [hostStart, hb, hn, hst, Bool.false_eq_true, if_false]

theorem hostStart_malformed {opsel : Byte} {operands : List Byte} {n : OpName} {s : State} (hb : s.busy = false)
    (hn : OpName.ofOpsel opsel = some n) (hst : n.startable = true) (hd : decode (opsel :: operands) = .malformed n) :
    hostStart opsel operands s = .refused .malformedOperands := by
  simp only [hostStart, hb, hn, hst, hd, if_true, Bool.false_eq_true, if_false]

/-- Everything a START can do at the port: it answers a next state, or is refused as malformed. -/
theorem hostStart_cases (opsel : Byte) (operands : List Byte) (s : State) :
    (∃ t, hostStart opsel operands s = .next t) ∨
    (hostStart opsel operands s = .refused .malformedOperands ∧ (HostAction.start opsel operands).MalformedStart) := by
  cases hb : s.busy with
  | true => exact .inl ⟨s, hostStart_busy hb⟩
  | false =>
    cases hn : OpName.ofOpsel opsel with
    | none => exact .inl ⟨_, hostStart_reserved hb hn operands⟩
    | some n =>
      cases hst : n.startable with
      | false => exact .inl ⟨_, hostStart_internal hb hn hst operands⟩
      | true =>
        rcases decode_named hn operands with ⟨i, extra, hd⟩ | hd
        · have hi : i.name = n := Option.some.inj ((OpName.ofOpsel_opsel _).symm.trans ((decode_op hd).1 ▸ hn))
          obtain ⟨t, hx⟩ := exec_next i s
          exact .inl ⟨t, (hostStart_decoded hb hd (hi ▸ hst)).trans hx⟩
        · exact .inr ⟨hostStart_malformed hb hn hst hd, opsel, operands, n, rfl, OpName.opsel_of_ofOpsel hn, hst, hd⟩

theorem hostWrite_cases (t s : State) :
    (∃ u, hostWrite t s = .next u) ∨ (hostWrite t s = .fault .hostAccessWhileBusy ∧ s.busy = true) := by
  cases hb : s.busy with
  | false => exact .inl ⟨t, hostWrite_idle hb t⟩
  | true => exact .inr ⟨if_pos hb, rfl⟩

theorem hostRead_cases (r : HostReg) (s : State) :
    (∃ t, hostRead r s = .next t) ∨ (hostRead r s = .fault .hostAccessWhileBusy ∧ s.busy = true) ∨
    (hostRead r s = .fault .shrNotReadable ∧ s.op ≠ some .rdbyte) := by
  by_cases hm : s.busy = true ∧ r.readableWhileBusy = false
  · exact .inr (.inl ⟨hostRead_busy_fault hm.1 hm.2, hm.1⟩)
  have hb : s.busy = false ∨ r.readableWhileBusy = true := by
    rwa [not_and_or, Bool.not_eq_true, Bool.not_eq_false] at hm
  cases r
  case shr =>
    by_cases hop : s.op = some .rdbyte
    · exact .inl ⟨_, hostRead_view hb (fun _ => hop) nofun⟩
    · exact .inr (.inr ⟨hostRead_shr_fault (hb.resolve_right nofun) hop, hop⟩)
  case buf i =>
    by_cases hi : i < s.cfg.bufsz
    · exact .inl ⟨_, hostRead_view hb nofun fun j hj => HostReg.buf.inj hj ▸ hi⟩
    · exact .inl ⟨_, hostRead_buf_refused (hb.resolve_right nofun) (Nat.not_lt.mp hi)⟩
  all_goals exact .inl ⟨_, hostRead_view hb nofun nofun⟩

/-- How the port answers an action: a next state, or one of the three stops, each with what the HOST did to meet it. -/
inductive PortAnswer (a : HostAction) (s : State) : Host.Outcome State Fault Refusal → Prop where
  | next (t : State) : PortAnswer a s (.next t)
  | malformed (h : a.MalformedStart) : PortAnswer a s (.refused .malformedOperands)
  | busy (h : s.busy = true) : PortAnswer a s (.fault .hostAccessWhileBusy)
  | shr (h : s.op ≠ some .rdbyte) : PortAnswer a s (.fault .shrNotReadable)

theorem hostWrite_answer (a : HostAction) (t s : State) : PortAnswer a s (hostWrite t s) := by
  rcases hostWrite_cases t s with ⟨u, h⟩ | ⟨h, hb⟩ <;> rw [h]
  · exact .next u
  · exact .busy hb

theorem hostAct_answer (a : HostAction) (s : State) : PortAnswer a s (hostAct a s) := by
  cases a with
  | start opsel operands =>
    show PortAnswer _ s (hostStart opsel operands s)
    rcases hostStart_cases opsel operands s with ⟨t, h⟩ | ⟨h, hm⟩ <;> rw [h]
    · exact .next t
    · exact .malformed hm
  | setBudget v => exact hostWrite_answer _ _ s
  | setMode v => exact hostWrite_answer _ _ s
  | writeBuf i v => exact hostWrite_answer _ _ s
  | read r =>
    show PortAnswer _ s (hostRead r s)
    rcases hostRead_cases r s with ⟨t, h⟩ | ⟨h, hb⟩ | ⟨h, hop⟩ <;> rw [h]
    · exact .next t
    · exact .busy hb
    · exact .shr hop
  | reset => exact .next _

/-- A step with no action pending changes nothing; with one it answers as the port does. -/
theorem step_answer (s : State) :
    step s = .next s ∨ ∃ a rest, s.host = a :: rest ∧ PortAnswer a { s with host := rest } (step s) := by
  cases hs : s.host with
  | nil => exact .inl (step_nil hs)
  | cons a rest =>
    rw [step_cons hs]
    exact .inr ⟨a, rest, rfl, hostAct_answer a _⟩

/-- Settles O10: an operation always answers a next state (`exec_next`), and the port stops as `PortAnswer` lists. -/
theorem stopsOnlyAtTheHostPort : Obligations.StopsOnlyAtTheHostPort := by
  refine ⟨exec_next, fun s r h => ?_, fun s f h => ?_⟩
  · rcases step_answer s with hn | ⟨a, rest, hs, ha⟩
    · cases h.symm.trans hn
    · rw [h] at ha
      cases ha with
      | malformed hm =>
        obtain ⟨opsel, operands, n, rfl, hn, hst, hd⟩ := hm
        exact ⟨rfl, opsel, operands, rest, n, hs, hn, hst, hd⟩
  · rcases step_answer s with hn | ⟨a, rest, hs, ha⟩
    · cases h.symm.trans hn
    · rw [h] at ha
      cases ha with
      | busy hb => exact .inl ⟨rfl, hb⟩
      | shr hop => exact .inr ⟨rfl, hop⟩

end Sys2Proof.Machine
end

section
/-! PROOFS. The host port's encoding and decoding of a START are inverse to each other, and the selectors that name no operation or
none the HOST may start. -/

namespace Sys2Proof

theorem decode_of_operands {n : OpName} {bs rest : List Byte} {i : Instr} (h : decodeOperands n bs = some (i, rest)) :
    decode (n.opsel :: bs) = .op i rest := by
  simp only [decode, OpName.ofOpsel_opsel, h]

theorem decode_reserved {b : Byte} (h : OpName.ofOpsel b = none) (bs : List Byte) : decode (b :: bs) = .reserved b := by
  simp only [decode, h]

/-- Settles O1: OPSEL names the operation, and its own operands are read back from its operand record. -/
theorem decodeOfEncode : Obligations.DecodeOfEncode := fun i rest hw =>
  decode_of_operands (decodeOperands_operandBytes i rest hw)

/-- Settles O2: with no byte there is nothing to decode; otherwise `decode_op` says what the bytes were. -/
theorem encodeOfDecode : Obligations.EncodeOfDecode := by
  intro bytes rest i h
  cases bytes with
  | nil => cases h
  | cons b bs =>
    obtain ⟨hopsel, hwf, hoperands⟩ := decode_op h
    exact ⟨hwf, congrArg₂ List.cons hopsel hoperands⟩

/-- Settles O3: each word is the encoding of its operation, and the last three selectors name none. -/
theorem handWrittenWords : Obligations.HandWrittenWords := by
  refine ⟨decodeOfEncode (.wrbyte 0xA5) [] rfl, decodeOfEncode .rdbyte [] rfl,
    decodeOfEncode (.validate [0xAA, 0x55] true) [] rfl,
    decodeOfEncode (.ackcmp [0x00, 0x00, 0xFF, 0x00, 0xFF, 0x00]) [] rfl,
    decodeOfEncode (.wrframe 38) [] rfl, decodeOfEncode (.xchgf 1 12) [] rfl,
    decodeOfEncode (.auth 0x01 0x60 0x04 [0xA0, 0xA1, 0xA2, 0xA3, 0xA4, 0xA5] 0x04000102) [] rfl,
    decodeOfEncode (.wrreg 0x6302 0x80) [] rfl, ?_, ?_, ?_⟩
  all_goals exact decode_reserved (by decide) []

end Sys2Proof

namespace Sys2Proof.Machine

/-- Settles O6: both selectors end in a refused request, which between operations drives no line. -/
theorem unstartableOpselRefused : Obligations.UnstartableOpselRefused := by
  intro s opsel operands rest hb hsel ht hs
  rw [step_cons hs]
  have hquiet := refuseRequest_quiet (s := { s with host := rest }) hb hsel ht
  constructor
  · intro hn
    have hx := hostStart_reserved (s := { s with host := rest }) hb (OpName.ofOpsel_none hn) operands
    rw [hquiet] at hx
    exact ⟨_, hx, rfl, rfl, rfl, rfl⟩
  · rintro ⟨n, rfl, hn⟩
    have hx := hostStart_internal (s := { s with host := rest }) hb (OpName.ofOpsel_opsel n) hn operands
    rw [hquiet] at hx
    exact ⟨_, hx, rfl, rfl, rfl, rfl⟩

end Sys2Proof.Machine
end

section
/-! PROOFS. The frame ENCODE returns, as the Frame Codec's own DECODE reads it. -/

namespace Sys2Proof.Machine

/-- ENCODE of a command it accepts returns the frame, and leaves the running checksum in CKS (R140, R141). -/
theorem exec_encode {cmd : List Byte} (h1 : 1 ≤ cmd.length) (h2 : cmd.length ≤ 254) (s : State) :
    exec (.encode cmd) s =
      .next { s with cks := runningChecksum s.cfg cmd, ret := .frame (frameOf s.cfg cmd) } := by
  simp only [exec, execEncode, runCalled, encodeThen, encodable_of h1 h2, if_true]

/-- DECODE of a frame that passes its tests (R144). -/
theorem exec_decode_ok {f params : List Byte} {dir opcode : Byte} {s : State}
    (h : decodeFrame s.cfg f = .ok (dir, opcode, params)) :
    exec (.decode f) s = .next { s with ret := .decoded dir opcode params } := by
  simp only [exec, execDecode, runCalled, decodeStep, h]

/-- Settles O25: the frame passes VALIDATE, which is both checksum laws, and DECODE. -/
theorem frameRoundTrip : Obligations.FrameRoundTrip := by
  intro cmd s h1 h2
  obtain ⟨-, -, -, hlcs, hdcs⟩ := (validFrame_iff (frameOf s.cfg cmd) false 3 rfl).mp (frame_valid s.cfg h2)
  rw [frame_len h2] at hdcs
  exact ⟨_, frameOf s.cfg cmd, exec_encode h1 h2 s, rfl, frameOf_length s.cfg cmd, hlcs, hdcs,
    exec_decode_ok (decodeFrame_frameOf s.cfg h1 h2)⟩

end Sys2Proof.Machine
end

section
/-! PROOFS. Lengths outside their ranges, refused before any line event. -/

namespace Sys2Proof.Machine

/-- A started operation that raises Refused(BadOperand) before it has done anything: between operations the failure exit drives no
line and moves no TSTATE (R103, R240). -/
theorem runStarted_badOperand {i : Instr} {body : State → Run} {s : State} (hb : s.busy = false) (hsel : s.sel = false)
    (ht : s.tstate.inFlight = false) (hg : i.name ≠ .getfw) (hl : i.name ≠ .listpt)
    (h : body (latch i s) = .raised (.refused .badOperand) (latch i s)) :
    runStarted i body s = ({ s with rcount := 0, readDone := false } : State).failed i .refused 3 := by
  rw [runStarted_raised hb h, failExit_eq]
  apply State.ext <;> simp [State.failed, hsel, ht, hg, hl, Raise.code, Raise.info, RefusedReason.code]

theorem wrframe_refused {n : Nat} {s : State} (h : n < 1 ∨ n > s.cfg.cmdmax) :
    wrframe n s = .raised (.refused .badOperand) s := by
  simp only [wrframe, badCommandLength_eq_true h, if_true]

theorem sendcmdAlone_refused {n : Nat} {s : State} (h : n < 1 ∨ n > s.cfg.cmdmax) :
    sendcmdAlone n s = .raised (.refused .badOperand) s := by
  rw [sendcmdAlone, sendcmd_refused h, Run.andThen_raised]

theorem rdfix_refused {r : Nat} {s : State} (h : s.cfg.bufsz < r) : rdfix r s = .raised (.refused .badOperand) s :=
  if_pos h

/-- Settles O32: each operation tests its lengths first, on the state START has latched. -/
theorem badLengthsRefused : Obligations.BadLengthsRefused := by
  intro n r s hb hsel ht
  have refused := fun (i : Instr) (body : State → Run) => runStarted_badOperand (i := i) (body := body) hb hsel ht
  constructor
  · intro hn
    simp only [List.forall_mem_cons, List.not_mem_nil, false_implies, implies_true, and_true]
    exact ⟨congrArg _ (refused (.wrframe n) _ nofun nofun (wrframe_refused hn)),
      congrArg _ (refused (.sendcmd n) _ nofun nofun (sendcmdAlone_refused hn)),
      congrArg _ (refused (.xchgf n r) _ nofun nofun (xchgf_refused (hn.imp_right .inl))),
      congrArg _ (refused (.xchgv n) _ nofun nofun (xchgv_refused hn))⟩
  · intro hr
    simp only [List.forall_mem_cons, List.not_mem_nil, false_implies, implies_true, and_true]
    exact ⟨congrArg _ (refused (.rdfix r) _ nofun nofun (rdfix_refused hr)),
      congrArg _ (refused (.xchgf n r) _ nofun nofun (xchgf_refused (.inr (.inr hr))))⟩

end Sys2Proof.Machine
end

section
/-! PROOFS. The bit cells of a byte on the wire. -/

namespace Sys2Proof.Machine

/-- A sequence of `n` cells, written with the index bounded or not. -/
theorem flatten_ofFn_eq_flatMap_range {α : Type} (n : Nat) (cell : Nat → List α) :
    (List.ofFn fun i : Fin n => cell i).flatten = (List.range n).flatMap cell := by
  rw [← List.map_coe_finRange_eq_range, List.flatMap_map, List.ofFn_eq_map, List.flatMap]

/-- One cell of WRBYTE (R130). -/
def writeCellEvents (b : Bool) : List Event := [.clk false, .dout b, .clk true]

theorem writeEvents_cells (v : Byte) :
    writeEvents v = (List.ofFn fun i : Fin 8 => writeCellEvents (v.getLsbD i)).flatten :=
  (flatten_ofFn_eq_flatMap_range 8 fun i => writeCellEvents (v.getLsbD i)).symm

theorem readEvents_cells (c : Config) (v : Byte) :
    readEvents c v = (List.ofFn fun i : Fin 8 => readCellEvents c (v.getLsbD i)).flatten :=
  (flatten_ofFn_eq_flatMap_range 8 fun i => readCellEvents c (v.getLsbD i)).symm

theorem risingEdgeLevels_writeCellEvents (b clk dout : Bool) : risingEdgeLevels clk dout (writeCellEvents b) = [b] := by
  cases clk <;> rfl

/-- One low-then-high excursion of CLK, whichever side of the falling edge the sample is taken on (R131, D7). -/
theorem readCellEvents_clk (c : Config) (b : Bool) :
    (readCellEvents c b).filter (fun e => e == .clk false || e == .clk true) = [.clk false, .clk true] := by
  unfold readCellEvents
  split_ifs <;> rfl

theorem risingEdgeLevels_readCellEvents (c : Config) (b clk dout : Bool) :
    risingEdgeLevels clk dout (readCellEvents c b) = [dout] := by
  unfold readCellEvents
  split_ifs <;> cases clk <;> rfl

theorem sampledBits_readCellEvents (c : Config) (b : Bool) : sampledBits (readCellEvents c b) = [b] := by
  unfold readCellEvents
  split_ifs <;> rfl

/-- Settles O48: the events of `wrbyte_eq` and `rdbyte_eq`, cut into their eight cells. -/
theorem eightCellsPerByte : Obligations.EightCellsPerByte := by
  intro s hb
  constructor
  · intro v
    have hx : exec (.wrbyte v) s = .next (successExit (wrbyte v (latch (.wrbyte v) s))) :=
      congrArg Host.Outcome.next (runStarted_pure hb)
    rw [wrbyte_eq] at hx
    refine ⟨_, fun i => writeCellEvents (v.getLsbD i), hx, ?_, fun _ =>
      ⟨rfl, risingEdgeLevels_writeCellEvents _, rfl⟩⟩
    rw [← writeEvents_cells]
    exact hist_emit _ _
  · have hx : exec .rdbyte s = .next (successExit (rdbyte (latch .rdbyte s))) := congrArg Host.Outcome.next (runStarted_pure hb)
    rw [rdbyte_eq] at hx
    refine ⟨_, fun i => readCellEvents s.cfg (((latch .rdbyte s).chip 0).getLsbD i), hx, ?_, fun _ =>
      ⟨readCellEvents_clk _ _, risingEdgeLevels_readCellEvents _ _, sampledBits_readCellEvents _ _⟩⟩
    rw [← readEvents_cells]
    exact hist_emit _ _

end Sys2Proof.Machine
end

section
/-! PROOFS. Catalog operations whose exchange the CHIP answers and whose decode step accepts the response. -/

namespace Sys2Proof.Machine

/-- An operation that ends with an exchange the CHIP answers and a decode step that accepts what the exchange leaves and writes
nothing (R190, R208). -/
theorem runStarted_exchanged {i : Instr} {body decodes : State → Run} {cmd : List Byte} {r p q : Nat} {s : State}
    (hb : s.busy = false) (hc : s.cfg.Ok) (h1 : 1 ≤ cmd.length) (h2 : cmd.length ≤ s.cfg.cmdmax) (hr : r ≤ s.cfg.bufsz)
    (ha : Answered s 0 p q) (hbody : body (latch i s) = (exchange cmd r (latch i s)).andThen decodes)
    (hacc : ∀ t, t.cfg = s.cfg → (∀ j, t.bufByte j = s.bufAfter cmd r (p + q + 8) j) → decodes t = .done t) :
    (∀ j, (runStarted i body s).bufByte j = s.bufAfter cmd r (p + q + 8) j) ∧
    { runStarted i body s with buf := s.buf } = (s.afterExchange cmd r p q).succeeded i := by
  obtain ⟨-, hsize, hmax, -⟩ := hc.1
  obtain ⟨t, hx, hbuf, ht⟩ := exchange_latched (i := i) h1 h2 (h2.trans hsize) (h2.trans hmax) hr ha
  have hcfg : t.cfg = s.cfg := by rw [ht]; rfl
  rw [hx, Run.andThen_done, hacc t hcfg hbuf] at hbody
  rw [runStarted_done hb hbody]
  refine ⟨fun j => ?_, ?_⟩
  · rw [successExit_bufByte, hbuf]
  · rw [ht]
    rfl

/-- The tests of AUTH, RDBLK and WRBLK on a response that carries the echo and status 0 (R197 to R199). -/
theorem expectExchangeEcho_accepts {cmd : List Byte} {r p q : Nat} {s t : State} (h8 : 8 ≤ r) (hr : r ≤ s.cfg.bufsz)
    (h6 : s.chip (p + q + 14) = s.cfg.echoDataex) (h7 : s.chip (p + q + 15) = 0) (hcfg : t.cfg = s.cfg)
    (hbuf : ∀ j, t.bufByte j = s.bufAfter cmd r (p + q + 8) j) : expectExchangeEcho t = .done t := by
  have b6 : t.bufByte 6 = t.cfg.echoDataex := by rw [hbuf, bufAfter_of_lt (by omega), hcfg, ← h6]
  have b7 : t.bufByte 7 = 0 := by rw [hbuf, bufAfter_of_lt (by omega), ← h7]
  rw [expectExchangeEcho_eq (by rw [hcfg]; omega), if_pos b6, if_pos b7]

/-- Settles O49: the 14 bytes are the command the operation stages, and its two tests see bytes 6 and 7 of the response. -/
theorem authAccepted : Obligations.AuthAccepted := by
  rintro tg keysel blk k0 k1 k2 k3 k4 k5 cid s p q i cmd rfl rfl hb hc ha h6 h7
  have ⟨hpos, hmax⟩ := catalogCommand_length hc (i := .auth tg keysel blk [k0, k1, k2, k3, k4, k5] cid) rfl rfl
  have ⟨_, ⟨_, _, _, ⟨h8, hr⟩, _⟩, _⟩ := hc
  exact ⟨_, rfl, runStarted_exchanged hb hc hpos hmax hr ha rfl fun t => expectExchangeEcho_accepts h8 hr h6 h7⟩

/-- Settles O51: as AUTH, with the 20 bytes of this operation's own command. -/
theorem wrblkAccepted : Obligations.WrblkAccepted := by
  rintro tg blk data s p q cmd hd rfl hb hc ha h6 h7
  have ⟨hpos, hmax⟩ := catalogCommand_length hc (i := .wrblk tg blk data) (decide_eq_true hd) rfl
  have ⟨_, ⟨_, _, _, _, _, ⟨h8, hr⟩, _⟩, _⟩ := hc
  exact ⟨_, rfl, runStarted_exchanged hb hc hpos hmax hr ha rfl fun t => expectExchangeEcho_accepts h8 hr h6 h7⟩

end Sys2Proof.Machine
end

section
/-! PROOFS. The phases of an exchange started one by one. Each START latches and each phase ends by the success exit, which the
composite does once; the phases themselves read none of the registers written so. -/

namespace Sys2Proof.Machine

/-! ### Each phase, started by the HOST -/

/-- The wait of a CHIP that is ready at the poll after `p` (R164). -/
def waited (p : Nat) (s : State) : State := polled p p { s with elapsed := 0 }

/-- What a WRFRAME the HOST starts leaves (R162). -/
def startedWrframe (n : Byte) (s : State) : State :=
  successExit (sentFrame (s.bufBytes 0 n.toNat) (latch (.wrframe n) s))

/-- What a WAITRDY the HOST starts leaves, of a CHIP that is ready at the poll after `p` (R164). -/
def startedWaitrdy (p : Nat) (s : State) : State := successExit (waited p (latch .waitrdy s))

/-- What an RDACK the HOST starts leaves (R165). -/
def startedRdack (s : State) : State := successExit (ackTaken (latch .rdack s))

/-- What an RDFIX the HOST starts leaves (R166). -/
def startedRdfix (r : Byte) (s : State) : State := successExit (fixedRead r.toNat (latch (.rdfix r) s))

@[simp] theorem startedWrframe_tstate (n : Byte) (s : State) : (startedWrframe n s).tstate = s.tstate := rfl
@[simp] theorem startedWaitrdy_tstate (p : Nat) (s : State) : (startedWaitrdy p s).tstate = s.tstate := rfl
@[simp] theorem startedRdack_tstate (s : State) : (startedRdack s).tstate = s.tstate := rfl
@[simp] theorem startedRdfix_tstate (r : Byte) (s : State) : (startedRdfix r s).tstate = s.tstate := rfl

@[simp] theorem startedWrframe_cfg (n : Byte) (s : State) : (startedWrframe n s).cfg = s.cfg := rfl
@[simp] theorem startedWaitrdy_cfg (p : Nat) (s : State) : (startedWaitrdy p s).cfg = s.cfg := rfl
@[simp] theorem startedRdack_cfg (s : State) : (startedRdack s).cfg = s.cfg := rfl

theorem exec_wrframe_done {n : Byte} {s : State} (hb : s.busy = false) (h1 : 1 ≤ n.toNat) (h2 : n.toNat ≤ s.cfg.cmdmax)
    (h3 : n.toNat ≤ s.cfg.bufsz) (h4 : n.toNat ≤ 254) : exec (.wrframe n) s = .next (startedWrframe n s) :=
  congrArg _ (runStarted_done hb (wrframe_done (s := latch (.wrframe n) s) h1 h2 h3 h4))

theorem exec_waitrdy_ready {p : Nat} {s : State} (hb : s.busy = false) (h : ReadyAfter s 0 p) :
    exec .waitrdy s = .next (startedWaitrdy p s) :=
  congrArg _ (runStarted_done hb (waitrdy_ready (readyAfter_latch.mpr h)))

theorem exec_rdack_matches {s : State} (hb : s.busy = false) (h : s.chipBytes 0 6 = s.cfg.ack.toList) :
    exec .rdack s = .next (startedRdack s) :=
  congrArg _ (runStarted_done hb (rdack_matches ((chipBytes_latch .rdack s 0 6).trans h)))

theorem exec_rdfix_done {r : Byte} {s : State} (hb : s.busy = false) (h : r.toNat ≤ s.cfg.bufsz) :
    exec (.rdfix r) s = .next (startedRdfix r s) :=
  congrArg _ (runStarted_done hb (rdfix_done (s := latch (.rdfix r) s) h))

/-- XCHGF of a command the CHIP answers (R169). -/
theorem exec_xchgf_answered {n r : Byte} {p q : Nat} {s : State} (hb : s.busy = false) (h1 : 1 ≤ n.toNat)
    (h2 : n.toNat ≤ s.cfg.cmdmax) (h3 : n.toNat ≤ s.cfg.bufsz) (h4 : n.toNat ≤ 254) (hr : r.toNat ≤ s.cfg.bufsz)
    (ha : Answered s 0 p q) :
    exec (.xchgf n r) s = .next (successExit (exchanged (s.bufBytes 0 n.toNat) r.toNat p q (latch (.xchgf n r) s))) :=
  congrArg _ (runStarted_done hb (xchgf_answered (s := latch (.xchgf n r) s) h1 h2 h3 h4 hr (answered_latch.mpr ha)))

/-! ### Where the CHIP's stream stands between the phases -/

theorem readyAfter_of_shift {s t : State} {d q : Nat} (hc : ∀ j, t.chip j = s.chip (d + j)) (hcfg : t.cfg = s.cfg)
    (hb : t.budget = s.budget) : ReadyAfter t 0 q ↔ ReadyAfter s d q := by
  simp only [ReadyAfter, hcfg, hb, hc, Nat.zero_add]

theorem chip_startedWaitrdy (p : Nat) (s : State) (j : Nat) : (startedWaitrdy p s).chip j = s.chip (p + 1 + j) :=
  chip_of_drop rfl rfl j

theorem chip_startedRdack (s : State) (j : Nat) : (startedRdack s).chip j = s.chip (6 + j) :=
  chip_of_drop rfl rfl j

/-- RDACK finds the acknowledgement right after the first wait (R168). -/
theorem ack_after_wait {s : State} {p q : Nat} (ha : Answered s 0 p q) :
    (startedWaitrdy p s).chipBytes 0 6 = s.cfg.ack.toList := by
  rw [chipBytes_of_shift (chip_startedWaitrdy p s) 0 6, ← ha.2.1, Nat.zero_add, Nat.add_zero]

/-- The second wait polls from the byte after the acknowledgement on (R168). -/
theorem ready_after_ack {s : State} {p q : Nat} (ha : Answered s 0 p q) :
    ReadyAfter (startedRdack (startedWaitrdy p s)) 0 q := by
  have hc : ∀ j, (startedRdack (startedWaitrdy p s)).chip j = s.chip (0 + p + 7 + j) := by
    intro j
    rw [chip_startedRdack, chip_startedWaitrdy]
    congr 1
    omega
  exact (readyAfter_of_shift hc rfl rfl).mpr ha.2.2

/-! ### What no phase reads -/

/-- The two states differ at most in TSTATE, and in what START latches and the exits write (R28, R170, R240, R241). -/
def SameData (s t : State) : Prop :=
  { s with
    busy := t.busy, op := t.op, args := t.args, readDone := t.readDone, ok := t.ok, err := t.err, errinfo := t.errinfo
    tstate := t.tstate } = t

namespace SameData

variable {s t : State}

theorem buf (h : SameData s t) : s.buf = t.buf := by rw [← h]

theorem sentFrame (h : SameData s t) (cmd : List Byte) : SameData (sentFrame cmd s) (sentFrame cmd t) := by
  rw [← h]
  rfl

theorem waited (h : SameData s t) (p : Nat) : SameData (waited p s) (waited p t) := by
  rw [← h]
  rfl

theorem ackTaken (h : SameData s t) : SameData (ackTaken s) (ackTaken t) := by
  rw [← h]
  rfl

theorem fixedRead (h : SameData s t) (r : Nat) : SameData (fixedRead r s) (fixedRead r t) := by
  have hbuf := putBytes_buf_congr h.buf 0 (s.chipBytes 0 r)
  rw [← h] at hbuf ⊢
  apply State.ext
  case buf => exact hbuf
  all_goals rfl

theorem setTState (h : SameData s t) (ts : TState) : SameData s (setTState ts t) := by
  rw [← h]
  rfl

/-- Between two phases: the exit of one and the START of the next on one side, a write of TSTATE on the other. -/
theorem next (h : SameData s t) (i : Instr) (ts : TState) : SameData (latch i (successExit s)) (Machine.setTState ts t) := by
  rw [← h]
  rfl

/-- After the success exit of both sides only TSTATE, OP and ARGS can differ. -/
theorem successExit (h : SameData s t) (hd : s.readDone = t.readDone) :
    { successExit s with tstate := t.tstate, op := t.op, args := t.args } = successExit t := by
  rw [← h]
  simp only [Machine.successExit, hd]

end SameData

/-- What XCHGF leaves, phase by phase, with the TSTATE of each (R169, R170). -/
theorem exchanged_phases (cmd : List Byte) (r p q : Nat) (s : State) :
    exchanged cmd r p q s =
      setTState .success (fixedRead r (setTState .responseRead (waited q (setTState .awaitingReady2
        (ackTaken (setTState .ackRead (waited p (setTState .awaitingReady1 (sentFrame cmd (setTState .selecting s)))))))))) := by
  simp only [waited]
  rw [polled_sentFrame, ackTaken_firstWait, polled_ackPhase, fixedRead_secondWait]

/-- The phases started one by one and the exchange of R169 leave the same data. -/
theorem sameData_phases (n r : Byte) (p q : Nat) (s : State) (i : Instr) :
    SameData
      (fixedRead r.toNat (latch (.rdfix r) (startedWaitrdy q (startedRdack (startedWaitrdy p (startedWrframe n s))))))
      (exchanged (s.bufBytes 0 n.toNat) r.toNat p q (latch i s)) := by
  rw [exchanged_phases]
  have hstart : SameData (latch (.wrframe n) s) (setTState .selecting (latch i s)) := rfl
  have hframe := (hstart.sentFrame (s.bufBytes 0 n.toNat)).next .waitrdy .awaitingReady1
  have hwait := (hframe.waited p).next .rdack .ackRead
  have hack := hwait.ackTaken.next .waitrdy .awaitingReady2
  have hready := (hack.waited q).next (.rdfix r) .responseRead
  exact (hready.fixedRead r.toNat).setTState .success

/-- Settles O43: each phase finds the CHIP's stream where the composite does, and the data are the same after each. -/
theorem phasesByHandEqualExchange : Obligations.PhasesByHandEqualExchange := by
  intro n r s p q hb hc h1 h2 hr ha
  have ⟨⟨_, hsize, hmax, _⟩, _⟩ := hc
  have h3 := h2.trans hsize
  have h4 := h2.trans hmax
  have hsent : Answered (startedWrframe n s) 0 p q := ha
  refine ⟨_, _, _, _, _, _, exec_wrframe_done hb h1 h2 h3 h4, exec_waitrdy_ready rfl hsent.1,
    exec_rdack_matches rfl (ack_after_wait hsent), exec_waitrdy_ready rfl (ready_after_ack hsent),
    exec_rdfix_done rfl (by simpa using hr), exec_xchgf_answered hb h1 h2 h3 h4 hr ha, ?_, by simp⟩
  exact (sameData_phases n r p q s (.xchgf n r)).successExit (by rw [fixedRead_readDone, exchanged_readDone])

end Sys2Proof.Machine
end

section
/-! PROOFS. The lines between operations: each thing the HOST's port does with an action, while BUSY = 0, drives them as the events it
appends to HIST say, or clears both. -/

namespace Sys2Proof.Machine

/-! ### From what the lines do to what HIST says of them -/

/-- Events that drive the lines from one state to the next extend a history that has driven them to the first. -/
theorem OnLines.linesOk {s t : State} (h : OnLines s t) (hs : s.LinesOk) : t.LinesOk := by
  obtain ⟨events, ht, hr⟩ := h.replay
  rw [State.LinesOk, hist_of_trace ht, replayLines_append, hs]
  exact hr

/-! ### The exits -/

theorem successExit_lines {s : State} (hc : s.clk = true) : OnLines s (successExit s) := OnLines.of_same hc rfl rfl rfl rfl

/-- The failure exit lowers SEL only where it is up, so that its event is an edge (R240). -/
theorem failExitOf_lines (top : Option OpName) (e : Raise) {s : State} (hc : s.clk = true) :
    OnLines s (failExitOf top e s) := by
  rw [failExitOf_eq]
  refine OnLines.of_emit hc rfl ?_
  cases s.sel <;> simp [replayLines]

theorem refuseRequest_lines (r : RefusedReason) {s : State} (hc : s.clk = true) : OnLines s (refuseRequest r s) :=
  (OnLines.of_same (t := { s with readDone := false }) hc rfl rfl rfl rfl).trans (failExitOf_lines none _ hc)

/-- Pseudocode that leaves the lines tidy does so whichever exit ends it. -/
theorem Run.Tidy.exit_lines {up : Bool} {s : State} {r : Run} (h : r.Tidy up s) : OnLines s (r.exitBy successExit) := by
  have hr := h.lines
  cases r with
  | done t => exact hr.trans (successExit_lines hr.clk)
  | raised e t => exact hr.trans (failExitOf_lines t.op e hr.clk)

theorem exec_started_lines {i : Instr} {s t : State} (hi : i.name.startable = true) (hs : s.Quiescent)
    (hx : exec i s = .next t) : OnLines s t := by
  obtain ⟨hb, hsel, hc⟩ := hs
  obtain ⟨body, hbody, hexec⟩ := exec_started hi
  rw [hexec, runStarted_idle hb] at hx
  cases hx
  have hlatch : OnLines s (latch i s) := OnLines.of_same hc rfl rfl rfl rfl
  exact hlatch.trans (hbody.lines (latch i s) hc hsel).exit_lines

/-! ### What the port does while BUSY = 0 -/

/-- The next states the HOST's port can give an action while BUSY = 0. -/
inductive IdleAction (s : State) : State → Prop where
  | refused (r : RefusedReason) : IdleAction s (refuseRequest r s)
  | started {i : Instr} {t : State} (hi : i.name.startable = true) (hx : exec i s = .next t) : IdleAction s t
  | setBudget (v : Half) : IdleAction s { s with budget := v }
  | setMode (v : Byte) : IdleAction s { s with mode := modeWritten v }
  | writeBuf {i : Nat} (v : Byte) (hi : i < s.cfg.bufsz) : IdleAction s { s with buf := Memory.put s.buf i v }
  | read (v : HostValue) : IdleAction s { s with hostData := some v }
  | reset : IdleAction s (applyReset s)

/-- An OPSEL names the operation that bytes beginning with it decode to. -/
theorem name_of_decode {b : Byte} {bs extra : List Byte} {n : OpName} {i : Instr} (hn : OpName.ofOpsel b = some n)
    (hd : decode (b :: bs) = .op i extra) : i.name = n := by
  obtain ⟨hb, -⟩ := decode_op hd
  rw [← hb, OpName.ofOpsel_opsel] at hn
  exact Option.some.inj hn

theorem hostStart_idle {opsel : Byte} {operands : List Byte} {s t : State} (hb : s.busy = false)
    (h : hostStart opsel operands s = .next t) : IdleAction s t := by
  cases hn : OpName.ofOpsel opsel with
  | none =>
    cases (hostStart_reserved hb hn operands).symm.trans h
    exact .refused _
  | some n =>
    cases hst : n.startable with
    | false =>
      cases (hostStart_internal hb hn hst operands).symm.trans h
      exact .refused _
    | true =>
      rcases decode_named hn operands with ⟨i, extra, hd⟩ | hd
      · have hi : i.name.startable = true := (name_of_decode hn hd).symm ▸ hst
        exact .started hi ((hostStart_decoded hb hd hi).symm.trans h)
      · cases (hostStart_malformed hb hn hst hd).symm.trans h

theorem hostWriteBuf_idle (i : Nat) (v : Byte) (s : State) : IdleAction s (hostWriteBuf i v s) := by
  by_cases hi : i < s.cfg.bufsz
  · rw [hostWriteBuf_of_lt hi]
    exact .writeBuf v hi
  · rw [hostWriteBuf_of_ge (Nat.not_lt.mp hi)]
    exact .refused _

theorem hostRead_idle {r : HostReg} {s t : State} (hb : s.busy = false) (h : hostRead r s = .next t) : IdleAction s t := by
  by_cases hbuf : ∀ i, r = .buf i → i < s.cfg.bufsz
  · by_cases hshr : r = .shr → s.op = some .rdbyte
    · cases (hostRead_view (.inl hb) hshr hbuf).symm.trans h
      exact .read _
    · obtain ⟨rfl, hop⟩ := Classical.not_imp.mp hshr
      cases (hostRead_shr_fault hb hop).symm.trans h
  · push Not at hbuf
    obtain ⟨i, rfl, hi⟩ := hbuf
    cases (hostRead_buf_refused hb hi).symm.trans h
    exact .refused _

theorem hostAct_idle {a : HostAction} {s t : State} (hb : s.busy = false) (h : hostAct a s = .next t) : IdleAction s t := by
  cases a with
  | start opsel operands => exact hostStart_idle hb h
  | setBudget v =>
    cases (hostWrite_idle hb _).symm.trans h
    exact .setBudget v
  | setMode v =>
    cases (hostWrite_idle hb _).symm.trans h
    exact .setMode v
  | writeBuf i v =>
    cases (hostWrite_idle hb _).symm.trans h
    exact hostWriteBuf_idle i v s
  | read r => exact hostRead_idle hb h
  | reset =>
    cases h
    exact .reset

/-- Every step from a state with BUSY = 0: nothing, or what the port does with the next action. -/
theorem step_idle {s t : State} (hb : s.busy = false) (h : step s = .next t) :
    t = s ∨ ∃ rest, IdleAction { s with host := rest } t := by
  cases hs : s.host with
  | nil =>
    cases (step_nil hs).symm.trans h
    exact .inl rfl
  | cons a rest => exact .inr ⟨rest, hostAct_idle hb ((step_cons hs).symm.trans h)⟩

/-! ### LinesOk -/

/-- A refusal and an operation drive the lines by their events, a RESET clears HIST and the lines together, and the HOST's other
accesses touch neither. -/
theorem IdleAction.linesOk {s t : State} (h : IdleAction s t) (hq : s.Quiescent) (hl : s.LinesOk) : t.LinesOk := by
  cases h with
  | refused r =>
    obtain ⟨-, -, hc⟩ := hq
    exact (refuseRequest_lines r hc).linesOk hl
  | started hi hx => exact (exec_started_lines hi hq hx).linesOk hl
  | setBudget v => exact hl
  | setMode v => exact hl
  | writeBuf v hi => exact hl
  | read v => exact hl
  | reset => rfl

/-- Settles O15: `step_idle` lists what a step can be, `IdleAction.linesOk` follows the lines through each. -/
theorem linesFollowHistoryAtEveryStep : Obligations.LinesFollowHistoryAtEveryStep := by
  intro s t hinv hl h
  obtain ⟨⟨hb, hline⟩, -⟩ := hinv
  rcases step_idle hb h with rfl | ⟨rest, ha⟩
  · exact hl
  · exact ha.linesOk ⟨hb, hline⟩ hl

end Sys2Proof.Machine
end

section
/-! PROOFS. The Bit Link's two operations, started by the HOST: all they leave. -/

namespace Sys2Proof.Machine

theorem exec_wrbyte_idle (v : Byte) {s : State} (hb : s.busy = false) :
    exec (.wrbyte v) s = .next (successExit (wrbyte v (latch (.wrbyte v) s))) :=
  congrArg Host.Outcome.next (runStarted_pure hb)

theorem exec_rdbyte_idle {s : State} (hb : s.busy = false) :
    exec .rdbyte s = .next (successExit (rdbyte (latch .rdbyte s))) :=
  congrArg Host.Outcome.next (runStarted_pure hb)

/-- RDBYTE in the bits it samples: they are the byte it assembles, and the levels in its events (R131). -/
theorem rdbyte_sampled (s : State) :
    rdbyte s =
      ({ s.afterBits 8 with shr := byteOfBits s.dinBit, bcnt := 8, clk := true } : State).emit
        ((List.range 8).flatMap fun i => readCellEvents s.cfg (s.dinBit i)) := by
  rw [rdbyte_eq, readEvents_chip, chip_zero]

/-- Settles O20: `wrbyte_eq` between the latch and the success exit. -/
theorem wrbyteEffect : Obligations.WrbyteEffect := by
  intro v s hb
  rw [exec_wrbyte_idle v hb, wrbyte_eq]
  rfl

/-- Settles O21: `rdbyte_sampled` between the latch and the success exit. -/
theorem rdbyteEffect : Obligations.RdbyteEffect := by
  intro s hb
  rw [exec_rdbyte_idle hb, rdbyte_sampled]
  rfl

end Sys2Proof.Machine
end

section
/-! PROOFS. The Frame Codec's five operations, run on their own: all they leave. -/

namespace Sys2Proof.Machine

/-! ### Internal operations (R15, R241) -/

theorem runCalled_done {body : State → Run} {s t : State} (h : body s = .done t) : runCalled body s = t := by
  rw [runCalled_eq, h]
  rfl

theorem runCalled_raised {body : State → Run} {s t : State} {e : Raise} (h : body s = .raised e t) :
    runCalled body s = failExit e t := by
  rw [runCalled_eq, h]
  rfl

/-! ### ENCODE (R140) -/

/-- The frame ENCODE returns, with its computed bytes as numbers (R93, R140). -/
theorem frameOf_eq (c : Config) {cmd : List Byte} (h : cmd.length ≤ 254) :
    frameOf c cmd =
      [c.pre, c.pre, c.start, BitVec.ofNat 8 (cmd.length + 1), BitVec.ofNat 8 (255 - cmd.length), c.dirH2C] ++ cmd ++
        [BitVec.ofNat 8 (256 - byteSum (c.dirH2C :: cmd) % 256), c.post] := by
  rw [frameOf, lcs_eq h, dcs_eq, lenOf]

theorem encodable_eq_false {cmd : List Byte} (h : cmd.length = 0 ∨ 254 < cmd.length) : encodable cmd = false :=
  decide_eq_false (by omega)

theorem exec_encode_refused {cmd : List Byte} (h : cmd.length = 0 ∨ 254 < cmd.length) (s : State) :
    exec (.encode cmd) s = .next (failExit (.refused .badOperand) s) :=
  congrArg Host.Outcome.next (runCalled_raised (if_neg (by rw [encodable_eq_false h]; exact Bool.false_ne_true)))

/-- Settles O23: the frame and the checksum in numbers, or the raise before either is written. -/
theorem encodeEffect : Obligations.EncodeEffect := by
  intro cmd s
  constructor
  · intro h1 h2
    rw [exec_encode h1 h2, runningChecksum_eq, frameOf_eq s.cfg h2]
  · intro h
    exact ⟨_, exec_encode_refused h s, failExit_ok _ s, failExit_err _ s, failExit_errinfo _ s, failExit_ret _ s⟩

/-! ### DECODE (R144) -/

/-- The two checksum laws of R95 on a byte sequence in the full layout. -/
abbrev ChecksumsHold (f : List Byte) : Prop :=
  ((byteAt f 3).toNat + (byteAt f 4).toNat) % 256 = 0 ∧ byteSum (slice f 5 ((byteAt f 3).toNat + 1)) % 256 = 0

/-- ERRINFO of the first test of R144 that a byte sequence fails; none if it passes them all. -/
def decodeReason (c : Config) (f : List Byte) : Option Byte :=
  if f.length < 9 then some 1
  else if ¬ (byteAt f 0 = c.pre ∧ byteAt f 1 = c.pre ∧ byteAt f 2 = c.start) then some 1
  else if (byteAt f 3).toNat < 2 ∨ f.length ≠ (byteAt f 3).toNat + 7 then some 2
  else if ¬ ChecksumsHold f then some 3
  else if byteAt f (6 + (byteAt f 3).toNat) ≠ c.post then some 1
  else none

/-- Where LEN accounts for the whole frame, VALIDATE has only the checksums left to test. -/
theorem validFrame_iff_checksums {f : List Byte} (h : ¬ ((byteAt f 3).toNat < 2 ∨ f.length ≠ (byteAt f 3).toNat + 7)) :
    validFrame f false = true ↔ ChecksumsHold f := by
  rw [validFrame_iff f false 3 rfl]
  exact ⟨fun ⟨_, _, _, hsums⟩ => hsums, fun hsums => ⟨by omega, by omega, by omega, hsums⟩⟩

/-- Everything DECODE can do: the three fields where every test passes, else the reason of the first test that fails. -/
theorem decodeFrame_cases (c : Config) (f : List Byte) :
    (decodeReason c f = none ∧
      decodeFrame c f = .ok (byteAt f 5, byteAt f 6, slice f 7 ((byteAt f 3).toNat - 2))) ∨
    (∃ r : MismatchReason, decodeReason c f = some r.code ∧ decodeFrame c f = .error r) := by
  have hfull := fullHeader_iff c f
  unfold decodeReason decodeFrame
  by_cases hlen : f.length < 9
  · exact .inr ⟨.badHeader, if_pos hlen, if_pos hlen⟩
  rw [if_neg hlen, if_neg hlen]
  by_cases hhead : byteAt f 0 = c.pre ∧ byteAt f 1 = c.pre ∧ byteAt f 2 = c.start
  swap
  · exact .inr ⟨.badHeader, if_pos hhead, if_pos (mt hfull.mp hhead)⟩
  rw [if_neg (not_not_intro hhead), if_neg (not_not_intro (hfull.mpr hhead))]
  by_cases htotal : (byteAt f 3).toNat < 2 ∨ f.length ≠ (byteAt f 3).toNat + 7
  · exact .inr ⟨.badLength, if_pos htotal, if_pos htotal⟩
  rw [if_neg htotal, if_neg htotal]
  have hvalid := validFrame_iff_checksums htotal
  by_cases hsums : ChecksumsHold f
  swap
  · exact .inr ⟨.badChecksum, if_pos hsums, if_pos (mt hvalid.mp hsums)⟩
  rw [if_neg (not_not_intro hsums), if_neg (not_not_intro (hvalid.mpr hsums))]
  by_cases hpost : byteAt f (6 + (byteAt f 3).toNat) = c.post
  · exact .inl ⟨if_neg (not_not_intro hpost), if_neg (not_not_intro hpost)⟩
  · exact .inr ⟨.badHeader, if_pos hpost, if_pos hpost⟩

theorem exec_decode_error {f : List Byte} {r : MismatchReason} {s : State} (h : decodeFrame s.cfg f = .error r) :
    exec (.decode f) s = .next (failExit (.responseMismatch r) s) :=
  congrArg Host.Outcome.next (runCalled_raised (by rw [decodeStep, h]))

/-- Settles O26: the two cases of `decodeFrame_cases`, an error by the failure exit. -/
theorem decodeEffect : Obligations.DecodeEffect := by
  intro f s
  rw [← decodeReason]
  rcases decodeFrame_cases s.cfg f with ⟨hreason, hf⟩ | ⟨r, hreason, hf⟩
  · rw [hreason]
    exact exec_decode_ok hf
  · rw [hreason]
    exact ⟨_, exec_decode_error hf, failExit_ok _ s, failExit_err _ s, failExit_errinfo _ s, failExit_busy _ s, failExit_sel _ s,
      failExit_ret _ s⟩

/-! ### DECLEN (R142) -/

theorem exec_declen_layout {h : List Byte} {s : State} {short : Bool} {n : Nat}
    (hl : responseLayout s.cfg s.quirk h = some (short, n)) :
    exec (.declen h) s = .next { s with short := short, tlen := n } :=
  congrArg Host.Outcome.next (runCalled_done (by rw [declen_layout, hl]))

theorem exec_declen_badHeader {h : List Byte} {s : State} (hl : responseLayout s.cfg s.quirk h = none) :
    exec (.declen h) s = .next (failExit (.responseMismatch .badHeader) s) :=
  congrArg Host.Outcome.next (runCalled_raised (by rw [declen_layout, hl]))

/-- Settles O27: `responseLayout` names the layout of the header, or none. -/
theorem declenEffect : Obligations.DeclenEffect := by
  intro h0 h1 h2 h3 h4 s
  refine ⟨fun hfull => exec_declen_layout (if_pos hfull), fun hfull ⟨hpre, hstart⟩ hquirk => exec_declen_layout ?_,
    fun hfull hshort => ⟨_, exec_declen_badHeader ?_, failExit_ok _ s, failExit_err _ s, failExit_errinfo _ s, failExit_busy _ s,
      failExit_sel _ s, failExit_short _ s, failExit_tlen _ s⟩⟩
  · exact (if_neg hfull).trans (if_pos ⟨hpre, hstart, hquirk⟩)
  · exact (if_neg hfull).trans (if_neg hshort)

/-! ### VALIDATE and ACKCMP (R143, R145) -/

theorem exec_validate (f : List Byte) (short : Bool) (s : State) :
    exec (.validate f short) s = .next { s with ret := .bit (validFrame f short) } := rfl

theorem exec_ackcmp (a : List Byte) (s : State) :
    exec (.ackcmp a) s = .next { s with ret := .bit (ackMatches s.cfg a) } := rfl

/-- ACKCMP byte by byte (R145). -/
theorem ackMatches_six (c : Config) (a0 a1 a2 a3 a4 a5 : Byte) :
    ackMatches c [a0, a1, a2, a3, a4, a5] =
      (a0 == c.ack[0] && a1 == c.ack[1] && a2 == c.ack[2] && a3 == c.ack[3] && a4 == c.ack[4] && a5 == c.ack[5]) := by
  have hack : c.ack.toList = [c.ack[0], c.ack[1], c.ack[2], c.ack[3], c.ack[4], c.ack[5]] :=
    List.ext_getElem (by simp) fun i h _ => by
      have hi : i < 6 := by simpa using h
      interval_cases i <;> simp
  rw [ackMatches, hack, Bool.eq_iff_iff]
  simp [and_assoc]

/-- Settles O28: the bit is VALIDATE's test in numbers, `validFrame_iff`. -/
theorem validateEffect : Obligations.ValidateEffect := by
  intro f short s b hb
  rw [exec_validate, Bool.eq_iff_iff.mpr ((validFrame_iff f short b hb).trans decide_eq_true_iff.symm)]

/-- Settles O29: the bit is ACKCMP's test, byte by byte. -/
theorem ackcmpEffect : Obligations.AckcmpEffect := by
  intro a0 a1 a2 a3 a4 a5 s
  rw [exec_ackcmp, ackMatches_six]

end Sys2Proof.Machine
end

section
/-! PROOFS. The transactions of the Transport Session, started by the HOST: all they leave, on either exit. -/

namespace Sys2Proof.Machine

theorem exec_select (s : State) : exec .select s = .next (select s) := rfl

theorem exec_deselect (s : State) : exec .deselect s = .next (deselect s) := rfl

/-- Settles O30: the closed forms of the two calls. -/
theorem selectDeselectEffect : Obligations.SelectDeselectEffect := fun s =>
  ⟨by rw [exec_select, select_eq, selectEvents], by rw [exec_deselect, deselect_eq]⟩

/-! ### The failure exit of an operation with no result of its own -/

/-- A transaction that raises before it has completed a read: between exchanges the failure exit moves no TSTATE, makes RCOUNT 0
and lowers SEL where it is up (R240). -/
theorem runStarted_failed {i : Instr} {body : State → Run} {e : Raise} {s t : State} (hb : s.busy = false)
    (h : body (latch i s) = .raised e t) (hg : i.name ≠ .getfw) (hl : i.name ≠ .listpt) (hop : t.op = some i.name)
    (hargs : t.args = i.operandBytes) (hr : t.readDone = false) (ht : t.tstate.inFlight = false) :
    runStarted i body s =
      (({ t with sel := false, rcount := 0 } : State).emit (if t.sel then [.sel false] else [])).failed i e.code e.info := by
  rw [runStarted_raised hb h, failExit_eq]
  apply State.ext <;> simp [State.failed, hg, hl, hop, hargs, hr, ht]

/-! ### WRFRAME -/

@[simp] theorem writeEvents_length (v : Byte) : (writeEvents v).length = 24 := rfl

theorem flatMap_writeEvents_length (bytes : List Byte) : (bytes.flatMap writeEvents).length = 24 * bytes.length := by
  simp [List.length_flatMap, Nat.mul_comm]

theorem frameEvents_length (c : Config) (cmd : List Byte) :
    (frameEvents c cmd).length = 2 + 24 * (cmd.length + 9) + 1 := by
  simp only [frameEvents, selectEvents, List.length_append, List.length_cons, List.length_nil, writeEvents_length,
    flatMap_writeEvents_length, frameOf_length]
  omega

theorem startedWrframe_eq (n : Byte) (s : State) :
    startedWrframe n s =
      (({ s with
          clk := true, dout := s.cfg.post.getLsbD 7, sel := false, shr := s.cfg.post, bcnt := 8
          cks := runningChecksum s.cfg (s.bufBytes 0 n.toNat), idx := n.toNat + 7, readDone := false } : State).emit
        (frameEvents s.cfg (s.bufBytes 0 n.toNat))).succeeded (.wrframe n) := by
  rw [startedWrframe, sentFrame, bufBytes_length]
  rfl

/-- Settles O31: `startedWrframe`, its frame between SELECT and DESELECT. -/
theorem wrframeEffect : Obligations.WrframeEffect := by
  intro n s hb hc h1 h2
  have ⟨⟨_, hsize, hmax, _⟩, _⟩ := hc
  refine ⟨?_, ?_⟩
  · rw [exec_wrframe_done hb h1 h2 (h2.trans hsize) (h2.trans hmax), startedWrframe_eq]
    rfl
  · rw [frameEvents_length, bufBytes_length]

/-! ### STATUS and WAITRDY -/

theorem exec_status_idle {s : State} (hb : s.busy = false) :
    exec .status s = .next (successExit (status (latch .status s))) :=
  congrArg Host.Outcome.next (runStarted_pure hb)

/-- Settles O33: `status_eq` between the latch and the success exit. -/
theorem statusEffect : Obligations.StatusEffect := by
  intro s hb
  rw [exec_status_idle hb, status_eq]
  rfl

theorem waitrdy_timeout {stage : Byte} {s : State} (hp : 0 < s.cfg.pollInterval)
    (hn : ∀ j ≤ s.maxWaits, s.chip j ≠ s.cfg.ready) :
    waitrdy stage s = .raised (.timeout stage) (polled s.maxWaits (s.maxWaits + 1) { s with elapsed := 0 }) := by
  rcases waitrdy_cases stage s hp with ⟨p, hle, _, hready, _⟩ | ⟨_, h⟩
  · exact absurd hready (hn p hle)
  · exact h

/-- What a wait leaves whose polls are charged from ELAPSED = 0 (R164). -/
theorem polled_elapsed_zero (p charged : Nat) (s : State) :
    polled p charged { s with elapsed := 0 } =
      ({ s.afterBits (8 * (p + 1)) with
          clk := true, dout := s.cfg.spiSR.getLsbD 7, sel := false, shr := s.chip p, bcnt := 8, stat := s.chip p
          elapsed := charged * s.cfg.pollInterval } : State).emit (waitEvents s.cfg (s.chipBytes 0 (p + 1))) := by
  apply State.ext
  case elapsed => exact Nat.zero_add _
  all_goals rfl

theorem chip_of_readyAfter {s : State} {p : Nat} (h : ReadyAfter s 0 p) : s.chip p = s.cfg.ready := by
  obtain ⟨_, _, hready⟩ := h
  rwa [Nat.zero_add] at hready

/-- A wait ends: the CHIP is ready at a poll the budget pays for, or at none of them (R164). -/
theorem readyAfter_or_timeout {s : State} (hp : 0 < s.cfg.pollInterval) :
    (∃ p, ReadyAfter s 0 p) ∨ ∀ j ≤ s.maxWaits, s.chip j ≠ s.cfg.ready := by
  rcases waitrdy_cases 0 s hp with ⟨p, hle, hnot, hready, _⟩ | ⟨hnot, _⟩
  · exact .inl ⟨p, hle, by simpa using hnot, by simpa using hready⟩
  · exact .inr fun j hj => hnot j (Nat.lt_succ_of_le hj)

theorem waitedUnits_append (a b : List Event) : waitedUnits (a ++ b) = waitedUnits a + waitedUnits b := by
  induction a with
  | nil => simp [waitedUnits]
  | cons e a ih => cases e <;> simp [waitedUnits, ih, Nat.add_assoc]

theorem waitedUnits_writeEvents (v : Byte) : waitedUnits (writeEvents v) = 0 := rfl

theorem waitedUnits_readEvents (c : Config) (v : Byte) : waitedUnits (readEvents c v) = 0 := by
  unfold readEvents readCellEvents
  cases c.rdSampleAfterFall <;> rfl

/-- A poll waits for SETTLE only (R160, R163). -/
theorem waitedUnits_pollEvents (c : Config) (v : Byte) : waitedUnits (pollEvents c v) = c.settle := by
  simp [pollEvents, selectEvents, waitedUnits_append, waitedUnits_writeEvents, waitedUnits_readEvents, waitedUnits]

/-- One SETTLE for each poll, one POLL_INTERVAL between two polls (R164). -/
theorem waitedUnits_waitEvents (c : Config) (v : Byte) (rest : List Byte) :
    waitedUnits (waitEvents c (v :: rest)) = (rest.length + 1) * c.settle + rest.length * c.pollInterval := by
  induction rest generalizing v with
  | nil => simp [waitEvents, waitedUnits_pollEvents]
  | cons w rest ih =>
    simp only [waitEvents, waitedUnits_append, waitedUnits_pollEvents, waitedUnits, ih, List.length_cons]
    ring

/-- Settles O34: the two ends of `waitrdy_cases`, and the waits in their events. -/
theorem waitrdyEffect : Obligations.WaitrdyEffect := by
  intro s hb hc ht
  have ⟨_, _, hp, _⟩ := hc
  refine ⟨fun p h => ?_, fun hn => ?_, fun k => ?_, Nat.div_mul_le_self _ _, readyAfter_or_timeout hp⟩
  · rw [exec_waitrdy_ready hb h, startedWaitrdy, waited, polled_elapsed_zero, chip_latch, chip_of_readyAfter h]
    rfl
  · refine congrArg Host.Outcome.next ((runStarted_failed hb (waitrdy_timeout (s := latch .waitrdy s) hp hn) nofun nofun
      rfl rfl rfl ht).trans ?_)
    rw [polled_elapsed_zero]
    rfl
  · rw [chipBytes_succ, waitedUnits_waitEvents, chipBytes_length]

/-! ### RDACK -/

theorem rdack_mismatch {s : State} {j : Nat} (h : firstDiff (s.chipBytes 0 6) s.cfg.ack.toList = some j) :
    rdack s = .raised (.ackMismatch j) (ackTaken s) := by
  rcases rdack_cases s with ⟨hm, _⟩ | ⟨k, hk, hr⟩
  · rw [hm, firstDiff_self] at h
    cases h
  · cases h.symm.trans hk
    exact hr

theorem ackRead_eq_ackAt (s : State) : ackRead s = ackAt s 0 := rfl

/-- Settles O35: `ackTaken` by either exit of `rdack_cases`. -/
theorem rdackEffect : Obligations.RdackEffect := by
  intro s hb ht
  refine ⟨fun hm => ?_, fun j hj hlt => ?_⟩
  · rw [exec_rdack_matches hb hm, startedRdack, ackTaken, ackRead_eq_ackAt,
      ackAt_of_matches ((chipBytes_latch .rdack s 0 6).trans hm)]
    rfl
  · have hd : firstDiff (s.chipBytes 0 6) s.cfg.ack.toList = some j.val :=
      firstDiff_ack (by rwa [Nat.zero_add]) fun i hi => by rw [Nat.zero_add, hlt i hi]
    exact congrArg Host.Outcome.next (runStarted_failed hb (rdack_mismatch (s := latch .rdack s) hd) nofun nofun
      rfl rfl rfl ht)

/-! ### RDFIX and RDVAR -/

/-- BUF where an operation has read `r` bytes into it from index 0. -/
theorem bufByte_of_started_read (i : Instr) {s t : State} {r : Nat}
    (hbuf : t.buf = ((latch i s).putBytes 0 (s.chipBytes 0 r)).buf) (he : t.epoch = s.epoch) (j : Nat) :
    t.bufByte j = if j < r then s.chip j else s.bufByte j := by
  rw [bufByte_congr (t := (latch i s).putBytes 0 (s.chipBytes 0 r)) hbuf (he.trans (by simp)), bufByte_putBytes,
    bufByte_latch]
  simp only [Nat.zero_le, true_and, chipBytes_length, Nat.zero_add, Nat.sub_zero]
  split_ifs with hj
  · rw [byteAt_chipBytes _ _ _ _ hj, Nat.zero_add]
  · rfl

/-- Settles O36: `fixedRead` between the latch and the success exit. -/
theorem rdfixEffect : Obligations.RdfixEffect := fun r _ hb hr =>
  ⟨_, exec_rdfix_done hb hr, bufByte_of_started_read (.rdfix r) rfl rfl, rfl⟩

/-- A rejected header with the event of the failure exit's deselect is a whole transaction of five bytes (R167, R240). -/
theorem headerRead_deselected (s : State) :
    .sel false :: (headerRead s).trace = (readTransaction s.cfg (s.chipBytes 0 5)).reverse ++ s.trace := by
  simp [readTransaction]

theorem headerRead_hist_deselected (s : State) :
    (headerRead s).hist ++ [.sel false] = s.hist ++ readTransaction s.cfg (s.chipBytes 0 5) := by
  have h := congrArg List.reverse (headerRead_deselected s)
  simpa [State.hist] using h

theorem rdvar_badHeader {s : State} (hb : 5 ≤ s.cfg.bufsz) (hl : responseLayout s.cfg s.quirk (s.chipBytes 0 5) = none) :
    rdvar s = .raised (.responseMismatch .badHeader) (headerRead s) := by
  rw [rdvar_eq hb, hl]

theorem five_le_bufsz {c : Config} (hc : c.Ok) : 5 ≤ c.bufsz := by
  obtain ⟨⟨h38, hsize, _⟩, _⟩ := hc
  omega

section Layout

variable {s : State} {short : Bool} {n : Nat} (hb : 5 ≤ s.cfg.bufsz)
  (hl : responseLayout s.cfg s.quirk (s.chipBytes 0 5) = some (short, n))
include hb hl

theorem rdvar_tooLong (hn : s.cfg.bufsz < n) :
    rdvar s = .raised (.responseMismatch .tooLong) { headerRead s with short := short, tlen := n } := by
  rw [rdvar_eq hb, hl]
  exact if_pos hn

theorem rdvar_badChecksum (hn : n ≤ s.cfg.bufsz) (hv : s.strict = true ∧ validFrame (s.chipBytes 0 n) short = false) :
    rdvar s = .raised (.responseMismatch .badChecksum) (variableRead n short s) := by
  rw [rdvar_eq hb, hl]
  exact (if_neg (Nat.not_lt.mpr hn)).trans (if_pos (by simpa using hv))

/-- A frame that RDVAR accepts lies as RDFIX of its length leaves it; SHORT and TLEN say how (R166, R167). -/
theorem rdvar_accepted (hn : n ≤ s.cfg.bufsz) (hv : ¬ (s.strict = true ∧ validFrame (s.chipBytes 0 n) short = false)) :
    rdvar s = .done { fixedRead n s with short := short, tlen := n } := by
  have ⟨h7, _⟩ := responseLayout_bounds hl
  have hread : completeRead n (variableRead n short s) = { fixedRead n s with short := short, tlen := n } := by
    apply State.ext
    case shr => exact (if_neg (by omega)).symm
    case idx => exact (if_neg (by omega)).trans (if_neg (by omega)).symm
    all_goals rfl
  rw [rdvar_eq hb, hl, ← hread]
  exact (if_neg (Nat.not_lt.mpr hn)).trans (if_neg (by simpa using hv))

end Layout

theorem exec_rdvar (s : State) : exec .rdvar s = .next (runStarted .rdvar rdvar s) := rfl

/-- Settles O37: each branch of `rdvar_eq` by its exit. -/
theorem rdvarEffect : Obligations.RdvarEffect := by
  intro s hb hc ht
  have h5 : 5 ≤ (latch .rdvar s).cfg.bufsz := five_le_bufsz hc
  have raised := fun (e : Raise) (t : State) (h : rdvar (latch .rdvar s) = .raised e t) =>
    runStarted_failed (i := .rdvar) hb h nofun nofun
  refine ⟨_, exec_rdvar s, ?_⟩
  split
  next hl =>
    rw [raised _ _ (rdvar_badHeader h5 hl) rfl rfl rfl ht]
    refine ⟨bufByte_of_started_read .rdvar rfl rfl, ?_⟩
    apply State.ext
    case trace => exact headerRead_deselected (latch .rdvar s)
    all_goals rfl
  next short n hl =>
    split_ifs with hn hv
    · rw [raised _ _ (rdvar_tooLong h5 hl hn) rfl rfl rfl ht]
      refine ⟨bufByte_of_started_read .rdvar rfl rfl, ?_⟩
      apply State.ext
      case trace => exact headerRead_deselected (latch .rdvar s)
      all_goals rfl
    · have ⟨h7, _⟩ := responseLayout_bounds hl
      rw [raised _ _ (rdvar_badChecksum h5 hl (Nat.not_lt.mp hn) hv) rfl rfl rfl ht]
      refine ⟨bufByte_of_started_read .rdvar rfl rfl, ?_⟩
      apply State.ext
      case idx => exact if_neg (by omega)
      all_goals rfl
    · have ⟨h7, _⟩ := responseLayout_bounds hl
      rw [runStarted_done hb (rdvar_accepted h5 hl (Nat.not_lt.mp hn) hv)]
      refine ⟨bufByte_of_started_read .rdvar rfl rfl, ?_⟩
      apply State.ext
      case shr => exact if_neg (by omega)
      case idx => exact if_neg (by omega)
      all_goals rfl

end Sys2Proof.Machine
end

section
/-! PROOFS. The exchanges of the Transport Session, started by the HOST: answered, rejected, and each failure of SENDCMD. -/

namespace Sys2Proof.Machine

/-! ### SENDCMD and XCHGF of a command the CHIP answers -/

theorem sendcmdAlone_answered {n p q : Nat} {s : State} (h1 : 1 ≤ n) (h2 : n ≤ s.cfg.cmdmax) (h3 : n ≤ s.cfg.bufsz)
    (h4 : n ≤ 254) (h : Answered s 0 p q) :
    sendcmdAlone n s = .done { s.afterSend (s.bufBytes 0 n) p q with readDone := s.readDone } := by
  rw [sendcmdAlone, sendcmd_answered h1 h2 h3 h4 h, Run.andThen_done, secondWait_eq h]

/-- Settles O38: `State.afterSend` between the latch and the success exit. -/
theorem sendcmdEffect : Obligations.SendcmdEffect := by
  intro n s p q hb hc h1 h2 ha
  have ⟨⟨_, hsize, hmax, _⟩, _⟩ := hc
  exact congrArg Host.Outcome.next (runStarted_done hb
    (sendcmdAlone_answered (s := latch (.sendcmd n) s) h1 h2 (h2.trans hsize) (h2.trans hmax) (answered_latch.mpr ha)))

/-- Settles O39: `State.afterExchange` between the latch and the success exit. -/
theorem xchgfEffect : Obligations.XchgfEffect := by
  intro n r s p q hb hc h1 h2 hr ha
  have ⟨⟨_, hsize, hmax, _⟩, _⟩ := hc
  refine ⟨_, exec_xchgf_answered hb h1 h2 (h2.trans hsize) (h2.trans hmax) hr ha, fun j => ?_, ?_⟩
  · rw [successExit_bufByte, bufByte_exchanged, chip_latch, bufByte_latch]
  · rw [exchanged_eq (answered_latch.mpr ha)]
    rfl

/-! ### The failure exit of an operation that has completed no read -/

theorem failExit_hist (e : Raise) (s : State) :
    (failExit e s).hist = s.hist ++ if s.sel then [.sel false] else [] := by
  rw [failExit_eq, hist_emit]
  rfl

theorem failExit_rcount_unread {e : Raise} {s : State} (hr : s.readDone = false) : (failExit e s).rcount = 0 := by
  rw [failExit_eq, hr]
  rfl

/-- A rejected response fails the exchange (R170, R240). -/
theorem failExit_responseMismatch_tstate {r : MismatchReason} {s : State} (ht : s.tstate = .responseRead) :
    (failExit (.responseMismatch r) s).tstate = .failed := by
  rw [failExit_eq, ht]
  rfl

/-! ### XCHGV of a command the CHIP answers -/

/-- The state in which the response of a command the CHIP answers is read (R169, R171). -/
def responsePhase (cmd : List Byte) (p q : Nat) (s : State) : State :=
  setTState .responseRead (secondWait cmd p q q s)

theorem chipBytes_responsePhase (cmd : List Byte) (p q n : Nat) (s : State) :
    (responsePhase cmd p q s).chipBytes 0 n = s.chipBytes (p + q + 8) n :=
  chipBytes_of_shift (chip_secondWait cmd p q q s .responseRead) 0 n

/-- The layout of the response, as RDVAR sees it after a START of XCHGV (R142). -/
theorem responseLayout_responsePhase {i : Instr} {cmd : List Byte} {p q : Nat} {s : State} {l : Option (Bool × Nat)}
    (hl : responseLayout s.cfg (s.mode.getLsbD 0) (s.chipBytes (p + q + 8) 5) = l) :
    responseLayout (responsePhase cmd p q (latch i s)).cfg (responsePhase cmd p q (latch i s)).quirk
      ((responsePhase cmd p q (latch i s)).chipBytes 0 5) = l := by
  rw [chipBytes_responsePhase, ← hl]
  rfl

theorem responsePhase_hist (cmd : List Byte) (p q : Nat) (s : State) :
    (responsePhase cmd p q s).hist = s.hist ++ sendEvents s cmd 0 p q :=
  hist_emit _ _

/-- What HIST holds once the header of the response is rejected and SEL deasserted (R167, R240). -/
theorem hist_headerRead_responsePhase (cmd : List Byte) (p q : Nat) (s : State) :
    (headerRead (responsePhase cmd p q s)).hist ++ [.sel false] =
      s.hist ++ sendEvents s cmd 0 p q ++ readTransaction s.cfg (s.chipBytes (p + q + 8) 5) := by
  rw [headerRead_hist_deselected, responsePhase_hist, chipBytes_responsePhase]
  rfl

/-- What HIST holds once a whole response is read (R167). -/
theorem hist_variableRead_responsePhase (cmd : List Byte) (p q m : Nat) (short : Bool) (s : State) :
    (variableRead m short (responsePhase cmd p q s)).hist = s.hist ++ exchangeEvents s cmd 0 p q m := by
  rw [variableRead, hist_emit, chipBytes_responsePhase, exchangeEvents, ← List.append_assoc, ← responsePhase_hist,
    Nat.zero_add]
  rfl

section Response

variable {n : Byte} {s : State} {p q : Nat} (hb : s.busy = false) (hc : s.cfg.Ok) (h1 : 1 ≤ n.toNat)
  (h2 : n.toNat ≤ s.cfg.cmdmax) (ha : Answered s 0 p q)
include hb hc h1 h2 ha

/-- XCHGV once its command is answered: RDVAR on the response, and the exit that it leads to (R171). -/
theorem exec_xchgv_answered :
    exec (.xchgv n) s = .next (((rdvar (responsePhase (s.bufBytes 0 n.toNat) p q (latch (.xchgv n) s))).andThen fun t =>
      .done (setTState .success t)).exitBy successExit) := by
  have ⟨⟨_, hsize, hmax, _⟩, _⟩ := hc
  refine congrArg Host.Outcome.next ((runStarted_idle hb).trans ?_)
  rw [xchgv_answered (s := latch (.xchgv n) s) h1 h2 (h2.trans hsize) (h2.trans hmax) (answered_latch.mpr ha)]
  rfl

theorem exec_xchgv_accepted {t : State}
    (h : rdvar (responsePhase (s.bufBytes 0 n.toNat) p q (latch (.xchgv n) s)) = .done t) :
    exec (.xchgv n) s = .next (successExit (setTState .success t)) := by
  rw [exec_xchgv_answered hb hc h1 h2 ha, h]
  rfl

/-- A response that RDVAR rejects ends the exchange as Failed, with nothing read and SEL deasserted (R170, R240). -/
theorem exec_xchgv_rejected {t : State} {r : MismatchReason} {hist : List Event}
    (h : rdvar (responsePhase (s.bufBytes 0 n.toNat) p q (latch (.xchgv n) s)) = .raised (.responseMismatch r) t)
    (ht : t.tstate = .responseRead) (hr : t.readDone = false)
    (hh : (t.hist ++ if t.sel then [.sel false] else []) = hist) :
    ∃ u, exec (.xchgv n) s = .next u ∧ u.ok = false ∧ u.err = .responseMismatch ∧ u.errinfo = r.code ∧
      u.tstate = .failed ∧ u.rcount = 0 ∧ u.sel = false ∧ u.hist = hist := by
  refine ⟨failExit (.responseMismatch r) t, ?_, failExit_ok _ t, failExit_err _ t, failExit_errinfo _ t,
    failExit_responseMismatch_tstate ht, failExit_rcount_unread hr, failExit_sel _ t, (failExit_hist _ t).trans hh⟩
  rw [exec_xchgv_answered hb hc h1 h2 ha, h]
  rfl

end Response

/-- Settles O40: RDVAR accepts the response, and leaves it as XCHGF of its length does, but for SHORT and TLEN. -/
theorem xchgvEffect : Obligations.XchgvEffect := by
  intro n s p q m short hb hc h1 h2 ha hl hm hv
  have hacc := rdvar_accepted (s := responsePhase (s.bufBytes 0 n.toNat) p q (latch (.xchgv n) s)) (five_le_bufsz hc)
    (responseLayout_responsePhase hl) hm (by
      rw [chipBytes_responsePhase]
      exact fun ⟨hstrict, hinv⟩ => Bool.false_ne_true (hinv.symm.trans (hv hstrict)))
  have heq : setTState .success
      { fixedRead m (responsePhase (s.bufBytes 0 n.toNat) p q (latch (.xchgv n) s)) with short := short, tlen := m } =
      { exchanged (s.bufBytes 0 n.toNat) m p q (latch (.xchgv n) s) with short := short, tlen := m } := by
    rw [← fixedRead_secondWait]
    rfl
  refine ⟨_, (exec_xchgv_accepted hb hc h1 h2 ha hacc).trans (by rw [heq]), fun j => ?_, ?_⟩
  · exact (bufByte_exchanged (s.bufBytes 0 n.toNat) m p q (latch (.xchgv n) s) j).trans (by rw [chip_latch, bufByte_latch])
  · rw [exchanged_eq (answered_latch.mpr ha)]
    rfl

/-- Settles O41: the three branches in which RDVAR raises, with what SENDCMD has appended to HIST before. -/
theorem xchgvRejectedResponse : Obligations.XchgvRejectedResponse := by
  intro n s p q hb hc h1 h2 ha
  have h5 : 5 ≤ (responsePhase (s.bufBytes 0 n.toNat) p q (latch (.xchgv n) s)).cfg.bufsz := five_le_bufsz hc
  have hheader := hist_headerRead_responsePhase (s.bufBytes 0 n.toNat) p q (latch (.xchgv n) s)
  refine ⟨fun hl => ?_, fun short m hl => ⟨fun hm => ?_, fun hm hs hv => ?_⟩⟩
  · have hraised := rdvar_badHeader h5 (responseLayout_responsePhase hl)
    exact exec_xchgv_rejected hb hc h1 h2 ha hraised rfl rfl hheader
  · have hraised := rdvar_tooLong h5 (responseLayout_responsePhase hl) hm
    exact exec_xchgv_rejected hb hc h1 h2 ha hraised rfl rfl hheader
  · have hraised := rdvar_badChecksum h5 (responseLayout_responsePhase hl) hm
      ⟨hs, by rw [chipBytes_responsePhase]; exact hv⟩
    exact exec_xchgv_rejected hb hc h1 h2 ha hraised rfl rfl ((List.append_nil _).trans
      (hist_variableRead_responsePhase (s.bufBytes 0 n.toNat) p q m short (latch (.xchgv n) s)))

/-! ### The failures of SENDCMD -/

/-- An error of SENDCMD ends the operation that runs it, alone or first (R168, R169, R171). -/
theorem exec_sendcmd_raised {n r : Byte} {s t : State} {i : Instr} {e : Raise} (hb : s.busy = false) (h1 : 1 ≤ n.toNat)
    (h2 : n.toNat ≤ s.cfg.cmdmax) (hr : r.toNat ≤ s.cfg.bufsz) (hi : i ∈ [Instr.sendcmd n, .xchgf n r, .xchgv n])
    (h : sendcmd n.toNat (latch i s) = .raised e t) : exec i s = .next (failExit e t) := by
  simp only [List.mem_cons, List.not_mem_nil, or_false] at hi
  rcases hi with rfl | rfl | rfl
  · exact congrArg Host.Outcome.next (runStarted_raised hb (by rw [sendcmdAlone, h, Run.andThen_raised]))
  · exact congrArg Host.Outcome.next (runStarted_raised hb (by
      rw [xchgf_sendcmd (s := latch (.xchgf n r) s) h1 h2 hr, h, Run.andThen_raised]))
  · exact congrArg Host.Outcome.next (runStarted_raised hb (by
      rw [xchgv_sendcmd (s := latch (.xchgv n) s) h1 h2, h, Run.andThen_raised]))

theorem latch_exchange_op {n r : Byte} {i : Instr} (hi : i ∈ [Instr.sendcmd n, .xchgf n r, .xchgv n]) (s : State) :
    ¬ ((latch i s).op = some .getfw ∨ (latch i s).op = some .listpt) := by
  simp only [List.mem_cons, List.not_mem_nil, or_false] at hi
  rcases hi with rfl | rfl | rfl <;> simp [Instr.name]

/-- Settles O42: the failures of `sendcmd_cases`, each by the failure exit of the operation. -/
theorem exchangeFailures : Obligations.ExchangeFailures := by
  intro n r s hb hc h1 h2 hr i hi
  have ⟨⟨_, hsize, hmax, _⟩, _, hp, _⟩ := hc
  have h3 := h2.trans hsize
  have h4 := h2.trans hmax
  have hop := latch_exchange_op hi s
  have raised := fun (e : Raise) (t : State) => exec_sendcmd_raised (e := e) (t := t) hb h1 h2 hr hi
  refine ⟨fun hn => ?_, fun p hready => ⟨fun j hj hlt => ?_, fun hm hn => ?_⟩⟩
  · rw [raised _ _ (sendcmd_timeout1 (s := latch i s) h1 h2 h3 h4 hp hn), failExit_firstWait, if_neg hop]
    rfl
  · rw [raised _ _ (sendcmd_mismatch (s := latch i s) h1 h2 h3 h4 hp (readyAfter_latch.mpr hready) (firstDiff_ack hj hlt)),
      failExit_ackPhase (readyAfter_latch.mpr hready), if_neg hop]
    rfl
  · rw [raised _ _ (sendcmd_timeout2 (s := latch i s) h1 h2 h3 h4 hp (readyAfter_latch.mpr hready) hm hn),
      failExit_secondWait (s := latch i s) hm, if_neg hop]
    rfl

end Sys2Proof.Machine
end

section
/-! PROOFS. Every operation the HOST starts ends, by one of the two exits. -/

namespace Sys2Proof.Machine

theorem Raise.code_ne_none (e : Raise) : e.code ≠ .none := by
  cases e <;> exact nofun

/-- Settles O16: the pseudocode leaves CLK at 1 and OP as START latched it (`Body`); the success exit finds SEL down, the failure
exit lowers it. -/
theorem everyOperationEnds : Obligations.EveryOperationEnds := by
  intro i s hi ⟨hb, hsel, hclk⟩
  obtain ⟨body, hbody, hexec⟩ := exec_started hi
  have hkept := hbody.kept (latch i s)
  have htidy := hbody.lines (latch i s) hclk hsel
  refine ⟨_, hexec s, ?_⟩
  rw [runStarted_idle hb]
  cases hr : body (latch i s) with
  | done t =>
    rw [hr] at hkept htidy
    exact ⟨⟨rfl, htidy.sel t rfl, htidy.lines.clk⟩, hkept.op, .inl ⟨rfl, rfl, rfl⟩⟩
  | raised e t =>
    rw [hr] at hkept htidy
    exact ⟨⟨failExit_busy e t, failExit_sel e t, (failExit_clk e t).trans htidy.lines.clk⟩,
      (failExit_op e t).trans hkept.op, .inr ⟨failExit_ok e t, by rw [Run.exitBy, failExit_err]; exact e.code_ne_none⟩⟩

end Sys2Proof.Machine
end

section
/-! PROOFS. A catalog operation whose exchange the CHIP answers: what its decode step finds in BUF, what the tests and copies of the
decode step do with it, and what the operation leaves when the step accepts the response and when it rejects it. -/

namespace Sys2Proof.Machine

/-! ### The response in BUF -/

/-- What a decode step finds after an exchange from `s`, its response from byte `k` of the CHIP's stream on: the parameters of `s`,
and in BUF the `r` bytes read over what is left of the command (R190). -/
structure Response (cmd : List Byte) (r k : Nat) (s t : State) : Prop where
  cfg : t.cfg = s.cfg
  fits : r ≤ s.cfg.bufsz
  bufByte : ∀ j, t.bufByte j = s.bufAfter cmd r k j

namespace Response

variable {cmd : List Byte} {r k j : Nat} {s t : State} {v b : Byte}

theorem byte (h : Response cmd r k s t) (hj : j < r) : t.bufByte j = s.chip (k + j) :=
  (h.bufByte j).trans (bufAfter_of_lt hj)

theorem expectByte_eq (h : Response cmd r k s t) (hj : j < r) :
    expectByte j v t = if s.chip (k + j) = v then .done t else .raised (.operationRejected (s.chip (k + j))) t := by
  rw [Machine.expectByte_eq j v (by rw [h.cfg]; exact hj.trans_le h.fits), h.byte hj]

theorem expectByte_accepts (h : Response cmd r k s t) (hj : j < r) (hv : s.chip (k + j) = v) : expectByte j v t = .done t := by
  rw [h.expectByte_eq hj, if_pos hv]

/-- A test that finds a wrong byte raises that byte (R208). -/
theorem expectByte_raises (h : Response cmd r k s t) (hj : j < r) (hv : s.chip (k + j) ≠ v) :
    expectByte j v t = .raised (.operationRejected (s.chip (k + j))) t := by
  rw [h.expectByte_eq hj, if_neg hv]

/-- As `expectByte_raises`, of the byte that the test finds wrong, if it finds one. -/
theorem expectByte_rejects (h : Response cmd r k s t) (hj : j < r)
    (hb : (if s.chip (k + j) ≠ v then some (s.chip (k + j)) else none) = some b) :
    expectByte j v t = .raised (.operationRejected b) t := by
  obtain ⟨hv, hbyte⟩ := Option.ite_none_right_eq_some.mp hb
  rw [h.expectByte_raises hj hv, Option.some.inj hbyte]

/-- AUTH, RDBLK and WRBLK look at the status only behind a right echo (R197 to R199). -/
theorem expectExchangeEcho_rejects (h : Response cmd r k s t) (h8 : 8 ≤ r)
    (hb : (if s.chip (k + 6) ≠ s.cfg.echoDataex then some (s.chip (k + 6))
      else if s.chip (k + 7) ≠ 0 then some (s.chip (k + 7)) else none) = some b) :
    expectExchangeEcho t = .raised (.operationRejected b) t := by
  rw [expectExchangeEcho, h.cfg]
  by_cases h6 : s.chip (k + 6) = s.cfg.echoDataex
  · rw [if_neg (not_not_intro h6)] at hb
    rw [h.expectByte_accepts (by omega) h6, Run.andThen_done, h.expectByte_rejects (by omega) hb]
  · rw [if_pos h6] at hb
    rw [h.expectByte_raises (by omega) h6, Run.andThen_raised, Option.some.inj hb]

theorem copyBlock_eq (h : Response cmd r k s t) (h24 : 24 ≤ r) :
    copyBlock t = .done { t with outblk := Vector.ofFn fun i => s.chip (k + 8 + i) } := by
  rw [Machine.copyBlock_eq (by rw [h.cfg]; exact h24.trans h.fits), outblk_of_bufAfter h.bufByte h24]

end Response

/-! ### The exchange -/

/-- An exchange the CHIP answers, from any state (R190). -/
theorem exchange_response {cmd : List Byte} {r p q : Nat} {s : State} (hc : s.cfg.Ok) (h1 : 1 ≤ cmd.length)
    (h2 : cmd.length ≤ s.cfg.cmdmax) (hr : r ≤ s.cfg.bufsz) (ha : Answered s 0 p q) :
    ∃ t, exchange cmd r s = .done t ∧ Response cmd r (p + q + 8) s t ∧
      t = { s.afterExchange cmd r p q with buf := t.buf } := by
  obtain ⟨-, hsize, hmax, -⟩ := hc.1
  refine ⟨_, exchange_answered h1 h2 (h2.trans hsize) (h2.trans hmax) hr ha, ⟨?_, hr, bufByte_exchange cmd r p q s⟩, ?_⟩
  · rw [exchanged_cfg, putBytes_cfg]
  · rw [exchanged_eq (answered_putBytes.mpr ha), putBytes_eq]
    rfl

/-- The failure exit of a decode step that rejects what an exchange has left: the exchange has ended as Success and its read has
completed, so TSTATE and RCOUNT stay (R191, R240). -/
theorem failExit_exchanged {e : Raise} {cmd : List Byte} {r p q : Nat} {s t : State}
    (ht : t = { s.afterExchange cmd r p q with buf := t.buf }) :
    failExit e t =
      { s.afterExchange cmd r p q with
        buf := t.buf, ok := false, err := e.code, errinfo := e.info, busy := false
        res32 := if s.op = some .getfw ∨ s.op = some .listpt then 0 else s.res32 } := by
  rw [failExit_answered (by rw [ht]; rfl) (by rw [ht]; rfl) (by rw [ht]; rfl), ht]
  rfl

section Answered

variable {i : Instr} {body decodes : State → Run} {cmd : List Byte} {r p q : Nat} {s : State}

/-- A catalog operation comes to its decode step when the CHIP answers its command (R190). -/
theorem exchange_started (hc : s.cfg.Ok) (hw : i.wf = true) (hcmd : catalogCommand s.cfg i = some cmd) (hr : r ≤ s.cfg.bufsz)
    (ha : Answered s 0 p q) :
    ∃ t, exchange cmd r (latch i s) = .done t ∧ Response cmd r (p + q + 8) s t ∧
      t = { (latch i s).afterExchange cmd r p q with buf := t.buf } := by
  have ⟨h1, h2⟩ := catalogCommand_length hc hw hcmd
  obtain ⟨t, hx, ⟨hcfg, hfits, hbuf⟩, ht⟩ := exchange_response (s := latch i s) hc h1 h2 hr (answered_latch.mpr ha)
  exact ⟨t, hx, ⟨hcfg, hfits, hbuf⟩, ht⟩

/-- A decode step that accepts the response and writes its results. -/
theorem exec_written {write : State → State} (hb : s.busy = false) (hc : s.cfg.Ok) (hw : i.wf = true)
    (hcmd : catalogCommand s.cfg i = some cmd) (hr : r ≤ s.cfg.bufsz) (ha : Answered s 0 p q)
    (hexec : exec i s = .next (runStarted i body s))
    (hbody : body (latch i s) = (exchange cmd r (latch i s)).andThen decodes)
    (hacc : ∀ t, Response cmd r (p + q + 8) s t → decodes t = .done (write t)) :
    ∃ t, exec i s = .next (successExit (write t)) ∧ Response cmd r (p + q + 8) s t ∧
      t = { (latch i s).afterExchange cmd r p q with buf := t.buf } := by
  obtain ⟨t, hx, hresp, ht⟩ := exchange_started hc hw hcmd hr ha
  rw [hx, Run.andThen_done, hacc t hresp] at hbody
  exact ⟨t, by rw [hexec, runStarted_done hb hbody], hresp, ht⟩

/-- A decode step that accepts the response and writes no result. -/
theorem exec_accepted (hb : s.busy = false) (hc : s.cfg.Ok) (hw : i.wf = true) (hcmd : catalogCommand s.cfg i = some cmd)
    (hr : r ≤ s.cfg.bufsz) (ha : Answered s 0 p q) (hexec : exec i s = .next (runStarted i body s))
    (hbody : body (latch i s) = (exchange cmd r (latch i s)).andThen decodes)
    (hacc : ∀ t, Response cmd r (p + q + 8) s t → decodes t = .done t) :
    ∃ t, exec i s = .next t ∧ (∀ j, t.bufByte j = s.bufAfter cmd r (p + q + 8) j) ∧
      { t with buf := s.buf } = (s.afterExchange cmd r p q).succeeded i :=
  have ⟨h1, h2⟩ := catalogCommand_length hc hw hcmd
  ⟨_, hexec, runStarted_exchanged hb hc h1 h2 hr ha hbody fun t hcfg hbuf => hacc t ⟨hcfg, hr, hbuf⟩⟩

/-- A decode step that accepts the response and copies the block in it to OUTBLK (R198, R201). -/
theorem exec_copied {test : State → Run} (hb : s.busy = false) (hc : s.cfg.Ok) (hw : i.wf = true)
    (hcmd : catalogCommand s.cfg i = some cmd) (h24 : 24 ≤ r) (hr : r ≤ s.cfg.bufsz) (ha : Answered s 0 p q)
    (hexec : exec i s = .next (runStarted i body s))
    (hbody : body (latch i s) = (exchange cmd r (latch i s)).andThen fun t => (test t).andThen copyBlock)
    (hacc : ∀ t, Response cmd r (p + q + 8) s t → test t = .done t) :
    ∃ t, exec i s = .next t ∧ (∀ j, t.bufByte j = s.bufAfter cmd r (p + q + 8) j) ∧
      { t with buf := s.buf } =
        { (s.afterExchange cmd r p q).succeeded i with outblk := Vector.ofFn fun k => s.chip (p + q + 16 + k) } := by
  obtain ⟨t, hx, hresp, ht⟩ := exec_written hb hc hw hcmd hr ha hexec hbody fun t ht => by
    rw [hacc t ht, Run.andThen_done, ht.copyBlock_eq h24]
  refine ⟨_, hx, hresp.bufByte, ?_⟩
  rw [ht]
  rfl

/-- A decode step that rejects the response (R191, R240). -/
theorem exec_rejected {e : Raise} (hb : s.busy = false) (hc : s.cfg.Ok) (hw : i.wf = true)
    (hcmd : catalogCommand s.cfg i = some cmd) (hr : r ≤ s.cfg.bufsz) (ha : Answered s 0 p q)
    (hexec : exec i s = .next (runStarted i body s))
    (hbody : body (latch i s) = (exchange cmd r (latch i s)).andThen decodes)
    (hrej : ∀ t, Response cmd r (p + q + 8) s t → decodes t = .raised e t) :
    ∃ t, exec i s = .next t ∧ (∀ j, t.bufByte j = s.bufAfter cmd r (p + q + 8) j) ∧
      { t with buf := s.buf } =
        { (s.afterExchange cmd r p q).failed i e.code e.info with
          res32 := if i.name = .getfw ∨ i.name = .listpt then 0 else s.res32 } := by
  obtain ⟨t, hx, hresp, ht⟩ := exchange_started hc hw hcmd hr ha
  rw [hx, Run.andThen_done, hrej t hresp] at hbody
  refine ⟨_, by rw [hexec, runStarted_raised hb hbody], fun j => ?_, ?_⟩
  · rw [failExit_bufByte, hresp.bufByte]
  · rw [failExit_exchanged ht]
    simp only [latch_op, Option.some.injEq]
    rfl

end Answered

end Sys2Proof.Machine
end

section
/-! PROOFS. Catalog operations of one exchange, each with its own command, tests and results. -/

namespace Sys2Proof.Machine

/-! ### Accepted: nothing but the tests -/

/-- Settles O46: SAM_OK is byte 5 of the response. -/
theorem samcfgAccepted : Obligations.SamcfgAccepted := by
  intro s p q hb hc ha h5
  have ⟨_, ⟨_, ⟨h6, hr⟩, _⟩, _⟩ := hc
  refine exec_accepted hb hc rfl rfl hr ha rfl rfl fun t ht => ?_
  exact ht.expectByte_accepts h6 (h5.trans (congrArg Config.samOk ht.cfg.symm))

/-- Settles O52: the status is byte 7 of the response, whatever the length of the command. -/
theorem p2piniAccepted : Obligations.P2piniAccepted := by
  rintro baud s p q cmd rfl hb hc ha h7
  have ⟨_, ⟨_, _, _, _, _, _, ⟨h8, hr⟩, _⟩, _⟩ := hc
  exact exec_accepted hb hc rfl rfl hr ha rfl rfl fun t ht => ht.expectByte_accepts h8 h7

/-- Settles O54: the status is byte 23 of the response. -/
theorem p2ptgtAccepted : Obligations.P2ptgtAccepted := by
  intro s p q hb hc ha h23
  have ⟨_, ⟨_, _, _, _, _, _, _, _, ⟨h24, hr⟩, _⟩, _⟩ := hc
  exact exec_accepted hb hc rfl rfl hr ha rfl rfl fun t ht => ht.expectByte_accepts h24 h23

/-! ### Accepted: a result register is written -/

/-- Settles O50: the echo and the status are bytes 6 and 7, the block lies behind them. -/
theorem rdblkReadsBlock : Obligations.RdblkReadsBlock := by
  rintro tg blk s p q cmd rfl hb hc ha h6 h7
  have ⟨_, ⟨_, _, _, _, ⟨h24, hr⟩, _⟩, _⟩ := hc
  refine exec_copied hb hc rfl rfl h24 hr ha rfl rfl fun t ht => ?_
  exact expectExchangeEcho_accepts (by omega) hr h6 h7 ht.cfg ht.bufByte

/-- Settles O53: the status alone is tested. -/
theorem p2piexExchanges : Obligations.P2piexExchanges := by
  rintro data s p q cmd hd rfl hb hc ha h7
  have ⟨_, ⟨_, _, _, _, _, _, _, ⟨h24, hr⟩, _⟩, _⟩ := hc
  refine exec_copied hb hc (decide_eq_true hd) rfl h24 hr ha rfl rfl fun t ht => ?_
  exact ht.expectByte_accepts (by omega) h7

/-- Settles O57: byte RDREG_OFF is within the response, which `Config.Ok` asks. -/
theorem rdregReadsByte : Obligations.RdregReadsByte := by
  rintro addr s p q cmd rfl hb hc ha
  have ⟨_, ⟨_, _, _, _, _, _, _, _, _, _, _, hoff, hr⟩, _⟩ := hc
  obtain ⟨t, hx, hresp, ht⟩ := exec_written (i := .rdreg addr)
    (write := fun t => { t with regval := s.chip (p + q + 8 + s.cfg.rdregOff) }) hb hc rfl rfl hr ha rfl rfl fun t ht => by
      rw [needBuf_of_le (by rw [ht.cfg]; exact hoff.trans hr), ht.cfg, ht.byte hoff]
  refine ⟨_, hx, hresp.bufByte, ?_, fun h0 => ?_⟩
  · rw [ht]
    rfl
  · show s.chip (p + q + 8 + s.cfg.rdregOff) = _
    rw [h0, Nat.add_zero]

/-- The decode step of GETFW on a response in BUF: the signature, then the version as it lies on the wire (R192, R44). -/
theorem Response.decodeGetfw_eq {cmd : List Byte} {r k : Nat} {s t : State} (h : Response cmd r k s t) (h10 : 10 ≤ r) :
    decodeGetfw t =
      if s.chipBytes k 6 = s.cfg.fwsig.toList then
        .done { t with res32 := s.chip (k + 6) ++ s.chip (k + 7) ++ s.chip (k + 8) ++ s.chip (k + 9) }
      else .raised (.responseMismatch .badSignature) t := by
  rw [decodeGetfw, needBuf_of_le (by rw [h.cfg]; exact h10.trans h.fits), bufBytes_of_bufAfter h.bufByte (by omega), h.cfg,
    be32_eq_append, h.byte (by omega), h.byte (by omega), h.byte (by omega), h.byte (by omega)]

/-- Settles O44: the two ends of `Response.decodeGetfw_eq`. -/
theorem getfwEffect : Obligations.GetfwEffect := by
  intro s p q hb hc ha
  have ⟨_, ⟨⟨h10, hr⟩, _⟩, _⟩ := hc
  by_cases hsig : s.chipBytes (p + q + 8) 6 = s.cfg.fwsig.toList
  · rw [if_pos hsig]
    obtain ⟨t, hx, hresp, ht⟩ := exec_written (i := .getfw) hb hc rfl rfl hr ha rfl rfl fun t ht => by
      rw [ht.decodeGetfw_eq h10, if_pos hsig]
    refine ⟨_, hx, hresp.bufByte, ?_⟩
    rw [ht]
    rfl
  · rw [if_neg hsig]
    exact exec_rejected (i := .getfw) (e := .responseMismatch .badSignature) hb hc rfl rfl hr ha rfl rfl fun t ht => by
      rw [ht.decodeGetfw_eq h10, if_neg hsig]

/-! ### LISTPT -/

/-- The decode step of LISTPT: the count, then room in BUF for the ID whose length the response gives (R194, R196). -/
theorem Response.decodeListpt_eq {cmd : List Byte} {r k : Nat} {s t : State} (h : Response cmd r k s t) (h13 : 13 ≤ r) :
    decodeListpt t =
      if s.bufAfter cmd r k 7 ≠ 1 then .raised (.operationRejected (s.bufAfter cmd r k 7)) t
      else if s.cfg.bufsz < 13 + (s.bufAfter cmd r k 12).toNat then .raised (.refused .bufIndex) t
      else .done (listptResults t) := by
  have hsize : 13 ≤ t.cfg.bufsz := by rw [h.cfg]; exact h13.trans h.fits
  rw [decodeListpt, Machine.expectByte_eq 7 1 (by omega), ← h.bufByte, ← h.bufByte, ← h.cfg]
  by_cases hcount : t.bufByte 7 = 1
  · rw [if_pos hcount, if_neg (not_not_intro hcount), Run.andThen_done, needBuf_of_le hsize]
    by_cases hfit : t.cfg.bufsz < 13 + (t.bufByte 12).toNat
    · rw [if_pos hfit, needBuf_of_gt hfit]
    · rw [if_neg hfit, needBuf_of_le (not_lt.mp hfit)]
  · rw [if_neg hcount, if_pos hcount, Run.andThen_raised]

/-- The results of LISTPT: the bytes side by side, the ID as a number (R68, R195). -/
theorem listptResults_eq (t : State) :
    listptResults t =
      { t with
        sens := t.bufByte 9 ++ t.bufByte 10, selr := t.bufByte 11, idlen := t.bufByte 12
        res32 := BitVec.ofNat 32
          ((List.range (t.bufByte 12).toNat).foldl (fun id i => 256 * id + (t.bufByte (13 + i)).toNat) 0) } := by
  rw [listptResults, be16_eq_append, State.bufBytes, idOf_eq]

/-- Settles O47: the three ends of `Response.decodeListpt_eq`. -/
theorem listptEffect : Obligations.ListptEffect := by
  rintro baud s p q cmd buf rfl hbuf hb hc ha
  have ⟨_, ⟨_, _, ⟨h13, hr⟩, _⟩, _⟩ := hc
  have hdec {t} (ht : Response [s.cfg.opcListpt, s.cfg.listMaxtg, baud] s.cfg.rlenListpt (p + q + 8) s t) :=
    ht.decodeListpt_eq h13
  rw [← hbuf] at hdec
  by_cases hcount : buf 7 = 1
  · have hone : ¬ buf 7 ≠ 1 := not_not_intro hcount
    rw [if_neg hone]
    by_cases hfit : s.cfg.bufsz < 13 + (buf 12).toNat
    · rw [if_pos hfit, hbuf]
      exact exec_rejected (i := .listpt baud) (e := .refused .bufIndex) hb hc rfl rfl hr ha rfl rfl fun t ht => by
        rw [hdec ht, if_neg hone, if_pos hfit]
    · rw [if_neg hfit]
      obtain ⟨t, hx, hresp, ht⟩ := exec_written (i := .listpt baud) hb hc rfl rfl hr ha rfl rfl fun t ht => by
        rw [hdec ht, if_neg hone, if_neg hfit]
      have hbyte : t.bufByte = buf := (funext hresp.bufByte).trans hbuf.symm
      refine ⟨_, hx, congrFun hbyte, ?_⟩
      rw [listptResults_eq, hbyte, ht]
      rfl
  · rw [if_pos hcount]
    have hrej := exec_rejected (i := .listpt baud) (e := .operationRejected (buf 7)) hb hc rfl rfl hr ha rfl rfl fun t ht => by
      rw [hdec ht, if_pos hcount]
    rwa [← hbuf] at hrej

/-! ### WRREG -/

/-- A command staged from BUF[0] lies over what BUF held (R60, R190). -/
theorem bufByte_staged (cmd : List Byte) (s : State) (j : Nat) :
    (s.putBytes 0 cmd).bufByte j = if j < cmd.length then byteAt cmd j else s.bufByte j := by
  simp [bufByte_putBytes]

/-- The build step and a SENDCMD that the CHIP answers, with nothing to follow (R205). -/
theorem staged_sendcmdAlone {cmd : List Byte} {p q : Nat} {s : State} (hc : s.cfg.Ok) (h1 : 1 ≤ cmd.length)
    (h2 : cmd.length ≤ s.cfg.cmdmax) (ha : Answered s 0 p q) :
    (memWrite 0 cmd s).andThen (sendcmdAlone cmd.length) =
      .done { (s.putBytes 0 cmd).afterSend cmd p q with readDone := s.readDone } := by
  obtain ⟨-, hsize, hmax, -⟩ := hc.1
  rw [memWrite_of_le (by omega), Run.andThen_done, sendcmdAlone_answered h1 (by rw [putBytes_cfg]; exact h2)
    (by rw [putBytes_cfg]; exact h2.trans hsize) (h2.trans hmax) (answered_putBytes.mpr ha), bufBytes_putBytes, putBytes_readDone]

/-- Settles O58: `staged_sendcmdAlone` between the latch and the success exit. -/
theorem wrregAcknowledged : Obligations.WrregAcknowledged := by
  rintro addr v s p q cmd rfl hb hc ha
  have ⟨h1, h2⟩ := catalogCommand_length (i := .wrreg addr v) hc rfl rfl
  have hx := staged_sendcmdAlone (s := latch (.wrreg addr v) s) hc h1 h2 (answered_latch.mpr ha)
  refine ⟨_, congrArg Host.Outcome.next (runStarted_done hb hx), bufByte_staged _ (latch (.wrreg addr v) s), ?_⟩
  rw [putBytes_eq]
  rfl

end Sys2Proof.Machine
end

section
/-! PROOFS. Catalog operations whose response fails a test, and those whose command is not answered. -/

namespace Sys2Proof.Machine

/-! ### Responses that fail a test -/

/-- Settles O59: in each operation the first test that fails ends the decode step. -/
theorem rejectedResponses : Obligations.RejectedResponses := by
  intro i cmd r bad s p q hw hcmd hb hc ha hspec b hbad
  have ⟨_, ⟨_, ⟨h6, samcfg⟩, _, ⟨_, auth⟩, ⟨_, rdblk⟩, ⟨_, wrblk⟩, ⟨_, p2pini⟩, ⟨_, p2piex⟩, ⟨_, p2ptgt⟩, _⟩, _⟩ := hc
  cases i <;> cases hcmd
  case samcfg =>
    obtain ⟨rfl, rfl⟩ := hspec
    exact exec_rejected (e := .operationRejected b) hb hc hw rfl samcfg ha rfl rfl fun t ht => by
      rw [ht.cfg, ht.expectByte_rejects h6 hbad]
  case auth tg keysel blk key cid =>
    obtain ⟨rfl, rfl⟩ := hspec
    exact exec_rejected (e := .operationRejected b) hb hc hw rfl auth ha rfl rfl fun t ht =>
      ht.expectExchangeEcho_rejects (by omega) hbad
  case rdblk tg blk =>
    obtain ⟨rfl, rfl⟩ := hspec
    exact exec_rejected (e := .operationRejected b) hb hc hw rfl rdblk ha rfl rfl fun t ht => by
      rw [ht.expectExchangeEcho_rejects (by omega) hbad, Run.andThen_raised]
  case wrblk tg blk data =>
    obtain ⟨rfl, rfl⟩ := hspec
    exact exec_rejected (e := .operationRejected b) hb hc hw rfl wrblk ha rfl rfl fun t ht =>
      ht.expectExchangeEcho_rejects (by omega) hbad
  case p2pini baud =>
    obtain ⟨rfl, rfl⟩ := hspec
    exact exec_rejected (e := .operationRejected b) hb hc hw rfl p2pini ha rfl rfl fun t ht =>
      ht.expectByte_rejects (by omega) hbad
  case p2piex data =>
    obtain ⟨rfl, rfl⟩ := hspec
    exact exec_rejected (e := .operationRejected b) hb hc hw rfl p2piex ha rfl rfl fun t ht => by
      rw [ht.expectByte_rejects (by omega) hbad, Run.andThen_raised]
  case p2ptgt =>
    obtain ⟨rfl, rfl⟩ := hspec
    exact exec_rejected (e := .operationRejected b) hb hc hw rfl p2ptgt ha rfl rfl fun t ht =>
      ht.expectByte_rejects (by omega) hbad
  all_goals exact False.elim hspec

/-! ### Exchanges that fail -/

/-- What the failure exit leaves of an exchange from `w` that fails with `e`, where `x` is what the failing phase leaves of the lines
and the datapath: the command stays staged in BUF, RCOUNT and `readDone` tell of the reads before (R206, R240). -/
def failedExchange (cmd : List Byte) (e : Raise) (x w : State) : State :=
  { x with
    buf := (w.putBytes 0 cmd).buf, ok := false, err := e.code, errinfo := e.info, busy := false
    res32 := if w.op = some .getfw ∨ w.op = some .listpt then 0 else w.res32
    rcount := if w.readDone then w.rcount else 0, readDone := w.readDone }

/-- The exchange of `cmd` from `w` raises `e` before it reads a response, whatever the length it would read, and the failure exit then
leaves `failedExchange`. -/
def ExchangeFails (cmd : List Byte) (e : Raise) (x w : State) : Prop :=
  ∃ u, (∀ r ≤ w.cfg.bufsz, exchange cmd r w = .raised e u) ∧ failExit e u = failedExchange cmd e x w

theorem bufByte_failedExchange (cmd : List Byte) (e : Raise) {x w : State} (hx : x.epoch = w.epoch) (j : Nat) :
    (failedExchange cmd e x w).bufByte j = if j < cmd.length then byteAt cmd j else w.bufByte j := by
  have hbuf : (failedExchange cmd e x w).bufByte = (w.putBytes 0 cmd).bufByte :=
    bufByte_congr rfl (hx.trans (putBytes_epoch ..).symm)
  rw [hbuf, bufByte_staged]

section Fails

variable {cmd : List Byte} {p : Nat} {w : State}

theorem exchangeFails_timeout1 (hc : w.cfg.Ok) (h1 : 1 ≤ cmd.length) (h2 : cmd.length ≤ w.cfg.cmdmax)
    (hn : ∀ j ≤ w.maxWaits, w.chip j ≠ w.cfg.ready) : ExchangeFails cmd (.timeout 1) (w.afterTimeout1 cmd) w := by
  obtain ⟨⟨-, hsize, hmax, -⟩, -, hp, -⟩ := hc
  refine ⟨_, fun r hr => exchange_timeout1 h1 h2 (h2.trans hsize) (h2.trans hmax) hr hp hn, ?_⟩
  rw [putBytes_eq]
  exact failExit_firstWait (s := { w with buf := _ })

theorem exchangeFails_mismatch {j : Nat} (hc : w.cfg.Ok) (h1 : 1 ≤ cmd.length) (h2 : cmd.length ≤ w.cfg.cmdmax)
    (ha : ReadyAfter w 0 p) (hj : firstDiff (w.chipBytes (p + 1) 6) w.cfg.ack.toList = some j) :
    ExchangeFails cmd (.ackMismatch j) (w.afterAckMismatch cmd p) w := by
  obtain ⟨⟨-, hsize, hmax, -⟩, -, hp, -⟩ := hc
  refine ⟨_, fun r hr => exchange_mismatch h1 h2 (h2.trans hsize) (h2.trans hmax) hr hp ha hj, ?_⟩
  rw [putBytes_eq]
  exact failExit_ackPhase (s := { w with buf := _ }) ha

theorem exchangeFails_timeout2 (hc : w.cfg.Ok) (h1 : 1 ≤ cmd.length) (h2 : cmd.length ≤ w.cfg.cmdmax)
    (ha : ReadyAfter w 0 p) (hm : w.chipBytes (p + 1) 6 = w.cfg.ack.toList)
    (hn : ∀ j ≤ w.maxWaits, w.chip (p + 7 + j) ≠ w.cfg.ready) :
    ExchangeFails cmd (.timeout 2) (w.afterTimeout2 cmd p) w := by
  obtain ⟨⟨-, hsize, hmax, -⟩, -, hp, -⟩ := hc
  refine ⟨_, fun r hr => exchange_timeout2 h1 h2 (h2.trans hsize) (h2.trans hmax) hr hp ha hm hn, ?_⟩
  rw [putBytes_eq]
  exact failExit_secondWait (s := { w with buf := _ }) hm

end Fails

/-- RDFIX of a length that fits cannot raise, so an error of the exchange is one of its SENDCMD (R169). -/
theorem staged_sendcmd_raised {cmd : List Byte} {r : Nat} {e : Raise} {s u : State} (h1 : 1 ≤ cmd.length)
    (h2 : cmd.length ≤ s.cfg.cmdmax) (h3 : cmd.length ≤ s.cfg.bufsz) (hr : r ≤ s.cfg.bufsz)
    (h : exchange cmd r s = .raised e u) : (memWrite 0 cmd s).andThen (sendcmd cmd.length) = .raised e u := by
  have hkept := sendcmd_kept (w := { tstate := true }) rfl cmd.length (s.putBytes 0 cmd)
  rw [exchange_eq h3, xchgf_sendcmd h1 (by rw [putBytes_cfg]; exact h2) (by rw [putBytes_cfg]; exact hr)] at h
  rw [memWrite_of_le (by omega), Run.andThen_done]
  cases hx : sendcmd cmd.length (s.putBytes 0 cmd) with
  | raised e' u' => rwa [hx] at h
  | done v =>
    have hfits : r ≤ (setTState .responseRead v).cfg.bufsz := by
      rw [hx] at hkept
      rw [setTState_cfg, show v.cfg = _ from hkept.cfg, putBytes_cfg]
      exact hr
    rw [hx, Run.andThen_done, rdfix_done hfits, Run.andThen_done] at h
    cases h

/-- A catalog operation whose first exchange fails (R206). -/
theorem exec_exchangeFails {i : Instr} {cmd : List Byte} {e : Raise} {x s t : State} (ht : exec i s = .next t)
    (hb : s.busy = false) (hc : s.cfg.Ok) (hw : i.wf = true) (hcmd : catalogCommand s.cfg i = some cmd)
    (h : ExchangeFails cmd e x (latch i s)) (hx : x.epoch = s.epoch) :
    (∀ j, t.bufByte j = if j < cmd.length then byteAt cmd j else s.bufByte j) ∧
    { t with buf := s.buf } =
      { x with
        buf := s.buf, ok := false, err := e.code, errinfo := e.info, busy := false
        res32 := if i.name = .getfw ∨ i.name = .listpt then 0 else s.res32, rcount := 0, readDone := false } := by
  have ⟨h1, h2⟩ := catalogCommand_length hc hw hcmd
  obtain ⟨u, hraised, hexit⟩ := h
  have hsend := staged_sendcmd_raised (s := latch i s) h1 h2 (h2.trans hc.1.2.1) (Nat.zero_le _) (hraised 0 (Nat.zero_le _))
  have hexec := catalog_raised hb hc hcmd hraised hsend
  rw [hexit, ht] at hexec
  obtain rfl := Host.Outcome.next.inj hexec
  refine ⟨bufByte_failedExchange (w := latch i s) cmd e hx, ?_⟩
  simp only [failedExchange, latch_op, Option.some.injEq]
  rfl

/-- Settles O60: each failure of `SENDCMD` is one of the first exchange. -/
theorem catalogFailuresShortCircuit : Obligations.CatalogFailuresShortCircuit := by
  intro i cmd s hw hcmd hb hc
  have ⟨h1, h2⟩ := catalogCommand_length hc hw hcmd
  obtain ⟨t, ht⟩ := exec_next i s
  refine ⟨t, ht, fun hn => ?_, fun p hready => ⟨fun k hk hlt => ?_, fun hm hn => ?_⟩⟩
  · exact exec_exchangeFails ht hb hc hw hcmd (exchangeFails_timeout1 (w := latch i s) hc h1 h2 hn) rfl
  · exact exec_exchangeFails ht hb hc hw hcmd
      (exchangeFails_mismatch (w := latch i s) hc h1 h2 hready (firstDiff_ack hk hlt)) rfl
  · exact exec_exchangeFails ht hb hc hw hcmd (exchangeFails_timeout2 (w := latch i s) hc h1 h2 hready hm hn) rfl

end Sys2Proof.Machine
end

section
/-! PROOFS. P2PTRS: the receive leg, and all the send leg can do behind a receive leg that was accepted. -/

namespace Sys2Proof.Machine

/-- Where the send leg of P2PTRS starts, the receive leg accepted: its response in BUF, which holds `m`, and its block in OUTBLK
(R203). -/
def received (data : List Byte) (p q : Nat) (m : Memory) (s : State) : State :=
  { (latch (.p2ptrs data) s).afterExchange [s.cfg.opcTgget] s.cfg.rlenTgget p q with
    buf := m, outblk := Vector.ofFn fun k => s.chip (p + q + 16 + k) }

/-- P2PTRS with its receive leg accepted is its send leg (R203). -/
theorem exec_p2ptrs_received {data : List Byte} {p q : Nat} {s : State} (hb : s.busy = false) (hc : s.cfg.Ok)
    (ha : Answered s 0 p q) (h7 : s.chip (p + q + 15) = 0) :
    ∃ m, (∀ j, (received data p q m s).bufByte j = s.bufAfter [s.cfg.opcTgget] s.cfg.rlenTgget (p + q + 8) j) ∧
      exec (.p2ptrs data) s = .next ((sendLeg data (received data p q m s)).exitBy successExit) := by
  obtain ⟨w, hx, hbuf, hw⟩ := receiveLeg_accepted (data := data) hc ha h7
  refine ⟨w.buf, hw ▸ hbuf, congrArg Host.Outcome.next ?_⟩
  rw [runStarted_idle hb, hx, Run.andThen_done]
  exact congrArg (fun t => (sendLeg data t).exitBy successExit) hw

section SendLeg

variable {data : List Byte} {p q p' q' : Nat} {m : Memory} {s : State}

theorem cmdTgset_length {c : Config} (hd : data.length = 16) : (cmdTgset c data).length = 17 := congrArg (· + 1) hd

theorem cmdTgset_fits {c : Config} (hc : c.Ok) (hd : data.length = 16) :
    1 ≤ (cmdTgset c data).length ∧ (cmdTgset c data).length ≤ c.cmdmax := by
  obtain ⟨hmin, -⟩ := hc.1
  rw [cmdTgset_length hd]
  omega

theorem rlenTgset_fits {c : Config} (hc : c.Ok) : 8 ≤ c.rlenTgset ∧ c.rlenTgset ≤ c.bufsz := by
  obtain ⟨-, ⟨-, -, -, -, -, -, -, -, -, -, hfits, -⟩, -⟩ := hc
  exact hfits

/-- The send leg's exchange, answered (R203). -/
theorem send_answered (hc : s.cfg.Ok) (hd : data.length = 16)
    (ha : Answered (s.afterExchange [s.cfg.opcTgget] s.cfg.rlenTgget p q) 0 p' q') :
    ∃ t, sendLeg data (received data p q m s) = expectByte 7 0 t ∧
      Response (cmdTgset s.cfg data) s.cfg.rlenTgset (p' + q' + 8) (received data p q m s) t ∧
      t = { (received data p q m s).afterExchange (cmdTgset s.cfg data) s.cfg.rlenTgset p' q' with buf := t.buf } := by
  have ⟨h1, h2⟩ := cmdTgset_fits hc hd
  have ⟨_, hr⟩ := rlenTgset_fits hc
  obtain ⟨t, hx, hresp, ht⟩ := exchange_response (s := received data p q m s) hc h1 h2 hr ha
  exact ⟨t, congrArg (Run.andThen · (expectByte 7 0)) hx, hresp, ht⟩

/-- A byte of BUF behind an answered send leg: its response, its command, what the receive leg left (R60, R62). -/
theorem bufAfter_received (hd : data.length = 16) (j : Nat)
    (hbuf : ∀ j, (received data p q m s).bufByte j = s.bufAfter [s.cfg.opcTgget] s.cfg.rlenTgget (p + q + 8) j) :
    (received data p q m s).bufAfter (cmdTgset s.cfg data) s.cfg.rlenTgset (p' + q' + 8) j =
      if j < s.cfg.rlenTgset then (s.afterExchange [s.cfg.opcTgget] s.cfg.rlenTgget p q).chip (p' + q' + 8 + j)
      else if j < 17 then byteAt (s.cfg.opcTgset :: data) j
      else s.bufAfter [s.cfg.opcTgget] s.cfg.rlenTgget (p + q + 8) j := by
  rw [State.bufAfter, cmdTgset_length hd, hbuf]
  rfl

/-! The ends of P2PTRS with its receive leg accepted, other than success. -/

variable (hc : s.cfg.Ok) (hd : data.length = 16)
  (hexec : exec (.p2ptrs data) s = .next ((sendLeg data (received data p q m s)).exitBy successExit))
  (hbuf : ∀ j, (received data p q m s).bufByte j = s.bufAfter [s.cfg.opcTgget] s.cfg.rlenTgget (p + q + 8) j)

include hc hd hexec hbuf

/-- P2PTRS with its send leg's status test failed: RCOUNT is the send leg's (R203, R240). -/
theorem exec_send_rejected {v : Byte}
    (ha : Answered (s.afterExchange [s.cfg.opcTgget] s.cfg.rlenTgget p q) 0 p' q')
    (hv : (s.afterExchange [s.cfg.opcTgget] s.cfg.rlenTgget p q).chip (p' + q' + 15) = v) (h7 : v ≠ 0) :
    ∃ t, exec (.p2ptrs data) s = .next t ∧
      (∀ j, t.bufByte j =
        if j < s.cfg.rlenTgset then (s.afterExchange [s.cfg.opcTgget] s.cfg.rlenTgget p q).chip (p' + q' + 8 + j)
        else if j < 17 then byteAt (s.cfg.opcTgset :: data) j
        else s.bufAfter [s.cfg.opcTgget] s.cfg.rlenTgget (p + q + 8) j) ∧
      { t with buf := s.buf } =
        { ((s.afterExchange [s.cfg.opcTgget] s.cfg.rlenTgget p q).afterExchange (s.cfg.opcTgset :: data) s.cfg.rlenTgset p'
            q').failed (.p2ptrs data) .operationRejected v with
          outblk := Vector.ofFn fun k => s.chip (p + q + 16 + k) } := by
  have ⟨h8, _⟩ := rlenTgset_fits hc
  obtain ⟨t, hx, hresp, ht⟩ := send_answered (m := m) hc hd ha
  have hv' : (received data p q m s).chip (p' + q' + 8 + 7) = v := hv
  rw [hx, hresp.expectByte_raises h8 (hv'.trans_ne h7), hv'] at hexec
  refine ⟨failExit (.operationRejected v) t, hexec, fun j => ?_, ?_⟩
  · rw [failExit_bufByte, hresp.bufByte, bufAfter_received hd j hbuf]
  · rw [failExit_exchanged ht]
    rfl

/-- P2PTRS with its send leg's exchange failed: RCOUNT stays at the receive leg's count (R203, R240). -/
theorem exec_send_fails {e : Raise} {x : State}
    (h : ExchangeFails (cmdTgset s.cfg data) e x (received data p q m s)) (hx : x.epoch = s.epoch) :
    ∃ t, exec (.p2ptrs data) s = .next t ∧
      (∀ j, t.bufByte j = if j < 17 then byteAt (s.cfg.opcTgset :: data) j
        else s.bufAfter [s.cfg.opcTgget] s.cfg.rlenTgget (p + q + 8) j) ∧
      { t with buf := s.buf } =
        { x with
          buf := s.buf, ok := false, err := e.code, errinfo := e.info, busy := false, res32 := s.res32
          rcount := s.cfg.rlenTgget, readDone := true } := by
  have ⟨_, hr⟩ := rlenTgset_fits hc
  obtain ⟨u, hraised, hexit⟩ := h
  have hsend : sendLeg data (received data p q m s) = .raised e u :=
    congrArg (Run.andThen · (expectByte 7 0)) (hraised s.cfg.rlenTgset hr)
  rw [hsend, Run.exitBy, hexit] at hexec
  refine ⟨_, hexec, fun j => ?_, rfl⟩
  rw [bufByte_failedExchange (w := received data p q m s) _ _ hx, cmdTgset_length hd, hbuf]
  rfl

end SendLeg

/-- Settles O55: both legs end with their status test passed. -/
theorem p2ptrsExchangesBothLegs : Obligations.P2ptrsExchangesBothLegs := by
  rintro data s u p q p' q' hd hb hc ha h7 rfl ha' h7'
  obtain ⟨m, hbuf, hexec⟩ := exec_p2ptrs_received (data := data) hb hc ha h7
  obtain ⟨t, hx, hresp, ht⟩ := send_answered (m := m) hc hd ha'
  have ⟨h8, _⟩ := rlenTgset_fits hc
  rw [hx, hresp.expectByte_accepts h8 h7'] at hexec
  refine ⟨_, hexec, fun j => ?_, ?_⟩
  · exact (hresp.bufByte j).trans (bufAfter_received hd j hbuf)
  · show { successExit t with buf := s.buf } = _
    rw [ht]
    rfl

/-- Settles O56: the receive leg's test, then the four ends of the send leg but success. -/
theorem p2ptrsRejections : Obligations.P2ptrsRejections := by
  rintro data s u p q send incoming staged hd hb hc ha rfl rfl rfl hstaged
  have ⟨_, ⟨_, _, _, _, _, _, _, _, _, ⟨h24, hr⟩, _⟩, _⟩ := hc
  have ⟨h1, h2⟩ := cmdTgset_fits hc hd
  refine ⟨fun h7 => ?_, fun h7 => ?_⟩
  · refine exec_rejected (i := .p2ptrs data) (e := .operationRejected (s.chip (p + q + 15))) hb hc (decide_eq_true hd)
      rfl hr ha rfl (Run.andThen_assoc _ _ (sendLeg data)) fun t ht => ?_
    rw [ht.expectByte_raises (j := 7) (by omega) h7, Run.andThen_raised, Run.andThen_raised]
  · obtain ⟨m, hbuf, hexec⟩ := exec_p2ptrs_received (data := data) hb hc ha h7
    have hfails {e x} := exec_send_fails (e := e) (x := x) hc hd hexec hbuf
    simp only [← hstaged] at hfails
    refine ⟨fun p' q' ha' h7' => ?_, fun hn => ?_, fun p' hready => ⟨fun k hk hlt => ?_, fun hm hn => ?_⟩⟩
    · simp only [hstaged]
      exact exec_send_rejected hc hd hexec hbuf ha' rfl h7'
    · exact hfails (exchangeFails_timeout1 hc h1 h2 hn) rfl
    · exact hfails (exchangeFails_mismatch hc h1 h2 hready (firstDiff_ack hk hlt)) rfl
    · exact hfails (exchangeFails_timeout2 hc h1 h2 hready hm hn) rfl

end Sys2Proof.Machine
end

section
/-! PROOFS. The failure exit, by which every raise of ENCODE, DECLEN, DECODE and WAITRDY ends. -/

namespace Sys2Proof.Machine

/-- The states of an exchange in flight, by name (R240). -/
theorem TState.inFlight_iff (t : TState) :
    t.inFlight = true ↔
      t = .selecting ∨ t = .awaitingReady1 ∨ t = .ackRead ∨ t = .awaitingReady2 ∨ t = .responseRead := by
  cases t <;> decide

/-- DECODE raises the reason of the first of its tests that fails (R144). -/
theorem exec_decode_reason {f : List Byte} {reason : Byte} {s : State} (h : decodeReason s.cfg f = some reason) :
    ∃ r : MismatchReason, r.code = reason ∧ exec (.decode f) s = .next (failExit (.responseMismatch r) s) := by
  rcases decodeFrame_cases s.cfg f with ⟨hnone, _⟩ | ⟨r, hreason, herror⟩
  · cases hnone.symm.trans h
  · exact ⟨r, Option.some.inj (hreason.symm.trans h), exec_decode_error herror⟩

/-- WAITRDY raises Timeout(0) where the CHIP is ready at no poll the budget pays for (R164). -/
theorem exec_waitrdy_timeout {s : State} (hb : s.busy = false) (hp : 0 < s.cfg.pollInterval)
    (hn : ∀ j ≤ s.maxWaits, s.chip j ≠ s.cfg.ready) :
    exec .waitrdy s =
      .next (failExit (.timeout 0) (polled s.maxWaits (s.maxWaits + 1) { latch .waitrdy s with elapsed := 0 })) :=
  congrArg Host.Outcome.next (runStarted_raised hb (waitrdy_timeout (s := latch .waitrdy s) hp hn))

/-- Settles O24: `failExit` is the exit written out, and each of the four operations raises into it. -/
theorem raiseTakesTheFailureExit : Obligations.RaiseTakesTheFailureExit := by
  intro s exit
  have failExit_exit (e : Raise) (u : State) : failExit e u = exit u e.code e.info := by
    rw [failExit_eq, if_congr u.tstate.inFlight_iff rfl rfl]
  refine ⟨fun cmd hlen => ?_, fun h0 h1 h2 h3 h4 hfull hshort => ?_, fun f reason hreason => ?_, fun hb hc hn => ?_⟩
  · rw [exec_encode_refused hlen, failExit_exit]
    rfl
  · have hlayout : responseLayout s.cfg s.quirk [h0, h1, h2, h3, h4] = none := (if_neg hfull).trans (if_neg hshort)
    rw [exec_declen_badHeader hlayout, failExit_exit]
    rfl
  · obtain ⟨r, rfl, hexec⟩ := exec_decode_reason hreason
    rw [hexec, failExit_exit]
    rfl
  · obtain ⟨_, _, hp, _⟩ := hc
    rw [exec_waitrdy_timeout hb hp hn, failExit_exit, polled_elapsed_zero]
    rfl

end Sys2Proof.Machine
end

section
/-! PROOFS. The machine's invariant between operations: RESET establishes it, and each thing the HOST's port does with an action
keeps it. -/

namespace Sys2Proof.Machine

/-! ### RESET -/

/-- The table of R52 meets the invariant, whatever the parameters and the draws are. -/
theorem resetOf_inv (cfg : Config) (epoch : Nat) : (State.resetOf cfg epoch).Inv := by
  have hmode : (if cfg.quirkReset then 0x01 else 0x00 : Byte) &&& 0xFC = 0 := by cases cfg.quirkReset <;> rfl
  exact ⟨⟨rfl, rfl, rfl⟩, rfl, hmode, ⟨List.Pairwise.nil, nofun⟩, Nat.zero_le _, Nat.zero_le _, Nat.zero_le _,
    Nat.zero_le _, nofun⟩

/-- Settles O13: `resetOf_inv` for the default configuration, and an empty HIST with the lines at rest. -/
theorem invariantsAtReset : Obligations.InvariantsAtReset := ⟨resetOf_inv .default 0, rfl⟩

/-- Settles O12: the registers are those of `State.resetOf`, and what the CHIP presents depends on its own input only. -/
theorem resetAction : Obligations.ResetAction := by
  intro s rest hs
  have hchip : (applyReset { s with host := rest }).chip = s.chip := chip_congr rfl rfl
  exact ⟨_, step_cons hs, rfl, rfl, rfl, rfl, rfl, rfl, rfl, rfl, rfl, rfl, rfl, rfl, rfl, rfl, rfl, rfl, rfl, rfl, rfl, rfl,
    hchip⟩

/-! ### The registers that hold their ranges at every line of pseudocode -/

/-- The part of the invariant that speaks of MODE, BUF and the counters: unlike the rest, it holds inside an operation too. -/
structure State.RangesOk (s : State) : Prop where
  mode : s.mode &&& 0xFC = 0
  buf : s.BufOk
  bcnt : s.bcnt ≤ 8
  tlen : s.tlen ≤ 262
  rcount : s.rcount ≤ s.cfg.bufsz
  elapsed : s.elapsed ≤ 65535 + s.cfg.pollInterval

theorem State.inv_iff (s : State) :
    s.Inv ↔ s.Quiescent ∧ s.tstate.inFlight = false ∧ s.RangesOk ∧ (s.ok = true → s.err = .none ∧ s.errinfo = 0) :=
  ⟨fun ⟨hq, ht, hmode, hbuf, hbcnt, htlen, hrcount, helapsed, hok⟩ =>
      ⟨hq, ht, ⟨hmode, hbuf, hbcnt, htlen, hrcount, helapsed⟩, hok⟩,
    fun ⟨hq, ht, hr, hok⟩ => ⟨hq, ht, hr.mode, hr.buf, hr.bcnt, hr.tlen, hr.rcount, hr.elapsed, hok⟩⟩

theorem Kept.rangesOk {w : Writes} {s t : State} (h : Kept w s t) (hs : s.RangesOk) : t.RangesOk where
  mode := h.mode ▸ hs.mode
  buf := h.bufOk hs.buf
  bcnt := h.bcnt hs.bcnt
  tlen := h.tlen hs.tlen
  rcount := h.cfg ▸ h.rcount hs.rcount
  elapsed := h.cfg ▸ h.elapsed hs.elapsed

/-! ### The exits -/

/-- The failure exit leaves RCOUNT or zeroes it, and writes no other of these registers (R240). -/
theorem failExit_rangesOk (e : Raise) {s : State} (hs : s.RangesOk) : (failExit e s).RangesOk := by
  have hrcount : (if s.readDone then s.rcount else 0) ≤ s.cfg.bufsz := by
    split_ifs
    · exact hs.rcount
    · exact Nat.zero_le _
  rw [failExit_eq]
  exact ⟨hs.mode, hs.buf, hs.bcnt, hs.tlen, hrcount, hs.elapsed⟩

/-- The failure exit moves TSTATE on from every state of an exchange in flight (R240). -/
theorem failExit_not_inFlight (e : Raise) (s : State) : (failExit e s).tstate.inFlight = false := by
  have h : (if s.tstate.inFlight then (if e.code = .timeout then .timedOut else .failed) else s.tstate : TState).inFlight =
      false := by
    split_ifs with hs
    · rfl
    · rfl
    · exact Bool.eq_false_of_not_eq_true hs
  rw [failExit_eq]
  exact h

theorem Run.exit_rangesOk {r : Run} (h : r.state.RangesOk) : (r.exitBy successExit).RangesOk := by
  cases r with
  | done t => exact ⟨h.mode, h.buf, h.bcnt, h.tlen, h.rcount, h.elapsed⟩
  | raised e t => exact failExit_rangesOk e h

/-- Pseudocode that reaches its end leaves TSTATE alone or at Success, and the failure exit ends the exchange in flight. -/
theorem Body.exit_not_inFlight {w : Writes} {body : State → Run} (h : Body w body) {s : State}
    (hs : s.tstate.inFlight = false) : ((body s).exitBy successExit).tstate.inFlight = false := by
  cases hr : body s with
  | done t =>
    change t.tstate.inFlight = false
    rcases h.ends s t hr with ht | ht
    · rwa [ht]
    · rw [ht]
      rfl
  | raised e t => exact failExit_not_inFlight e t

/-- An operation the HOST starts keeps the invariant; that it ends quiescent, its outcome recorded, is `everyOperationEnds`. -/
theorem exec_started_inv {i : Instr} {s t : State} (hi : i.name.startable = true) (hs : s.Inv) (hx : exec i s = .next t) :
    t.Inv := by
  obtain ⟨hq, ht, hranges, -⟩ := s.inv_iff.mp hs
  obtain ⟨u, hu, hq', -, hout⟩ := everyOperationEnds i s hi hq
  cases hx.symm.trans hu
  have hok : t.ok = true → t.err = .none ∧ t.errinfo = 0 := by
    rcases hout with ⟨-, herr⟩ | ⟨hfail, -⟩
    · exact fun _ => herr
    · exact fun h => absurd (hfail.symm.trans h) Bool.false_ne_true
  obtain ⟨body, hbody, hexec⟩ := exec_started hi
  obtain ⟨hb, -⟩ := hq
  rw [hexec, runStarted_idle hb] at hx
  cases hx
  have hlatch : (latch i s).RangesOk :=
    ⟨hranges.mode, hranges.buf, hranges.bcnt, hranges.tlen, hranges.rcount, hranges.elapsed⟩
  exact (State.inv_iff _).mpr ⟨hq', hbody.exit_not_inFlight (s := latch i s) ht,
    Run.exit_rangesOk ((hbody.kept _).rangesOk hlatch), hok⟩

/-! ### What the port does -/

theorem modeWritten_reserved (v : Byte) : modeWritten v &&& 0xFC = 0 := by
  have hdisjoint : (0x03 : Byte) &&& 0xFC = 0 := rfl
  rw [modeWritten, BitVec.and_assoc, hdisjoint]
  exact BitVec.and_zero

theorem IdleAction.inv {s t : State} (h : IdleAction s t) (hs : s.Inv) : t.Inv := by
  cases h with
  | refused r =>
    obtain ⟨hq, ht, hmode, hbuf, hbcnt, htlen, -, helapsed, -⟩ := hs
    have ⟨hb, hsel, _⟩ := hq
    rw [refuseRequest_quiet hb hsel ht]
    exact ⟨hq, ht, hmode, hbuf, hbcnt, htlen, Nat.zero_le _, helapsed, nofun⟩
  | started hi hx => exact exec_started_inv hi hs hx
  | setBudget v => exact hs
  | setMode v =>
    obtain ⟨hq, ht, -, hrest⟩ := hs
    exact ⟨hq, ht, modeWritten_reserved v, hrest⟩
  | writeBuf v hi =>
    obtain ⟨hq, ht, hmode, hbuf, hrest⟩ := hs
    exact ⟨hq, ht, hmode, putBytes_bufOk hbuf _ [v] hi, hrest⟩
  | read v => exact hs
  | reset => exact resetOf_inv s.cfg (s.epoch + 1)

/-- Settles O14: `step_idle` lists what a step can be, `IdleAction.inv` follows the invariant through each. -/
theorem invariantKeptByEveryStep : Obligations.InvariantKeptByEveryStep := by
  intro s t hs h
  have ⟨⟨hb, _⟩, _⟩ := hs
  rcases step_idle hb h with rfl | ⟨rest, ha⟩
  · exact hs
  · exact ha.inv hs

end Sys2Proof.Machine
end
